-- ==== Sys2Proof/Word.lean ====
section
/-! DEFINITION. The bit-vector types the spec's registers and fields have (00_scope.md R9, R13, R15). -/

namespace Sys2Proof

/-- A register, a code word or a command word: 32 bits (10_state.md R33). -/
abbrev Word := BitVec 32

/-- A DMEM address: 32 bits (00_scope.md R13). -/
abbrev Addr := BitVec 32

/-- A DMEM byte (20_memory.md R71). -/
abbrev Byte := BitVec 8

/-- A symbol: 8 bits (00_scope.md R9). -/
abbrev Sym := BitVec 8

/-- A Tree Table slot index: 9 bits, 511 naming no slot (00_scope.md R12). -/
abbrev Slot := BitVec 9

end Sys2Proof
end

