-- ==== Sys2Proof/Syntax.lean ====
section
/-! DEFINITION. The sixteen commands (30_encoding.md R109), one constructor per row of
spec/opcode_table.json, with the operand fields of their formats (R101 to R107). -/

namespace Sys2Proof

/-- A command with its operands. Fields have the width of their encoding; Instr.wellFormed
says which values are legal. -/
inductive Instr where
  /-- No effect (40_control.md R133). -/
  | nop
  /-- Start a new stream, leave the error state (R134). -/
  | clr
  /-- Empty the Code Table (R135). -/
  | ctclr
  /-- Empty the Tree Table (R136). -/
  | tnclr
  /-- Append the n low bits of v (42_packer.md R181). -/
  | putbits (n : BitVec 5) (v : BitVec 16)
  /-- Append the code of a symbol (R182). -/
  | putsym (sym : Sym)
  /-- Write the partial byte (R183). -/
  | flush
  /-- Set a code length (41_tables.md R150). -/
  | ctlen (sym : Sym) (len : BitVec 8)
  /-- Write a code word from DATA (R151). -/
  | ctword (sym : Sym) (k : BitVec 3)
  /-- Read a code length into DATA (R152). -/
  | ctrdlen (sym : Sym)
  /-- Read a code word into DATA (R153). -/
  | ctrdword (sym : Sym) (k : BitVec 3)
  /-- Write a Tree Table slot from DATA (R154). -/
  | tnw (idx : Slot)
  /-- Read a Tree Table slot into DATA (R155). -/
  | tnrd (idx : Slot)
  /-- Read n raw bits into RESULT (43_unpacker.md R202). -/
  | getbits (n : BitVec 5)
  /-- Decode one symbol (R203). -/
  | dstep
  /-- Decode symbols until SYM_REMAIN is 0 (R204). -/
  | drun
deriving DecidableEq, Repr

end Sys2Proof
end

