-- ==== Sys2Proof/WellFormed.lean ====
section
/-! DEFINITION. Which operand values are legal (30_encoding.md R111). -/

namespace Sys2Proof

/-- N is legal from 1 to 16 (30_encoding.md R102, R107). -/
def legalCount (n : BitVec 5) : Bool := 1 ≤ n.toNat && n.toNat ≤ 16

/-- IDX is legal from 0 to 510 (30_encoding.md R106). -/
def legalSlot (i : Slot) : Bool := i.toNat < 511

/-- The range checks of 30_encoding.md R111; every other field value is legal (R103 to R105). -/
def Instr.wellFormed : Instr → Bool
  | .nop => true
  | .clr => true
  | .ctclr => true
  | .tnclr => true
  | .putbits n _ => legalCount n
  | .putsym _ => true
  | .flush => true
  | .ctlen _ _ => true
  | .ctword _ _ => true
  | .ctrdlen _ => true
  | .ctrdword _ _ => true
  | .tnw idx => legalSlot idx
  | .tnrd idx => legalSlot idx
  | .getbits n => legalCount n
  | .dstep => true
  | .drun => true

end Sys2Proof
end

