-- ==== Sys2Proof/Decode.lean ====
section
/-! DEFINITION. The decoder of a 32-bit command word, total, with a named reason for every rejection
(30_encoding.md R100 to R113), and the encoder written from the same formats. -/

namespace Sys2Proof

/-- Why a word is illegal (30_encoding.md R110, R111). Every reason raises ILLEGAL_CMD. -/
inductive Reject where
  /-- The opcode is not in the map (R110). -/
  | reservedOpcode
  /-- A reserved bit of the format is 1 (R111). -/
  | reservedBits
  /-- N is 0 or above 16 (R111). -/
  | illegalCount
  /-- IDX is 511 (R111). -/
  | illegalSlot
deriving DecidableEq, Repr

/-- OP = w[31:24] (30_encoding.md R100). -/
def opcodeOf (w : Word) : BitVec 8 := w.extractLsb' 24 8

/-- SYM = w[7:0] (R108). -/
def symOf (w : Word) : Sym := w.extractLsb' 0 8

/-- LEN = w[15:8] (R108). -/
def lenOf (w : Word) : BitVec 8 := w.extractLsb' 8 8

/-- K = w[10:8] (R108). -/
def kOf (w : Word) : BitVec 3 := w.extractLsb' 8 3

/-- IDX = w[8:0] (R108). -/
def idxOf (w : Word) : Slot := w.extractLsb' 0 9

/-- N = w[4:0] in format FN (R108). -/
def countFN (w : Word) : BitVec 5 := w.extractLsb' 0 5

/-- N = w[20:16] in format FB (R108). -/
def countFB (w : Word) : BitVec 5 := w.extractLsb' 16 5

/-- V = w[15:0] (R108). -/
def bitsOf (w : Word) : BitVec 16 := w.extractLsb' 0 16

/-- A word whose reserved bits w[23:lo] are 0 stands for i (R101 to R107). -/
def needZero (w : Word) (lo : Nat) (i : Instr) : Except Reject Instr :=
  if w.extractLsb' lo (24 - lo) = 0 then .ok i else .error .reservedBits

/-- The range check of N (R111). -/
def needCount (n : BitVec 5) (r : Except Reject Instr) : Except Reject Instr :=
  match r with
  | .error e => .error e
  | .ok i => if legalCount n then .ok i else .error .illegalCount

/-- The range check of IDX (R111). -/
def needSlot (idx : Slot) (r : Except Reject Instr) : Except Reject Instr :=
  match r with
  | .error e => .error e
  | .ok i => if legalSlot idx then .ok i else .error .illegalSlot

/-- The opcode map (30_encoding.md R109) with the decode check of R110 and R111. -/
def decode (w : Word) : Except Reject Instr :=
  match opcodeOf w with
  | 0x00#8 => needZero w 0 .nop
  | 0x01#8 => needZero w 0 .clr
  | 0x02#8 => needZero w 0 .ctclr
  | 0x03#8 => needZero w 0 .tnclr
  | 0x10#8 => needCount (countFB w) (needZero w 21 (.putbits (countFB w) (bitsOf w)))
  | 0x11#8 => needZero w 8 (.putsym (symOf w))
  | 0x12#8 => needZero w 0 .flush
  | 0x20#8 => needZero w 16 (.ctlen (symOf w) (lenOf w))
  | 0x21#8 => needZero w 11 (.ctword (symOf w) (kOf w))
  | 0x22#8 => needZero w 8 (.ctrdlen (symOf w))
  | 0x23#8 => needZero w 11 (.ctrdword (symOf w) (kOf w))
  | 0x28#8 => needSlot (idxOf w) (needZero w 9 (.tnw (idxOf w)))
  | 0x29#8 => needSlot (idxOf w) (needZero w 9 (.tnrd (idxOf w)))
  | 0x30#8 => needCount (countFN w) (needZero w 5 (.getbits (countFN w)))
  | 0x31#8 => needZero w 0 .dstep
  | 0x32#8 => needZero w 0 .drun
  | _ => .error .reservedOpcode

/-- The command a table row's word stands for: the word is written to CMD whole (R100), so its bits are
already numbered as the table numbers them. -/
def decodeTableWord (nbits w : Nat) : Option Instr :=
  if nbits ≤ 32 then (decode (BitVec.ofNat 32 (w % 2 ^ nbits))).toOption else none

/-- Format F0 (R101). -/
def wordF0 (op : BitVec 8) : Word := op ++ 0#24

/-- Format FB (R102). -/
def wordFB (op : BitVec 8) (n : BitVec 5) (v : BitVec 16) : Word := op ++ (0#3 ++ (n ++ v))

/-- Format FS (R103). -/
def wordFS (op : BitVec 8) (sym : Sym) : Word := op ++ (0#16 ++ sym)

/-- Format FL (R104). -/
def wordFL (op : BitVec 8) (len : BitVec 8) (sym : Sym) : Word := op ++ (0#8 ++ (len ++ sym))

/-- Format FK (R105). -/
def wordFK (op : BitVec 8) (k : BitVec 3) (sym : Sym) : Word := op ++ (0#13 ++ (k ++ sym))

/-- Format FI (R106). -/
def wordFI (op : BitVec 8) (idx : Slot) : Word := op ++ (0#15 ++ idx)

/-- Format FN (R107). -/
def wordFN (op : BitVec 8) (n : BitVec 5) : Word := op ++ (0#19 ++ n)

/-- The word of a command, from the opcode map and the formats (R109, R115). -/
def encode : Instr → Word
  | .nop => wordF0 0x00
  | .clr => wordF0 0x01
  | .ctclr => wordF0 0x02
  | .tnclr => wordF0 0x03
  | .putbits n v => wordFB 0x10 n v
  | .putsym sym => wordFS 0x11 sym
  | .flush => wordF0 0x12
  | .ctlen sym len => wordFL 0x20 len sym
  | .ctword sym k => wordFK 0x21 k sym
  | .ctrdlen sym => wordFS 0x22 sym
  | .ctrdword sym k => wordFK 0x23 k sym
  | .tnw idx => wordFI 0x28 idx
  | .tnrd idx => wordFI 0x29 idx
  | .getbits n => wordFN 0x30 n
  | .dstep => wordF0 0x31
  | .drun => wordF0 0x32

end Sys2Proof
end

