-- ==== Sys2Proof/Config.lean ====
section
/-! DEFINITION. What an implementation or its platform fixes, and the values the spec leaves open
(93_implementation_defined.md). -/

namespace Sys2Proof

/-- The open parameters. A model takes them as an argument (00_scope.md R13), so they stand in State,
where no step changes them. -/
structure Config where
  /-- DMEM_SIZE: the number of populated DMEM bytes from address 0 (00_scope.md R13). -/
  dmemSize : Nat
  /-- Whether the platform keeps DMEM over a hardware reset (70_reset_and_hazards.md R263: bytes are
  unwritten after reset "unless the platform says otherwise"). -/
  dmemKeptAtReset : Bool
deriving DecidableEq, Repr

namespace Config

/-- 1 ≤ DMEM_SIZE ≤ 2^32 (00_scope.md R13). -/
def legal (c : Config) : Bool := 1 ≤ c.dmemSize && c.dmemSize ≤ 2 ^ 32

/-- The parameters State.reset is shown with: all of the address space populated (95_test_vectors.md's
convention) and DMEM unwritten after reset (10_state.md R61). DESIGN CHOICE, logs 1 and 12. -/
def standard : Config := { dmemSize := 2 ^ 32, dmemKeptAtReset := false }

/-- FREE VALUE: the n-th word drawn for a window read whose value is unspecified (10_state.md R54). -/
opaque freeWord : Nat → Word

/-- FREE VALUE: the n-th byte drawn for a host read of a DMEM byte never written
(93_implementation_defined.md item 2). -/
opaque freeByte : Nat → Byte

end Config
end Sys2Proof
end

