-- ==== Sys2Proof/Machine/State.lean ====
section
/-! DEFINITION. The architectural state (10_state.md), the moves the agents can make, the state after
reset, and the reasons a step can stop. -/

namespace Sys2Proof.Machine

/-- The error codes a command can raise, and NONE (60_exceptions.md R230). -/
inductive ErrCode where
  | none
  | illegalCmd
  | symNotInTable
  | truncated
  | badTree
  | badCode
  | busError
deriving DecidableEq, Repr

/-- One Code Table entry: LEN and W[0] to W[7] (10_state.md R55). -/
structure CodeEntry where
  len : BitVec 8
  w : Vector Word 8
deriving DecidableEq, Repr

/-- The entry of a symbol without a code (10_state.md R61). -/
def CodeEntry.empty : CodeEntry := { len := 0, w := Vector.replicate 8 0 }

/-- DMEM: the written bytes by address, addresses strictly rising; an unlisted address has never been
written and has no value (20_memory.md R71). -/
abbrev Memory := List Host.Cell

/-- The slots of the register window (10_state.md R34, R52). -/
inductive WindowReg where
  | id
  | version
  | ctrl
  | status
  | cmd
  | data
  | result
  | outPtr
  | inPtr
  | inEnd
  | symPtr
  | symRemain
  | root
  | pacc
  | uacc
  | bitcntLo
  | bitcntHi
  | reserved
deriving DecidableEq, Repr

/-- What the host can do to the HBPU (10_state.md R32): a 32-bit access at a byte offset of the
256-byte window, or an access to one DMEM byte (log 28). -/
inductive HostAction where
  | regWrite (off : BitVec 8) (v : Word)
  | regRead (off : BitVec 8)
  | memWrite (a : Addr) (v : Byte)
  | memRead (a : Addr)
deriving DecidableEq, Repr

/-- One move of one agent. Moves are interleaved, never simultaneous (60_exceptions.md R242). -/
inductive Move where
  /-- The engine takes its step, if it has one (40_control.md R131). -/
  | engine
  /-- The host acts. -/
  | host (a : HostAction)
  /-- The platform drives the reset input; of a command it interrupts, the first `commits` commits
  stay (70_reset_and_hazards.md R262). -/
  | reset (commits : Nat)
deriving DecidableEq, Repr

/-- The state of the HBPU. The last three fields are the model's own (logs 2, 7, 8). -/
structure State where
  /-- The open parameters, constant (log 1). -/
  cfg : Config
  /-- CTRL[1:0]: IE_ERR, IE_DONE (R37). -/
  ctrl : BitVec 2
  /-- STATUS.BUSY (R38). -/
  busy : Bool
  /-- STATUS.DONE (R38). -/
  done : Bool
  /-- STATUS.ERR (R38, R230). -/
  err : ErrCode
  /-- STATUS.OVR (R38). -/
  ovr : Bool
  /-- The command latch (R60). -/
  pending : Option Word
  /-- DATA (R41). -/
  data : Word
  /-- RESULT (R42). -/
  result : Word
  /-- OUT_PTR (R43). -/
  outPtr : Addr
  /-- IN_PTR (R44). -/
  inPtr : Addr
  /-- IN_END (R45). -/
  inEnd : Addr
  /-- SYM_PTR (R46). -/
  symPtr : Addr
  /-- SYM_REMAIN (R47). -/
  symRemain : Word
  /-- ROOT (R48). -/
  root : Slot
  /-- ACC, the packer's partial byte (R49). -/
  acc : Byte
  /-- ACC_N, 0 to 7 (R49, log 17). -/
  accN : Fin 8
  /-- UBUF, the unpacker's remaining bits (R50). -/
  ubuf : Byte
  /-- UBUF_N, 0 to 8 (R50, log 17). -/
  ubufN : Fin 9
  /-- BITCNT (R51). -/
  bitcnt : BitVec 64
  /-- The Code Table (R55). -/
  ct : Vector CodeEntry 256
  /-- The Tree Table: slots 0 to 510 (R57). -/
  tn : Vector Word 511
  /-- DMEM (20_memory.md R71). -/
  mem : Memory
  /-- MODEL's own: the moves still to come (log 2). -/
  schedule : List Move
  /-- MODEL's own: the value the host's last read returned (log 8). -/
  readData : Word
  /-- MODEL's own: how many free values host reads have drawn (log 7). -/
  draws : Nat
deriving DecidableEq, Repr

/-- The state after a hardware reset of a machine with the given parameters and DMEM contents
(10_state.md R61, 70_reset_and_hazards.md R261, R263). -/
def State.resetOf (cfg : Config) (mem : Memory) : State where
  cfg := cfg
  ctrl := 0
  busy := false
  done := false
  err := .none
  ovr := false
  pending := none
  data := 0
  result := 0
  outPtr := 0
  inPtr := 0
  inEnd := 0
  symPtr := 0
  symRemain := 0
  root := 0
  acc := 0
  accN := 0
  ubuf := 0
  ubufN := 0
  bitcnt := 0
  ct := Vector.replicate 256 CodeEntry.empty
  tn := Vector.replicate 511 0
  mem := mem
  schedule := []
  readData := 0
  draws := 0

/-- The machine right after reset (10_state.md R61): every DMEM byte unwritten. The parameters are
Config.standard (logs 1, 12). -/
def State.reset : State := State.resetOf Config.standard []

/-- Why the machine stops with a fault of the model. -/
inductive Fault where
  /-- Raised by an engine read of a DMEM byte never written (20_memory.md R71: "a fault of the model").
  Safe: the hardware goes on with some byte. -/
  | unwrittenDmemByte
  /-- Raised by a host DMEM access at an address at or above DMEM_SIZE, where no byte exists
  (20_memory.md R71, log 11). Safe: the platform's port answers somehow. -/
  | hostAccessUnpopulated
deriving DecidableEq, Repr

/-- Why the model has no meaning for what it is asked to do. -/
inductive Refusal where
  /-- Raised by an arm of exec whose command has no meaning yet. Safe: the hardware goes on. -/
  | notModelled (mnemonic : String)
  /-- Raised by a window access at an offset that is not a multiple of 4 (10_state.md R33: "a model
  refuses the access"). Safe: the hardware ignores the write or reads 0. -/
  | unsupportedRegisterAccess
  /-- Raised by a host DMEM access while BUSY = 1 (20_memory.md R83 (d): "a model refuses such an
  access"). Safe: the hardware races. -/
  | dmemRace
deriving DecidableEq, Repr

/-- What a meaning answers. -/
abbrev Result := Host.Outcome State Fault Refusal

/-- Why the work of a command ends before its commit: an error code raised (00_scope.md R18), or a
fault of the model. -/
inductive Stop where
  | raise (e : ErrCode)
  | fault (f : Fault)
deriving DecidableEq, Repr

end Sys2Proof.Machine
end

