-- ==== Sys2Proof/Machine/Flags.lean ====
section
/-! DEFINITION. The computed flags, the words the window shows of packed fields, and the interrupt
output (10_state.md R37, R38, R49 to R51; 60_exceptions.md R230, R243). -/

namespace Sys2Proof.Machine

/-- The code STATUS.ERR holds (60_exceptions.md R230). -/
def ErrCode.code : ErrCode → BitVec 4
  | .none => 0
  | .illegalCmd => 1
  | .symNotInTable => 2
  | .truncated => 3
  | .badTree => 4
  | .badCode => 5
  | .busError => 6

/-- ERRF: 1 exactly when ERR ≠ 0 (10_state.md R38). -/
def errf (s : State) : Bool := s.err.code != 0

/-- SZ: 1 exactly when SYM_REMAIN = 0 (10_state.md R38). -/
def sz (s : State) : Bool := s.symRemain == 0

/-- CTRL.IE_DONE (10_state.md R37). -/
def ieDone (s : State) : Bool := s.ctrl.getLsbD 0

/-- CTRL.IE_ERR (10_state.md R37). -/
def ieErr (s : State) : Bool := s.ctrl.getLsbD 1

/-- The interrupt output (60_exceptions.md R243). -/
def irq (s : State) : Bool := (ieDone s && s.done) || (ieErr s && errf s)

/-- The word STATUS reads (10_state.md R38). -/
def statusWord (s : State) : Word :=
  0#23 ++ (BitVec.ofBool s.ovr ++ (s.err.code ++ (BitVec.ofBool (sz s) ++ (BitVec.ofBool (errf s) ++
    (BitVec.ofBool s.done ++ BitVec.ofBool s.busy)))))

/-- The word CTRL reads (10_state.md R37). -/
def ctrlWord (s : State) : Word := 0#30 ++ s.ctrl

/-- The word ROOT reads (10_state.md R48). -/
def rootWord (s : State) : Word := 0#23 ++ s.root

/-- The word PACC reads: ACC_N in [10:8], ACC in [7:0] (10_state.md R49). -/
def paccWord (s : State) : Word := 0#21 ++ (BitVec.ofNat 3 s.accN.val ++ s.acc)

/-- The word UACC reads: UBUF_N in [11:8], UBUF in [7:0] (10_state.md R50). -/
def uaccWord (s : State) : Word := 0#20 ++ (BitVec.ofNat 4 s.ubufN.val ++ s.ubuf)

end Sys2Proof.Machine
end

