-- ==== Sys2Proof/Machine/Operands.lean ====
section
/-! DEFINITION. What commands read besides DMEM: the bits of an immediate, the code of a symbol, the
fields of a node word (30_encoding.md R102, 10_state.md R56, R57). -/

namespace Sys2Proof.Machine

/-- The bits of PUTBITS in stream order: V[N-1] first, V[0] last (30_encoding.md R102). -/
def immediateBits (n : BitVec 5) (v : BitVec 16) : List Bool :=
  (List.range n.toNat).map fun i => v.getLsbD (n.toNat - 1 - i)

/-- code_bit(s, j) = CT[s].W[j div 32][31 - (j mod 32)], for j up to 255 (10_state.md R56). -/
def codeBit (e : CodeEntry) (j : Fin 256) : Bool :=
  (e.w[j.val / 32]).getLsbD (31 - j.val % 32)

/-- The code of an entry in stream order: code bits 0 to LEN-1 (10_state.md R56). -/
def codeBits (e : CodeEntry) : List Bool :=
  (List.range e.len.toNat).map fun j => codeBit e (Fin.ofNat 256 j)

/-- CT[s] (10_state.md R55). -/
def codeEntry (s : State) (sym : Sym) : CodeEntry := s.ct[sym.toNat]

/-- CT[s].W[k] (10_state.md R55). -/
def codeWord (e : CodeEntry) (k : BitVec 3) : Word := e.w[k.toNat]

/-- VALID, bit 31 of a node word (10_state.md R57). -/
def nodeValid (nd : Word) : Bool := nd.getLsbD 31

/-- LEAF, bit 30 (10_state.md R57). -/
def nodeLeaf (nd : Word) : Bool := nd.getLsbD 30

/-- SYM, bits [25:18] (10_state.md R57). -/
def nodeSym (nd : Word) : Sym := nd.extractLsb' 18 8

/-- LEFT, bits [17:9] (10_state.md R57). -/
def nodeLeft (nd : Word) : Slot := nd.extractLsb' 9 9

/-- RIGHT, bits [8:0] (10_state.md R57). -/
def nodeRight (nd : Word) : Slot := nd.extractLsb' 0 9

/-- The child a bit selects: '0' = left, '1' = right (43_unpacker.md R203). -/
def nodeChild (nd : Word) (b : Bool) : Slot := if b then nodeRight nd else nodeLeft nd

/-- A node word as TNW stores it: reserved bits [29:26] are 0 (41_tables.md R154). -/
def storedNode (d : Word) : Word := d &&& 0xC3FFFFFF#32

end Sys2Proof.Machine
end

