-- ==== Sys2Proof/Machine/Ops.lean ====
section
/-! DEFINITION. The named operations commands are built of: DMEM byte accesses, the packer and
unpacker primitives, the tree walk, error entry, the return from it, and completion. A command works
on a copy of the state, its shadow; dropping the copy on an error is the atomicity of
60_exceptions.md R237 (log 16). -/

namespace Sys2Proof.Machine

/-! ## DMEM -/

/-- The canonical form of DMEM: addresses strictly rising. -/
def Memory.wf (m : Memory) : Bool := decide (m.Pairwise fun c d => c.1 < d.1)

/-- The byte last written at an address, if any (20_memory.md R71). -/
def Memory.read : Memory → Nat → Option Byte
  | [], _ => none
  | (b, v) :: m, a => if a = b then some v else Memory.read m a

/-- Write one byte, keeping the addresses strictly rising. -/
def Memory.write : Memory → Nat → Byte → Memory
  | [], a, v => [(a, v)]
  | (b, u) :: m, a, v =>
    if a < b then (a, v) :: (b, u) :: m
    else if a = b then (a, v) :: m
    else (b, u) :: Memory.write m a v

/-- Whether an address is populated: below DMEM_SIZE (20_memory.md R71). -/
def populated (s : State) (a : Addr) : Bool := a.toNat < s.cfg.dmemSize

/-- MemRead(a, 1) (00_scope.md R18): BUS_ERROR at an unpopulated address (20_memory.md R73), a fault of
the model at a byte never written (R71). -/
def dmemRead (s : State) (a : Addr) : Except Stop Byte :=
  if populated s a then
    match s.mem.read a.toNat with
    | some v => .ok v
    | none => .error (.fault .unwrittenDmemByte)
  else .error (.raise .busError)

/-- MemWrite(a, 1, v) (00_scope.md R18): BUS_ERROR at an unpopulated address, and nothing is written
(20_memory.md R73). -/
def dmemWrite (s : State) (a : Addr) (v : Byte) : Except Stop State :=
  if populated s a then .ok { s with mem := s.mem.write a.toNat v }
  else .error (.raise .busError)

/-! ## Packer -/

/-- ACC with one bit ORed in below its valid bits (42_packer.md R180). -/
def accWith (s : State) (b : Bool) : Byte :=
  s.acc ||| ((BitVec.ofBool b).setWidth 8 <<< (7 - s.accN.val))

/-- Write a byte at OUT_PTR and start a new partial byte (42_packer.md R180, R183). -/
def writeOut (s : State) (v : Byte) : Except Stop State :=
  match dmemWrite s s.outPtr v with
  | .ok t => .ok { t with outPtr := s.outPtr + 1, acc := 0, accN := 0 }
  | .error e => .error e

/-- append_bit(b) (42_packer.md R180). -/
def appendBit (s : State) (b : Bool) : Except Stop State :=
  if h : s.accN.val + 1 < 8 then
    .ok { s with acc := accWith s b, accN := ⟨s.accN.val + 1, h⟩, bitcnt := s.bitcnt + 1 }
  else writeOut { s with bitcnt := s.bitcnt + 1 } (accWith s b)

/-- append_bit over a bit sequence, in stream order. -/
def appendBits : State → List Bool → Except Stop State
  | s, [] => .ok s
  | s, b :: bs =>
    match appendBit s b with
    | .ok t => appendBits t bs
    | .error e => .error e

/-! ## Unpacker -/

/-- The fetch part of fetch_bit: a new byte only when no bit is left (43_unpacker.md R200). -/
def refill (s : State) : Except Stop State :=
  if s.ubufN = 0 then
    if s.inPtr = s.inEnd then .error (.raise .truncated)
    else
      match dmemRead s s.inPtr with
      | .ok v => .ok { s with ubuf := v, inPtr := s.inPtr + 1, ubufN := 8 }
      | .error e => .error e
  else .ok s

/-- The consuming part of fetch_bit: UBUF[7] leaves, the rest moves up (43_unpacker.md R200). -/
def takeBit (s : State) : Bool × State :=
  (s.ubuf.getLsbD 7, { s with ubuf := s.ubuf <<< 1, ubufN := ⟨s.ubufN.val - 1, by omega⟩ })

/-- fetch_bit() (43_unpacker.md R200). -/
def fetchBit (s : State) : Except Stop (Bool × State) :=
  match refill s with
  | .ok t => .ok (takeBit t)
  | .error e => .error e

/-- `repeat n times: v <- (v << 1) | fetch_bit()` (43_unpacker.md R202). -/
def fetchBits : Nat → Word → State → Except Stop (Word × State)
  | 0, v, s => .ok (v, s)
  | n + 1, v, s =>
    match fetchBit s with
    | .ok (b, t) => fetchBits n ((v <<< 1) ||| (BitVec.ofBool b).setWidth 32) t
    | .error e => .error e

/-- The bits left in the stream: those of UBUF and 8 for each byte of the input window
(43_unpacker.md R202). -/
def bitsLeft (s : State) : Nat := s.ubufN.val + 8 * (s.inEnd - s.inPtr).toNat

/-! ## Tree traversal -/

/-- load_node(i) (43_unpacker.md R201). -/
def loadNode (s : State) (i : Slot) : Except Stop Word :=
  if h : i.toNat < 511 then
    if nodeValid s.tn[i.toNat] then .ok s.tn[i.toNat] else .error (.raise .badTree)
  else .error (.raise .badTree)

/-- The loop of DSTEP from an internal node (43_unpacker.md R203). Each turn consumes one bit, so
with as many turns as bits left the loop ends by itself: out of turns, the next fetch_bit would raise
TRUNCATED (log 15). -/
def walk : Nat → Word → State → Except Stop (Sym × State)
  | 0, _, _ => .error (.raise .truncated)
  | n + 1, nd, s =>
    match fetchBit s with
    | .error e => .error e
    | .ok (b, t) =>
      match loadNode t (nodeChild nd b) with
      | .error e => .error e
      | .ok child => if nodeLeaf child then .ok (nodeSym child, t) else walk n child t

/-- The lone-leaf case of DSTEP: one bit, which must be 0 (43_unpacker.md R203, 41_tables.md R173). -/
def loneLeaf (nd : Word) (s : State) : Except Stop (Sym × State) :=
  match fetchBit s with
  | .error e => .error e
  | .ok (b, t) => if b then .error (.raise .badCode) else .ok (nodeSym nd, t)

/-- One symbol read from the stream through the tree at ROOT (43_unpacker.md R203). -/
def traverseTree (s : State) : Except Stop (Sym × State) :=
  match loadNode s s.root with
  | .error e => .error e
  | .ok nd => if nodeLeaf nd then loneLeaf nd s else walk (bitsLeft s) nd s

/-- Write a decoded symbol at SYM_PTR and count it (43_unpacker.md R203). -/
def emitSymbol (sym : Sym) (s : State) : Except Stop State :=
  match dmemWrite s s.symPtr sym with
  | .ok t => .ok { t with
      symPtr := s.symPtr + 1, symRemain := s.symRemain - 1, result := sym.setWidth 32 }
  | .error e => .error e

/-- The body of DSTEP with its commit (43_unpacker.md R203); nothing when SYM_REMAIN = 0. -/
def decodeSymbol (s : State) : Except Stop State :=
  if s.symRemain = 0 then .ok s
  else
    match traverseTree s with
    | .ok (sym, t) => emitSymbol sym t
    | .error e => .error e

/-! ## Error entry, the return from it, completion -/

/-- Error entry: ERR takes the code, everything else is as before the command (60_exceptions.md R237).
The state is the one at the start of the command, or of the failing symbol of DRUN. -/
def enterError (e : ErrCode) (s : State) : State := { s with err := e }

/-- The return from the error state, and the start of a new stream: what CLR does (40_control.md R134,
60_exceptions.md R246). -/
def clearStreams (s : State) : State :=
  { s with acc := 0, accN := 0, ubuf := 0, ubufN := 0, bitcnt := 0, err := .none, ovr := false }

/-- complete() (40_control.md R132). -/
def complete (s : State) : State := { s with pending := none, busy := false, done := true }

/-- End the work a command did on its shadow: commit it, or enter the error with the state before the
command (00_scope.md R19, 60_exceptions.md R237). -/
def settle (s : State) : Except Stop State → Result
  | .ok t => .next t
  | .error (.raise e) => .next (enterError e s)
  | .error (.fault f) => .fault f

/-- A command with an illegal operand raises ILLEGAL_CMD before any effect (30_encoding.md R111). -/
def whenLegal (ok : Bool) (s : State) (work : Except Stop State) : Result :=
  settle s (if ok then work else .error (.raise .illegalCmd))

/-- Apply a state change to a next state, and leave a stop as it is. -/
def onNext (f : State → State) : Result → Result
  | .next s => .next (f s)
  | .fault r => .fault r
  | .refused r => .refused r

end Sys2Proof.Machine
end

