-- ==== Sys2Proof/Machine/Control.lean ====
section
/-! DEFINITION. The control commands (40_control.md R133 to R136). -/

namespace Sys2Proof.Machine

/-- NOP does nothing (R133). -/
def execNop (s : State) : Result := .next s

/-- CLR clears the packer, the unpacker, the bit counter and the error state (R134). -/
def execClr (s : State) : Result := .next (clearStreams s)

/-- CTCLR empties the Code Table (R135). -/
def execCtclr (s : State) : Result := .next { s with ct := Vector.replicate 256 CodeEntry.empty }

/-- TNCLR empties the Tree Table (R136). -/
def execTnclr (s : State) : Result := .next { s with tn := Vector.replicate 511 0 }

end Sys2Proof.Machine
end

