-- ==== Sys2Proof/Machine/Packer.lean ====
section
/-! DEFINITION. The packer and code serializer commands (42_packer.md R181 to R183). -/

namespace Sys2Proof.Machine

/-- PUTBITS appends V[N-1] down to V[0], all or none (R181). -/
def execPutbits (n : BitVec 5) (v : BitVec 16) (s : State) : Result :=
  whenLegal (legalCount n) s (appendBits s (immediateBits n v))

/-- PUTSYM appends the code of SYM; SYM_NOT_IN_TABLE comes before any bit (R182). -/
def execPutsym (sym : Sym) (s : State) : Result :=
  settle s
    (if (codeEntry s sym).len = 0 then .error (.raise .symNotInTable)
     else appendBits s (codeBits (codeEntry s sym)))

/-- FLUSH writes the partial byte, if any bit is in it; BITCNT does not move (R183). -/
def execFlush (s : State) : Result :=
  settle s (if s.accN = 0 then .ok s else writeOut s s.acc)

end Sys2Proof.Machine
end

