-- ==== Sys2Proof/Machine/Tables.lean ====
section
/-! DEFINITION. The Code Table and Tree Table commands (41_tables.md R150 to R155). -/

namespace Sys2Proof.Machine

/-- Replace one Code Table entry. -/
def setCodeEntry (s : State) (sym : Sym) (e : CodeEntry) : State :=
  { s with ct := s.ct.set sym.toNat e }

/-- CT[SYM].LEN <- LEN (R150). -/
def execCtlen (sym : Sym) (len : BitVec 8) (s : State) : Result :=
  .next (setCodeEntry s sym { codeEntry s sym with len := len })

/-- CT[SYM].W[K] <- DATA (R151). -/
def execCtword (sym : Sym) (k : BitVec 3) (s : State) : Result :=
  .next (setCodeEntry s sym
    { codeEntry s sym with w := (codeEntry s sym).w.set k.toNat s.data })

/-- DATA <- zext_32(CT[SYM].LEN) (R152). -/
def execCtrdlen (sym : Sym) (s : State) : Result :=
  .next { s with data := (codeEntry s sym).len.setWidth 32 }

/-- DATA <- CT[SYM].W[K] (R153). -/
def execCtrdword (sym : Sym) (k : BitVec 3) (s : State) : Result :=
  .next { s with data := codeWord (codeEntry s sym) k }

/-- TN[IDX] <- DATA & 0xC3FFFFFF (R154); slot 511 does not exist and is illegal. -/
def writeSlot (s : State) (idx : Slot) : Except Stop State :=
  if h : idx.toNat < 511 then .ok { s with tn := s.tn.set idx.toNat (storedNode s.data) }
  else .error (.raise .illegalCmd)

/-- DATA <- TN[IDX] (R155); slot 511 does not exist and is illegal. -/
def readSlot (s : State) (idx : Slot) : Except Stop State :=
  if h : idx.toNat < 511 then .ok { s with data := s.tn[idx.toNat] }
  else .error (.raise .illegalCmd)

/-- TNW (R154). -/
def execTnw (idx : Slot) (s : State) : Result := settle s (writeSlot s idx)

/-- TNRD (R155). -/
def execTnrd (idx : Slot) (s : State) : Result := settle s (readSlot s idx)

end Sys2Proof.Machine
end

