-- ==== Sys2Proof/Machine/Unpacker.lean ====
section
/-! DEFINITION. The unpacker and tree traversal commands (43_unpacker.md R202 to R204). -/

namespace Sys2Proof.Machine

/-- N raw bits, right-aligned into RESULT (R202). -/
def readBits (n : Nat) (s : State) : Except Stop State :=
  match fetchBits n 0 s with
  | .ok (v, t) => .ok { t with result := v }
  | .error e => .error e

/-- GETBITS (R202). -/
def execGetbits (n : BitVec 5) (s : State) : Result :=
  whenLegal (legalCount n) s (readBits n.toNat s)

/-- DSTEP (R203). -/
def execDstep (s : State) : Result := settle s (decodeSymbol s)

/-- At most n symbols, each a sub-step of DRUN with its own commit; an error keeps the symbols before
it (R204, 60_exceptions.md R237). -/
def decodeRun : Nat → State → Result
  | 0, s => .next s
  | n + 1, s =>
    if s.symRemain = 0 then .next s
    else
      match decodeSymbol s with
      | .ok t => decodeRun n t
      | .error e => settle s (.error e)

/-- DRUN: SYM_REMAIN falls by one a symbol, so SYM_REMAIN turns are all there are (R204). -/
def execDrun (s : State) : Result := decodeRun s.symRemain.toNat s

end Sys2Proof.Machine
end

