-- ==== Sys2Proof/Machine/Dispatch.lean ====
section
/-! DEFINITION. The rule each command performs (30_encoding.md R109, 40_control.md R131). -/

namespace Sys2Proof.Machine

/-- "do the rule of OP" (40_control.md R131). The error gate, the decode check and complete() stand
around it in perform. -/
def exec (i : Instr) (s : State) : Host.Outcome State Fault Refusal :=
  match i with
  | .nop => Sys2Proof.Machine.execNop s
  | .clr => Sys2Proof.Machine.execClr s
  | .ctclr => Sys2Proof.Machine.execCtclr s
  | .tnclr => Sys2Proof.Machine.execTnclr s
  | .putbits n v => Sys2Proof.Machine.execPutbits n v s
  | .putsym sym => Sys2Proof.Machine.execPutsym sym s
  | .flush => Sys2Proof.Machine.execFlush s
  | .ctlen sym len => Sys2Proof.Machine.execCtlen sym len s
  | .ctword sym k => Sys2Proof.Machine.execCtword sym k s
  | .ctrdlen sym => Sys2Proof.Machine.execCtrdlen sym s
  | .ctrdword sym k => Sys2Proof.Machine.execCtrdword sym k s
  | .tnw idx => Sys2Proof.Machine.execTnw idx s
  | .tnrd idx => Sys2Proof.Machine.execTnrd idx s
  | .getbits n => Sys2Proof.Machine.execGetbits n s
  | .dstep => Sys2Proof.Machine.execDstep s
  | .drun => Sys2Proof.Machine.execDrun s

end Sys2Proof.Machine
end

