-- ==== Sys2Proof/Machine/HostPort.lean ====
section
/-! DEFINITION. What the host's accesses do: the register window (10_state.md R33 to R54) and the host
side of DMEM (20_memory.md R71, R83). -/

namespace Sys2Proof.Machine

/-- The register at a byte offset (10_state.md R34, R52); none at an offset that is not a multiple of
4 (R33). -/
def regAt (off : BitVec 8) : Option WindowReg :=
  if off.toNat % 4 = 0 then
    some (match off.toNat / 4 with
      | 0 => .id
      | 1 => .version
      | 2 => .ctrl
      | 3 => .status
      | 4 => .cmd
      | 5 => .data
      | 6 => .result
      | 7 => .outPtr
      | 8 => .inPtr
      | 9 => .inEnd
      | 10 => .symPtr
      | 11 => .symRemain
      | 12 => .root
      | 13 => .pacc
      | 14 => .uacc
      | 15 => .bitcntLo
      | 16 => .bitcntHi
      | _ => .reserved)
  else none

/-- The exact value a register reads (10_state.md R35 to R52). -/
def regValue (s : State) : WindowReg → Word
  | .id => 0x48425055
  | .version => 0x00010000
  | .ctrl => ctrlWord s
  | .status => statusWord s
  | .cmd => 0
  | .data => s.data
  | .result => s.result
  | .outPtr => s.outPtr
  | .inPtr => s.inPtr
  | .inEnd => s.inEnd
  | .symPtr => s.symPtr
  | .symRemain => s.symRemain
  | .root => rootWord s
  | .pacc => paccWord s
  | .uacc => uaccWord s
  | .bitcntLo => s.bitcnt.extractLsb' 0 32
  | .bitcntHi => s.bitcnt.extractLsb' 32 32
  | .reserved => 0

/-- The registers whose read is unspecified while BUSY = 1 (10_state.md R54). -/
def unspecifiedWhileBusy : WindowReg → Bool
  | .data => true
  | .result => true
  | .outPtr => true
  | .inPtr => true
  | .symPtr => true
  | .symRemain => true
  | .pacc => true
  | .uacc => true
  | .bitcntLo => true
  | .bitcntHi => true
  | .id => false
  | .version => false
  | .ctrl => false
  | .status => false
  | .cmd => false
  | .inEnd => false
  | .root => false
  | .reserved => false

/-- The bits of a register that are not reserved, for a drawn value (10_state.md R49, R50, R54). -/
def drawnBits : WindowReg → Word
  | .pacc => 0x7FF
  | .uacc => 0xFFF
  | .id => 0xFFFFFFFF
  | .version => 0xFFFFFFFF
  | .ctrl => 0x3
  | .status => 0x1FF
  | .cmd => 0
  | .data => 0xFFFFFFFF
  | .result => 0xFFFFFFFF
  | .outPtr => 0xFFFFFFFF
  | .inPtr => 0xFFFFFFFF
  | .inEnd => 0xFFFFFFFF
  | .symPtr => 0xFFFFFFFF
  | .symRemain => 0xFFFFFFFF
  | .root => 0x1FF
  | .bitcntLo => 0xFFFFFFFF
  | .bitcntHi => 0xFFFFFFFF
  | .reserved => 0

/-- A register read has no side effect on the HBPU (20_memory.md R79); its value goes to the model's
readData. While BUSY = 1 some registers read a free value (10_state.md R54, log 7). -/
def readReg (r : WindowReg) (s : State) : State :=
  if s.busy && unspecifiedWhileBusy r then
    { s with readData := Config.freeWord s.draws &&& drawnBits r, draws := s.draws + 1 }
  else { s with readData := regValue s r }

/-- A write of w to CMD: accepted when BUSY = 0, else dropped with OVR set (10_state.md R40). -/
def writeCmd (w : Word) (s : State) : State :=
  if s.busy then { s with ovr := true }
  else { s with pending := some w, busy := true, done := false }

/-- A write of w to STATUS clears DONE and OVR where w has a 1 (10_state.md R39). -/
def writeStatus (w : Word) (s : State) : State :=
  { s with done := s.done && !w.getLsbD 1, ovr := s.ovr && !w.getLsbD 8 }

/-- A write to a RW register other than CTRL: stored when BUSY = 0, else ignored with OVR set
(10_state.md R53). -/
def storeWhenIdle (s stored : State) : State := if s.busy then { s with ovr := true } else stored

/-- A host write of v to a register (10_state.md R34 to R53). -/
def writeReg (r : WindowReg) (v : Word) (s : State) : State :=
  match r with
  | .ctrl => { s with ctrl := v.extractLsb' 0 2 }
  | .status => writeStatus v s
  | .cmd => writeCmd v s
  | .data => storeWhenIdle s { s with data := v }
  | .outPtr => storeWhenIdle s { s with outPtr := v }
  | .inPtr => storeWhenIdle s { s with inPtr := v }
  | .inEnd => storeWhenIdle s { s with inEnd := v }
  | .symPtr => storeWhenIdle s { s with symPtr := v }
  | .symRemain => storeWhenIdle s { s with symRemain := v }
  | .root => storeWhenIdle s { s with root := v.extractLsb' 0 9 }
  | .id => s
  | .version => s
  | .result => s
  | .pacc => s
  | .uacc => s
  | .bitcntLo => s
  | .bitcntHi => s
  | .reserved => s

/-- A host DMEM access is made only while BUSY = 0 and at a populated byte (20_memory.md R83 (d), R71,
log 11). -/
def hostDmem (s : State) (a : Addr) (t : State) : Result :=
  if s.busy then .refused .dmemRace
  else if populated s a then .next t
  else .fault .hostAccessUnpopulated

/-- The byte a host read returns: a byte never written reads a free value (93_implementation_defined.md
item 2, log 6). -/
def hostMemRead (a : Addr) (s : State) : State :=
  match s.mem.read a.toNat with
  | some v => { s with readData := v.setWidth 32 }
  | none => { s with readData := (Config.freeByte s.draws).setWidth 32, draws := s.draws + 1 }

/-- One host action. -/
def hostMove (a : HostAction) (s : State) : Result :=
  match a with
  | .regWrite off v =>
    match regAt off with
    | some r => .next (writeReg r v s)
    | none => .refused .unsupportedRegisterAccess
  | .regRead off =>
    match regAt off with
    | some r => .next (readReg r s)
    | none => .refused .unsupportedRegisterAccess
  | .memWrite b v => hostDmem s b { s with mem := s.mem.write b.toNat v }
  | .memRead b => hostDmem s b (hostMemRead b s)

end Sys2Proof.Machine
end

