-- ==== Sys2Proof/Machine/Engine.lean ====
section
/-! DEFINITION. The engine's step (40_control.md R130 to R132), the hardware reset
(70_reset_and_hazards.md R260 to R263) and the choice of which agent moves. -/

namespace Sys2Proof.Machine

/-- The one word the error gate lets through: CLR (60_exceptions.md R238). -/
def clrWord : Word := 0x01000000

/-- The effect of a command word, before complete() (40_control.md R131): the error gate, the decode
check, the command's rule. -/
def effect (w : Word) (s : State) : Result :=
  if s.err = .none then
    match decode w with
    | .ok i => exec i s
    | .error _ => .next (enterError .illegalCmd s)
  else if w = clrWord then execClr s
  else .next s

/-- perform(w) (40_control.md R131). -/
def perform (w : Word) (s : State) : Result := onNext complete (effect w s)

/-- The engine's turn: it performs the pending command, or is idle (60_exceptions.md R254, log 3). -/
def engineMove (s : State) : Result :=
  match s.pending with
  | some w => perform w s
  | none => .next s

/-- The first n commits of a pending command: DRUN commits once a symbol, every other command once
(70_reset_and_hazards.md R262). A discarded or illegal command writes no DMEM. -/
def someCommits (n : Nat) (s : State) : Result :=
  match s.pending with
  | none => .next s
  | some w =>
    if s.err = .none ∧ n ≠ 0 then
      match decode w with
      | .error _ => .next s
      | .ok i => if i = .drun then decodeRun n s else exec i s
    else .next s

/-- Whether an address lies in the n bytes from p on, mod 2^32 (20_memory.md R81). -/
def within (p : Addr) (n : Nat) (a : Addr) : Bool := (a - p).toNat < n

/-- Whether the commits that lead from s to t wrote a byte: the packer writes from OUT_PTR on, the
traversal engine from SYM_PTR on (10_state.md R43, R46). -/
def writtenBetween (s t : State) (a : Addr) : Bool :=
  within s.outPtr (t.outPtr - s.outPtr).toNat a || within s.symPtr (t.symPtr - s.symPtr).toNat a

/-- DMEM after a reset that t's commits preceded: kept by a platform that keeps it; else every byte is
unwritten but those of the surviving commits (70_reset_and_hazards.md R262, R263, log 12). -/
def dmemAfterReset (s t : State) : Memory :=
  if s.cfg.dmemKeptAtReset then t.mem
  else t.mem.filter fun c => writtenBetween s t (BitVec.ofNat 32 c.1)

/-- A hardware reset (70_reset_and_hazards.md R261, R262): every register and table takes its reset
value, PENDING is discarded. The model's own fields are not the HBPU's and stay. -/
def hardwareReset (commits : Nat) (s : State) : Result :=
  onNext
    (fun t => { State.resetOf s.cfg (dmemAfterReset s t) with
      schedule := s.schedule, readData := s.readData, draws := s.draws })
    (someCommits commits s)

/-- One move (60_exceptions.md R242). -/
def move (m : Move) (s : State) : Result :=
  match m with
  | .engine => engineMove s
  | .host a => hostMove a s
  | .reset commits => hardwareReset commits s

/-- The next move of the schedule; the engine's when the schedule is empty (log 2). -/
def nextMove (s : State) : Move := s.schedule.headD .engine

/-- One step: the next move leaves the schedule and is made. -/
def takeMove (s : State) : Result := move (nextMove s) { s with schedule := s.schedule.tail }

/-- A state in which the engine performs w next: an accepted CMD write of w (40_control.md R130, log 4)
and the engine's turn. -/
def issued (w : Word) (s : State) : State :=
  { s with pending := some w, busy := true, done := false, schedule := .engine :: s.schedule }

/-- The command word of a table row's bits (log 24). -/
def fetchWord (nbits w : Nat) : Word := BitVec.ofNat 32 (w % 2 ^ nbits)

end Sys2Proof.Machine
end

