-- ==== Sys2Proof/Machine/Step.lean ====
section
/-! DEFINITION. One step of the HBPU with its host and platform. -/

namespace Sys2Proof.Machine

/-- One atomic move of one agent (40_control.md R131, 60_exceptions.md R242). -/
def step (s : State) : Host.Outcome State Fault Refusal := takeMove s

/-- The state in which the next step performs the given command (log 4). -/
def State.withFetchWord (s : State) (nbits w : Nat) : State := issued (fetchWord nbits w) s

end Sys2Proof.Machine
end

