-- ==== Sys2Proof/Machine/Pseudo.lean ====
section
/-! DEFINITION. Host operations as moves (30_encoding.md R115 to R120): a command line, a register
write, and the pseudo-instructions. -/

namespace Sys2Proof.Machine

/-- `WR REG, v` at a window offset (R116). -/
def wr (off : BitVec 8) (v : Word) : List Move := [.host (.regWrite off v)]

/-- `RD REG` at a window offset (R116). -/
def rd (off : BitVec 8) : List Move := [.host (.regRead off)]

/-- Wait until STATUS.BUSY = 0 (R115, R120): the engine takes the one step that ends a pending command, if
there is one, and the host's poll of STATUS observes it (log 30). -/
def waitIdle : List Move := .engine :: rd 0x0C

/-- A command line: wait until BUSY = 0, write the encoding to CMD, wait until BUSY = 0 again (R115,
R120). -/
def issue (i : Instr) : List Move := waitIdle ++ wr 0x10 (encode i) ++ waitIdle

/-- `MEM a: b0 b1 ...` (R116). -/
def memBytes : Addr → List Byte → List Move
  | _, [] => []
  | a, b :: bs => .host (.memWrite a b) :: memBytes (a + 1) bs

/-- The number whose binary digits are given, most significant first. -/
def bitsValue (bs : List Bool) : Nat := bs.foldl (fun n b => 2 * n + b.toNat) 0

/-- PUTCODE of the bits left, in pieces of 16 (R117). The first argument bounds the pieces. No bits left
is no piece; for a code of no bits at all, where R117 says nothing, this is DESIGN CHOICE (log 32). -/
def putcodePieces : Nat → List Bool → List Move
  | 0, _ => []
  | n + 1, bs =>
    if bs = [] then []
    else issue (.putbits (BitVec.ofNat 5 (bs.take 16).length) (BitVec.ofNat 16 (bitsValue (bs.take 16))))
      ++ putcodePieces n (bs.drop 16)

/-- PUTCODE "c0c1...ck-1" (R117); no move for k = 0, DESIGN CHOICE (log 32). -/
def putcode (bs : List Bool) : List Move := putcodePieces bs.length bs

/-- Word k of a code loaded by LOADCODE: wk[31-m] = c[32k+m], other bits 0 (R118). -/
def loadedWord (bs : List Bool) (k : Nat) : Word :=
  BitVec.ofNat 32 (bitsValue ((List.range 32).map fun m => bs.getD (32 * k + m) false))

/-- LOADCODE s, "c0...cL-1" (R118). -/
def loadcode (sym : Sym) (bs : List Bool) : List Move :=
  issue (.ctlen sym (BitVec.ofNat 8 bs.length)) ++
    (List.range ((bs.length + 31) / 32)).flatMap fun k =>
      wr 0x14 (loadedWord bs k) ++ issue (.ctword sym (BitVec.ofNat 3 k))

/-- The node word of a leaf (R119). -/
def leafNode (sym : Sym) : Word := 0xC0000000#32 ||| (sym.setWidth 32 <<< 18)

/-- The node word of an internal node (R119). -/
def internalNode (l r : Slot) : Word := 0x80000000#32 ||| (l.setWidth 32 <<< 9) ||| r.setWidth 32

/-- LOADLEAF i, s (R119). -/
def loadleaf (i : Slot) (sym : Sym) : List Move := wr 0x14 (leafNode sym) ++ issue (.tnw i)

/-- LOADNODE i, l, r (R119). -/
def loadnode (i l r : Slot) : List Move := wr 0x14 (internalNode l r) ++ issue (.tnw i)

end Sys2Proof.Machine
end

