-- ==== Sys2Proof/Safety.lean ====
section
/-! DEFINITION. The terms claims are stated in: the invariant of the machine, the bit stream the unpacker
reads, the bytes the packer writes, paths through the Tree Table, Huffman trees and the codes and slots
they give (host notions of 41_tables.md R172, R173, R176). -/

namespace Sys2Proof.Machine

/-! ## Turns -/

/-- The engine moves next and has a command to perform (40_control.md R131). -/
def EngineTurn (s : State) (w : Word) : Prop := nextMove s = .engine ∧ s.pending = some w

/-- The state in which the next move is made: that move has left the schedule (log 2). -/
def popped (s : State) : State := { s with schedule := s.schedule.tail }

/-- Performing a word raises ILLEGAL_CMD and changes nothing but STATUS (30_encoding.md R111,
60_exceptions.md R231, R237). -/
def RaisesIllegal (w : Word) (s : State) : Prop :=
  perform w s = .next { s with err := .illegalCmd, pending := none, busy := false, done := true }

/-! ## The invariant -/

/-- The bits of ACC below its valid ones are 0 (10_state.md R49). -/
def AccClean (s : State) : Prop := ∀ j, j < 8 - s.accN.val → s.acc.getLsbD j = false

/-- The bits of UBUF below its valid ones are 0 (10_state.md R50). -/
def UbufClean (s : State) : Prop := ∀ j, j < 8 - s.ubufN.val → s.ubuf.getLsbD j = false

/-- The reserved bits [29:26] of a node word are 0 (10_state.md R57). -/
def NodeReservedZero (nd : Word) : Prop := ∀ j, 26 ≤ j → j < 30 → nd.getLsbD j = false

/-- The reserved bits of every slot are 0 (10_state.md R57). -/
def TreeReservedZero (s : State) : Prop := ∀ nd ∈ s.tn, NodeReservedZero nd

/-- Every written byte lies below DMEM_SIZE (20_memory.md R71, R73). -/
def MemPopulated (s : State) : Prop := ∀ c ∈ s.mem, c.1 < s.cfg.dmemSize

/-- What holds in every state the machine reaches. -/
structure StateInv (s : State) : Prop where
  /-- DMEM keeps its canonical form. -/
  memWf : s.mem.wf = true
  /-- No byte is written where none exists. -/
  memPopulated : MemPopulated s
  /-- 10_state.md R49. -/
  accClean : AccClean s
  /-- 10_state.md R50. -/
  ubufClean : UbufClean s
  /-- 10_state.md R57. -/
  treeReservedZero : TreeReservedZero s
  /-- BUSY is 1 exactly while PENDING holds a command (10_state.md R38, R40; 40_control.md R132). -/
  busyPending : s.busy = s.pending.isSome
  /-- DONE is 0 while a command is pending (10_state.md R38, R40). -/
  doneIdle : s.busy = true → s.done = false

/-! ## Bytes and bits in DMEM -/

/-- Stream bit j of a byte is its bit 7 - j (20_memory.md R74). -/
def byteBit (v : Byte) (j : Nat) : Bool := v.getLsbD (7 - j)

/-- The n bytes from p on are populated. -/
def PopulatedFrom (s : State) (p : Addr) (n : Nat) : Prop :=
  ∀ k, k < n → populated s (p + BitVec.ofNat 32 k) = true

/-- DMEM reads the same in two states outside the n bytes from p on (mod 2^32). -/
def SameMemOutside (s t : State) (p : Addr) (n : Nat) : Prop :=
  ∀ a : Addr, within p n a = false → t.mem.read a.toNat = s.mem.read a.toNat

/-- The bytes from p on are the given ones. -/
def BytesAt (s : State) (p : Addr) (vs : List Byte) : Prop :=
  ∀ k, (h : k < vs.length) → s.mem.read (p + BitVec.ofNat 32 k).toNat = some vs[k]

/-- The n bytes from p on hold a bit sequence, most significant bit first: byte k holds bits 8k to
8k + 7, bits past the end being 0 (20_memory.md R74, 42_packer.md R184). -/
def HoldsBits (s : State) (p : Addr) (n : Nat) (bs : List Bool) : Prop :=
  ∀ k, k < n → ∃ v, s.mem.read (p + BitVec.ofNat 32 k).toNat = some v ∧
    ∀ j, j < 8 → byteBit v j = bs.getD (8 * k + j) false

/-- The bytes a packed stream takes: ceil(B/8) (42_packer.md R184). -/
def packedLength (bs : List Bool) : Nat := (bs.length + 7) / 8

/-- The bits in ACC, in stream order (10_state.md R49). -/
def packedTail (s : State) : List Bool := (List.range s.accN.val).map (byteBit s.acc)

/-- t is s after the packer appended a bit sequence: whole bytes are in DMEM from OUT_PTR on, the rest
is in ACC, BITCNT counts the bits, all else is unchanged (42_packer.md R180). -/
def Appended (s t : State) (bs : List Bool) : Prop :=
  HoldsBits t s.outPtr ((packedTail s ++ bs).length / 8) (packedTail s ++ bs) ∧
  SameMemOutside s t s.outPtr ((packedTail s ++ bs).length / 8) ∧
  packedTail t = (packedTail s ++ bs).drop (8 * ((packedTail s ++ bs).length / 8)) ∧
  AccClean t ∧
  t.outPtr = s.outPtr + BitVec.ofNat 32 ((packedTail s ++ bs).length / 8) ∧
  t.bitcnt = s.bitcnt + BitVec.ofNat 64 bs.length ∧
  t = { s with acc := t.acc, accN := t.accN, outPtr := t.outPtr, bitcnt := t.bitcnt, mem := t.mem }

/-! ## The unpacker's stream -/

/-- The byte at an address as an engine read returns it, if it returns one. -/
def engineByte (s : State) (a : Addr) : Option Byte :=
  if populated s a then s.mem.read a.toNat else none

/-- Bit j of what the unpacker has still to read: first UBUF's bits, then those of the input window
(43_unpacker.md R200). None past the window, or at a byte the engine cannot read. -/
def streamBit (s : State) (j : Nat) : Option Bool :=
  if j < s.ubufN.val then some (byteBit s.ubuf j)
  else if j < bitsLeft s then
    (engineByte s (s.inPtr + BitVec.ofNat 32 ((j - s.ubufN.val) / 8))).map
      fun v => byteBit v ((j - s.ubufN.val) % 8)
  else none

/-- The unpacker's stream begins with the given bits. -/
def StreamBegins (s : State) (bs : List Bool) : Prop :=
  ∀ j, (h : j < bs.length) → streamBit s j = some bs[j]

/-- t is s after n bits were taken from the stream: the rest of the stream is what it was, and only the
unpacker's registers moved (43_unpacker.md R200). DMEM is that of s, whatever t wrote elsewhere. -/
def Consumed (s t : State) (n : Nat) : Prop :=
  bitsLeft t + n = bitsLeft s ∧
  ∀ j, streamBit { t with mem := s.mem } j = streamBit s (j + n)

/-- n successive calls of fetch_bit (43_unpacker.md R205). -/
def fetchMany : Nat → State → Except Stop (List Bool × State)
  | 0, s => .ok ([], s)
  | n + 1, s =>
    match fetchBit s with
    | .error e => .error e
    | .ok (b, t) =>
      match fetchMany n t with
      | .error e => .error e
      | .ok (bs, u) => .ok (b :: bs, u)

/-! ## Commands in a row -/

/-- Commands performed one after the other. -/
def execAll : List Instr → State → Result
  | [], s => .next s
  | i :: is, s =>
    match exec i s with
    | .next t => execAll is t
    | .fault r => .fault r
    | .refused r => .refused r

/-- A packer command, PUTBITS or PUTSYM, and the bits it appends (42_packer.md R181, R182). -/
def Appends (s : State) (i : Instr) (bs : List Bool) : Prop :=
  (∃ n v, i = .putbits n v ∧ bs = immediateBits n v) ∨
  (∃ sym, i = .putsym sym ∧ bs = codeBits (codeEntry s sym))

/-- Moves made one after the other. -/
def runMoves : List Move → State → Result
  | [], s => .next s
  | m :: ms, s =>
    match move m s with
    | .next t => runMoves ms t
    | .fault r => .fault r
    | .refused r => .refused r

/-- DMEM after a hardware reset of s that the commits leading to u preceded: all of u's on a platform that
keeps DMEM; else the bytes the packer and the traversal engine wrote on the way, every other byte unwritten
(70_reset_and_hazards.md R262, R263, log 12). -/
def SurvivingBytes (s u t : State) : Prop :=
  (s.cfg.dmemKeptAtReset = true → t.mem = u.mem) ∧
  (s.cfg.dmemKeptAtReset = false → ∀ a : Addr, t.mem.read a.toNat =
    if within s.outPtr (u.outPtr - s.outPtr).toNat a || within s.symPtr (u.symPtr - s.symPtr).toNat a
    then u.mem.read a.toNat else none)

/-! ## Paths through the Tree Table -/

/-- The slot a bit sequence leads to from slot i, every slot before it holding an internal node
(43_unpacker.md R203). -/
def slotAfter (s : State) : Slot → List Bool → Option Slot
  | i, [] => some i
  | i, b :: bs =>
    match loadNode s i with
    | .error _ => none
    | .ok nd => if nodeLeaf nd then none else slotAfter s (nodeChild nd b) bs

/-! ## Huffman trees (host notions) -/

/-- A tree whose leaves hold symbols (10_state.md R58, 41_tables.md R171). -/
inductive HuffTree where
  | leaf (sym : Sym)
  | node (left right : HuffTree)
deriving DecidableEq, Repr

/-- The symbol of the leaf a path leads to: '0' = left, '1' = right (41_tables.md R172). -/
def HuffTree.leafAt : HuffTree → List Bool → Option Sym
  | .leaf sym, [] => some sym
  | .leaf _, _ :: _ => none
  | .node _ _, [] => none
  | .node l r, b :: bs => if b then r.leafAt bs else l.leafAt bs

/-- A symbol's code: the path to its leaf (41_tables.md R172), "0" for a lone leaf (R173). -/
def HuffTree.hasCode : HuffTree → Sym → List Bool → Prop
  | .leaf y, sym, code => y = sym ∧ code = [false]
  | .node l r, sym, code => (HuffTree.node l r).leafAt code = some sym

/-- A bit sequence ends inside the tree, before any leaf. -/
def HuffTree.endsInside : HuffTree → List Bool → Bool
  | .leaf _, _ => false
  | .node _ _, [] => true
  | .node l r, b :: bs => if b then r.endsInside bs else l.endsInside bs

/-- Bits that begin no whole code: none at all under a lone leaf, else a path that ends inside. -/
def HuffTree.undecided : HuffTree → List Bool → Prop
  | .leaf _, bs => bs = []
  | .node l r, bs => (HuffTree.node l r).endsInside bs = true

/-- A tree stands in TN with its root in slot i (41_tables.md R176). -/
def Placed (s : State) : HuffTree → Slot → Prop
  | .leaf sym, i => ∃ nd, loadNode s i = .ok nd ∧ nodeLeaf nd = true ∧ nodeSym nd = sym
  | .node l r, i => ∃ nd, loadNode s i = .ok nd ∧ nodeLeaf nd = false ∧
      Placed s l (nodeLeft nd) ∧ Placed s r (nodeRight nd)

/-- CT holds the codes of a tree (41_tables.md R172, R173): every symbol with a code has the tree's. -/
def CodesOf (s : State) (T : HuffTree) : Prop :=
  ∀ sym, (codeEntry s sym).len ≠ 0 → T.hasCode sym (codeBits (codeEntry s sym))

/-- The symbols of a text and their codes under a tree, pairwise. -/
def TextCodes (T : HuffTree) : List Sym → List (List Bool) → Prop
  | [], [] => True
  | sym :: text, code :: codes => T.hasCode sym code ∧ TextCodes T text codes
  | [], _ :: _ => False
  | _ :: _, [] => False

/-- No byte of the n bytes from p on lies in the input window. -/
def OutsideWindow (s : State) (p : Addr) (n : Nat) : Prop :=
  ∀ k, k < n → within s.inPtr (s.inEnd - s.inPtr).toNat (p + BitVec.ofNat 32 k) = false

end Sys2Proof.Machine
end

