-- ==== Sys2Proof/Certificates/Slice0/Obligations.lean ====
section
/-! DEFINITION. The statements for the provers, one def each, from the numbered rules of spec/. -/

open Sys2Proof Sys2Proof.Machine

/-! ## Encoding (30_encoding.md) -/

/-- Words written out bit by bit from the formats R101 to R107 decode to their commands. -/
def Obligations.CommandWordsDecode : Prop :=
  decode 0x00000000#32 = .ok .nop ∧ decode 0x01000000#32 = .ok .clr ∧
  decode 0x100A0111#32 = .ok (.putbits 10 0x111) ∧ decode 0x11000061#32 = .ok (.putsym 0x61) ∧
  decode 0x20000261#32 = .ok (.ctlen 0x61 2) ∧ decode 0x23000762#32 = .ok (.ctrdword 0x62 7) ∧
  decode 0x280001FE#32 = .ok (.tnw 510) ∧ decode 0x3000000A#32 = .ok (.getbits 10) ∧
  decode 0x32000000#32 = .ok .drun

/-- Decoding the word of a well-formed command gives the command back, every operand at every value its
field admits (R101 to R109). -/
def Obligations.DecodeUndoesEncode : Prop :=
  ∀ i : Instr, i.wellFormed = true → decode (encode i) = .ok i

/-- A word that decodes is the word of its command, which is well-formed: no bit is dropped and no two
words share a command (R109, R111). -/
def Obligations.EncodeUndoesDecode : Prop :=
  ∀ (w : Word) (i : Instr), decode w = .ok i → i.wellFormed = true ∧ encode i = w

/-- The opcode map (R109) with the operand fields (R108): each row's words decode to its command with
the operands read at their places, and a word that decodes is a word of one of the rows. -/
def Obligations.OpcodeMapDecodes : Prop :=
  (∀ w : Word, w = 0x00000000#32 → decode w = .ok .nop) ∧
  (∀ w : Word, w = 0x01000000#32 → decode w = .ok .clr) ∧
  (∀ w : Word, w = 0x02000000#32 → decode w = .ok .ctclr) ∧
  (∀ w : Word, w = 0x03000000#32 → decode w = .ok .tnclr) ∧
  (∀ w : Word, w &&& 0xFFE00000#32 = 0x10000000#32 → 1 ≤ (w.extractLsb' 16 5).toNat →
    (w.extractLsb' 16 5).toNat ≤ 16 →
    decode w = .ok (.putbits (w.extractLsb' 16 5) (w.extractLsb' 0 16))) ∧
  (∀ w : Word, w &&& 0xFFFFFF00#32 = 0x11000000#32 → decode w = .ok (.putsym (w.extractLsb' 0 8))) ∧
  (∀ w : Word, w = 0x12000000#32 → decode w = .ok .flush) ∧
  (∀ w : Word, w &&& 0xFFFF0000#32 = 0x20000000#32 →
    decode w = .ok (.ctlen (w.extractLsb' 0 8) (w.extractLsb' 8 8))) ∧
  (∀ w : Word, w &&& 0xFFFFF800#32 = 0x21000000#32 →
    decode w = .ok (.ctword (w.extractLsb' 0 8) (w.extractLsb' 8 3))) ∧
  (∀ w : Word, w &&& 0xFFFFFF00#32 = 0x22000000#32 → decode w = .ok (.ctrdlen (w.extractLsb' 0 8))) ∧
  (∀ w : Word, w &&& 0xFFFFF800#32 = 0x23000000#32 →
    decode w = .ok (.ctrdword (w.extractLsb' 0 8) (w.extractLsb' 8 3))) ∧
  (∀ w : Word, w &&& 0xFFFFFE00#32 = 0x28000000#32 → (w.extractLsb' 0 9).toNat ≤ 510 →
    decode w = .ok (.tnw (w.extractLsb' 0 9))) ∧
  (∀ w : Word, w &&& 0xFFFFFE00#32 = 0x29000000#32 → (w.extractLsb' 0 9).toNat ≤ 510 →
    decode w = .ok (.tnrd (w.extractLsb' 0 9))) ∧
  (∀ w : Word, w &&& 0xFFFFFFE0#32 = 0x30000000#32 → 1 ≤ (w.extractLsb' 0 5).toNat →
    (w.extractLsb' 0 5).toNat ≤ 16 → decode w = .ok (.getbits (w.extractLsb' 0 5))) ∧
  (∀ w : Word, w = 0x31000000#32 → decode w = .ok .dstep) ∧
  (∀ w : Word, w = 0x32000000#32 → decode w = .ok .drun) ∧
  (∀ (w : Word) (i : Instr), decode w = .ok i →
    ∃ row ∈ [(0x00000000#32, 0xFFFFFFFF#32), (0x01000000#32, 0xFFFFFFFF#32),
      (0x02000000#32, 0xFFFFFFFF#32), (0x03000000#32, 0xFFFFFFFF#32), (0x10000000#32, 0xFFE00000#32),
      (0x11000000#32, 0xFFFFFF00#32), (0x12000000#32, 0xFFFFFFFF#32), (0x20000000#32, 0xFFFF0000#32),
      (0x21000000#32, 0xFFFFF800#32), (0x22000000#32, 0xFFFFFF00#32), (0x23000000#32, 0xFFFFF800#32),
      (0x28000000#32, 0xFFFFFE00#32), (0x29000000#32, 0xFFFFFE00#32), (0x30000000#32, 0xFFFFFFE0#32),
      (0x31000000#32, 0xFFFFFFFF#32), (0x32000000#32, 0xFFFFFFFF#32)], w &&& row.2 = row.1)

/-- R110: a command whose opcode is reserved raises ILLEGAL_CMD. -/
def Obligations.ReservedOpcodeRaisesIllegal : Prop :=
  ∀ (w : Word) (s : State), s.err = .none →
    ((0x04 ≤ (w.extractLsb' 24 8).toNat ∧ (w.extractLsb' 24 8).toNat ≤ 0x0F) ∨
     (0x13 ≤ (w.extractLsb' 24 8).toNat ∧ (w.extractLsb' 24 8).toNat ≤ 0x1F) ∨
     (0x24 ≤ (w.extractLsb' 24 8).toNat ∧ (w.extractLsb' 24 8).toNat ≤ 0x27) ∨
     (0x2A ≤ (w.extractLsb' 24 8).toNat ∧ (w.extractLsb' 24 8).toNat ≤ 0x2F) ∨
     (0x33 ≤ (w.extractLsb' 24 8).toNat)) → RaisesIllegal w s

/-- R111: a listed opcode with a reserved bit set, an illegal N or IDX = 511 raises ILLEGAL_CMD, and
nothing but STATUS changes. The lists give each opcode's reserved bits. -/
def Obligations.IllegalFieldRaisesIllegal : Prop :=
  ∀ (w : Word) (s : State), s.err = .none →
    ((∃ row ∈ [(0x00#8, 0x00FFFFFF#32), (0x01#8, 0x00FFFFFF#32), (0x02#8, 0x00FFFFFF#32),
        (0x03#8, 0x00FFFFFF#32), (0x10#8, 0x00E00000#32), (0x11#8, 0x00FFFF00#32),
        (0x12#8, 0x00FFFFFF#32), (0x20#8, 0x00FF0000#32), (0x21#8, 0x00FFF800#32),
        (0x22#8, 0x00FFFF00#32), (0x23#8, 0x00FFF800#32), (0x28#8, 0x00FFFE00#32),
        (0x29#8, 0x00FFFE00#32), (0x30#8, 0x00FFFFE0#32), (0x31#8, 0x00FFFFFF#32),
        (0x32#8, 0x00FFFFFF#32)], w.extractLsb' 24 8 = row.1 ∧ w &&& row.2 ≠ 0) ∨
     (w.extractLsb' 24 8 = 0x10#8 ∧
       ((w.extractLsb' 16 5).toNat = 0 ∨ 16 < (w.extractLsb' 16 5).toNat)) ∨
     (w.extractLsb' 24 8 = 0x30#8 ∧
       ((w.extractLsb' 0 5).toNat = 0 ∨ 16 < (w.extractLsb' 0 5).toNat)) ∨
     ((w.extractLsb' 24 8 = 0x28#8 ∨ w.extractLsb' 24 8 = 0x29#8) ∧ w.extractLsb' 0 9 = 511#9)) →
    RaisesIllegal w s

/-! ## The command cycle (40_control.md, 60_exceptions.md) -/

/-- R131: in the engine's turn, with ERR = 0, a pending word that decodes is performed by its command's
rule, and completion is added around it. With nothing pending the engine changes nothing: the model's form
of "takes no step" (R254, log 3). -/
def Obligations.StepPerformsDecodedCommand : Prop :=
  (∀ (s : State) (w : Word) (i : Instr), EngineTurn s w → s.err = .none → decode w = .ok i →
    (∀ t, exec i (popped s) = .next t →
      step s = .next { t with pending := none, busy := false, done := true }) ∧
    (∀ f, exec i (popped s) = .fault f → step s = .fault f)) ∧
  (∀ s : State, nextMove s = .engine → s.pending = none → step s = .next (popped s))

/-- R238: while ERR is not 0 the engine discards every word but CLR, which it performs. -/
def Obligations.ErrorGateDiscards : Prop :=
  ∀ (s : State) (w : Word), EngineTurn s w → s.err ≠ .none →
    (w ≠ 0x01000000#32 →
      step s = .next { popped s with pending := none, busy := false, done := true }) ∧
    (w = 0x01000000#32 → ∃ t, exec .clr (popped s) = .next t ∧
      step s = .next { t with pending := none, busy := false, done := true })

/-- R132: however a command ends, PENDING is empty, BUSY 0 and DONE 1, and the interrupt output follows
from them. -/
def Obligations.CompletionIdlesEngine : Prop :=
  ∀ (s t : State) (w : Word), EngineTurn s w → step s = .next t →
    t.pending = none ∧ t.busy = false ∧ t.done = true ∧
    irq t = ((ctrlWord t).getLsbD 0 || ((ctrlWord t).getLsbD 1 && (statusWord t).getLsbD 2))

/-- R40: a CMD write is accepted while BUSY = 0, the engine then performing it, and dropped with OVR set
while BUSY = 1; CMD reads 0. -/
def Obligations.CmdWriteIssuesOrOverruns : Prop :=
  (∀ (s : State) (w : Word), nextMove s = .host (.regWrite 0x10 w) → s.busy = false →
    ∃ t, step s = .next t ∧ t = { popped s with pending := some w, busy := true, done := false } ∧
      (nextMove t = .engine → step t = perform w (popped t))) ∧
  (∀ (s : State) (w : Word), nextMove s = .host (.regWrite 0x10 w) → s.busy = true →
    step s = .next { popped s with ovr := true }) ∧
  (∀ s : State, nextMove s = .host (.regRead 0x10) → step s = .next { popped s with readData := 0 })

/-! ## Control commands -/

/-- R133: NOP does nothing; its word; its illegal words; its discard. -/
def Obligations.NopDoesNothing : Prop :=
  encode .nop = 0x00000000#32 ∧
  (∀ s, exec .nop s = .next s) ∧
  (∀ s : State, perform 0x00000000#32 s =
    .next { s with pending := none, busy := false, done := true }) ∧
  (∀ (w : Word) (s : State), s.err = .none → opcodeOf w = 0x00#8 → w.extractLsb' 0 24 ≠ 0 →
    RaisesIllegal w s)

/-- R134: what CLR clears and what it leaves; its word, performed whatever ERR is; its malformed words; no
other word is performed while ERR is not 0. -/
def Obligations.ClrStartsNewStream : Prop :=
  encode .clr = 0x01000000#32 ∧
  (∀ s, ∃ t, exec .clr s = .next t ∧ t.acc = 0 ∧ t.accN = 0 ∧ t.ubuf = 0 ∧ t.ubufN = 0 ∧
    t.bitcnt = 0 ∧ t.err = .none ∧ t.ovr = false ∧
    t = { s with acc := t.acc, accN := t.accN, ubuf := t.ubuf, ubufN := t.ubufN,
                 bitcnt := t.bitcnt, err := t.err, ovr := t.ovr }) ∧
  (∀ s t : State, exec .clr s = .next t →
    perform 0x01000000#32 s = .next { t with pending := none, busy := false, done := true }) ∧
  (∀ (w : Word) (s : State), s.err = .none → opcodeOf w = 0x01#8 → w.extractLsb' 0 24 ≠ 0 →
    RaisesIllegal w s) ∧
  (∀ (w : Word) (s : State), s.err ≠ .none → w ≠ 0x01000000#32 →
    perform w s = .next { s with pending := none, busy := false, done := true })

/-- R135: CTCLR empties the Code Table, after which every PUTSYM raises SYM_NOT_IN_TABLE until a CTLEN with
LEN ≠ 0: no other command gives a symbol a length. -/
def Obligations.CtclrEmptiesCodeTable : Prop :=
  encode .ctclr = 0x02000000#32 ∧
  (∀ s, ∃ t, exec .ctclr s = .next t ∧
    (∀ sym, (codeEntry t sym).len = 0 ∧ ∀ k, codeWord (codeEntry t sym) k = 0) ∧
    t = { s with ct := t.ct }) ∧
  (∀ (s : State) (sym : Sym), (codeEntry s sym).len = 0 →
    exec (.putsym sym) s = .next { s with err := .symNotInTable }) ∧
  (∀ (i : Instr) (s t : State), exec i s = .next t → (∀ sym, (codeEntry s sym).len = 0) →
    (∀ sym len, i = .ctlen sym len → len = 0) → ∀ sym, (codeEntry t sym).len = 0) ∧
  (∀ (w : Word) (s : State), s.err = .none → opcodeOf w = 0x02#8 → w.extractLsb' 0 24 ≠ 0 →
    RaisesIllegal w s)

/-- R136: TNCLR empties the Tree Table, ROOT unchanged, after which a DSTEP with symbols left raises
BAD_TREE. -/
def Obligations.TnclrEmptiesTreeTable : Prop :=
  encode .tnclr = 0x03000000#32 ∧
  (∀ s, ∃ t, exec .tnclr s = .next t ∧ (∀ i, i < 511 → t.tn[i]? = some 0) ∧
    t = { s with tn := t.tn }) ∧
  (∀ s : State, (∀ i, i < 511 → s.tn[i]? = some 0) → s.symRemain ≠ 0 →
    exec .dstep s = .next { s with err := .badTree }) ∧
  (∀ (w : Word) (s : State), s.err = .none → opcodeOf w = 0x03#8 → w.extractLsb' 0 24 ≠ 0 →
    RaisesIllegal w s)

/-! ## Table commands (41_tables.md) -/

/-- R150: CTLEN sets one length and nothing else; LEN = 0 removes the symbol. -/
def Obligations.CtlenSetsLength : Prop :=
  (∀ (sym : Sym) (len : BitVec 8),
    encode (.ctlen sym len) = 0x20000000#32 ||| (len.setWidth 32 <<< 8) ||| sym.setWidth 32) ∧
  (∀ (sym : Sym) (len : BitVec 8) (s : State), ∃ t, exec (.ctlen sym len) s = .next t ∧
    (codeEntry t sym).len = len ∧ (codeEntry t sym).w = (codeEntry s sym).w ∧
    (∀ y, y ≠ sym → codeEntry t y = codeEntry s y) ∧ t = { s with ct := t.ct } ∧
    (len = 0 → exec (.putsym sym) t = .next { t with err := .symNotInTable })) ∧
  (∀ (w : Word) (s : State), s.err = .none → opcodeOf w = 0x20#8 → w.extractLsb' 16 8 ≠ 0 →
    RaisesIllegal w s)

/-- R151: CTWORD writes DATA to one code word and nothing else; bits at code positions from LEN on make no
difference to the code. -/
def Obligations.CtwordWritesCodeWord : Prop :=
  (∀ (sym : Sym) (k : BitVec 3),
    encode (.ctword sym k) = 0x21000000#32 ||| (k.setWidth 32 <<< 8) ||| sym.setWidth 32) ∧
  (∀ (sym : Sym) (k : BitVec 3) (s : State), ∃ t, exec (.ctword sym k) s = .next t ∧
    (codeEntry t sym).len = (codeEntry s sym).len ∧
    codeWord (codeEntry t sym) k = s.data ∧
    (∀ m, m ≠ k → codeWord (codeEntry t sym) m = codeWord (codeEntry s sym) m) ∧
    (∀ y, y ≠ sym → codeEntry t y = codeEntry s y) ∧ t = { s with ct := t.ct } ∧
    ((∀ j, j < (codeEntry s sym).len.toNat → j / 32 = k.toNat →
        s.data.getLsbD (31 - j % 32) = (codeWord (codeEntry s sym) k).getLsbD (31 - j % 32)) →
      codeBits (codeEntry t sym) = codeBits (codeEntry s sym))) ∧
  (∀ (w : Word) (s : State), s.err = .none → opcodeOf w = 0x21#8 → w.extractLsb' 11 13 ≠ 0 →
    RaisesIllegal w s)

/-- R152: CTRDLEN reads the zero-extended length into DATA. -/
def Obligations.CtrdlenReadsLength : Prop :=
  (∀ sym : Sym, encode (.ctrdlen sym) = 0x22000000#32 ||| sym.setWidth 32) ∧
  (∀ (sym : Sym) (s : State), ∃ t, exec (.ctrdlen sym) s = .next t ∧
    t.data.toNat = (codeEntry s sym).len.toNat ∧ t = { s with data := t.data }) ∧
  (∀ sym : Sym, ∃ t, exec (.ctrdlen sym) State.reset = .next t ∧ t.data = 0) ∧
  (∀ (w : Word) (s : State), s.err = .none → opcodeOf w = 0x22#8 → w.extractLsb' 8 16 ≠ 0 →
    RaisesIllegal w s)

/-- R153: CTRDWORD reads a code word into DATA as it was written. -/
def Obligations.CtrdwordReadsCodeWord : Prop :=
  (∀ (sym : Sym) (k : BitVec 3),
    encode (.ctrdword sym k) = 0x23000000#32 ||| (k.setWidth 32 <<< 8) ||| sym.setWidth 32) ∧
  (∀ (sym : Sym) (k : BitVec 3) (s : State), ∃ t, exec (.ctrdword sym k) s = .next t ∧
    t.data = codeWord (codeEntry s sym) k ∧ t = { s with data := t.data }) ∧
  (∀ (sym : Sym) (k : BitVec 3) (s t : State), exec (.ctword sym k) s = .next t →
    ∀ d, exec (.ctrdword sym k) { t with data := d } = .next t) ∧
  (∀ (w : Word) (s : State), s.err = .none → opcodeOf w = 0x23#8 → w.extractLsb' 11 13 ≠ 0 →
    RaisesIllegal w s)

/-- R154: TNW stores DATA with bits [29:26] zero in one slot, whatever it is; with VALID = 0 the slot is
empty; IDX = 511 is illegal. -/
def Obligations.TnwWritesSlot : Prop :=
  (∀ idx : Slot, encode (.tnw idx) = 0x28000000#32 ||| idx.setWidth 32) ∧
  (∀ (idx : Slot) (s : State), idx ≠ 511 → ∃ t, exec (.tnw idx) s = .next t ∧
    t.tn[idx.toNat]? = some (s.data &&& 0xC3FFFFFF#32) ∧
    (∀ j, j ≠ idx.toNat → t.tn[j]? = s.tn[j]?) ∧ t = { s with tn := t.tn } ∧
    (s.data.getLsbD 31 = false → loadNode t idx = .error (.raise .badTree)) ∧
    (s.data.getLsbD 31 = true → loadNode t idx = .ok (s.data &&& 0xC3FFFFFF#32))) ∧
  (∀ s : State, exec (.tnw 511) s = .next { s with err := .illegalCmd }) ∧
  (∀ (w : Word) (s : State), s.err = .none → opcodeOf w = 0x28#8 →
    (idxOf w = 511 ∨ w.extractLsb' 9 15 ≠ 0) → RaisesIllegal w s)

/-- R155: TNRD reads one slot into DATA; where the reserved bits of the table are 0 (an invariant) it
reads them as 0; what TNW stored reads back. -/
def Obligations.TnrdReadsSlot : Prop :=
  (∀ idx : Slot, encode (.tnrd idx) = 0x29000000#32 ||| idx.setWidth 32) ∧
  (∀ (idx : Slot) (s : State), idx ≠ 511 → ∃ t, exec (.tnrd idx) s = .next t ∧
    s.tn[idx.toNat]? = some t.data ∧ t = { s with data := t.data } ∧
    (TreeReservedZero s → ∀ j, 26 ≤ j → j < 30 → t.data.getLsbD j = false)) ∧
  (∀ (idx : Slot) (s t : State) (d : Word), idx ≠ 511 → exec (.tnw idx) s = .next t →
    ∃ u, exec (.tnrd idx) { t with data := d } = .next u ∧ u.data = s.data &&& 0xC3FFFFFF#32) ∧
  (∀ s : State, exec (.tnrd 511) s = .next { s with err := .illegalCmd }) ∧
  (∀ (w : Word) (s : State), s.err = .none → opcodeOf w = 0x29#8 →
    (idxOf w = 511 ∨ w.extractLsb' 9 15 ≠ 0) → RaisesIllegal w s)

/-! ## Packer (42_packer.md) -/

/-- R181 where it completes: with the bytes it fills populated, PUTBITS appends V[N-1] down to V[0]; the
bytes written, the pointer, ACC_N and BITCNT; nothing else changes. V[15:N] are ignored (R112). -/
def Obligations.PutbitsAppendsImmediate : Prop :=
  ∀ (s : State) (n : BitVec 5) (v : BitVec 16), legalCount n = true → AccClean s →
    PopulatedFrom s s.outPtr ((s.accN.val + n.toNat) / 8) →
    (∀ v' : BitVec 16, (∀ j, j < n.toNat → v.getLsbD j = v'.getLsbD j) →
      exec (.putbits n v') s = exec (.putbits n v) s) ∧
    ∃ t, exec (.putbits n v) s = .next t ∧
      (immediateBits n v).length = n.toNat ∧
      (∀ j, j < n.toNat → (immediateBits n v)[j]? = some (v.getLsbD (n.toNat - 1 - j))) ∧
      Appended s t (immediateBits n v) ∧
      t.outPtr = s.outPtr + BitVec.ofNat 32 ((s.accN.val + n.toNat) / 8) ∧
      t.accN.val = (s.accN.val + n.toNat) % 8

/-- R182 where it completes: with a code and the bytes it fills populated, PUTSYM appends code bits 0 to
LEN-1 (10_state.md R56); nothing else changes. Without a code it raises SYM_NOT_IN_TABLE, with no other
effect (R232). -/
def Obligations.PutsymAppendsCode : Prop :=
  (∀ (s : State) (sym : Sym), (codeEntry s sym).len = 0 →
    exec (.putsym sym) s = .next { s with err := .symNotInTable }) ∧
  ∀ (s : State) (sym : Sym), (codeEntry s sym).len ≠ 0 → AccClean s →
    PopulatedFrom s s.outPtr ((s.accN.val + (codeEntry s sym).len.toNat) / 8) →
    ∃ t, exec (.putsym sym) s = .next t ∧
      (codeBits (codeEntry s sym)).length = (codeEntry s sym).len.toNat ∧
      (∀ j, j < (codeEntry s sym).len.toNat → (codeBits (codeEntry s sym))[j]? =
        some ((codeWord (codeEntry s sym) (BitVec.ofNat 3 (j / 32))).getLsbD (31 - j % 32))) ∧
      Appended s t (codeBits (codeEntry s sym)) ∧
      t.accN.val = (s.accN.val + (codeEntry s sym).len.toNat) % 8

/-- R181, R182, R236: a byte to be filled at an unpopulated address raises BUS_ERROR, and the command has
no effect at all, not even on the bytes it completed before. -/
def Obligations.PackerBusErrorIsAtomic : Prop :=
  (∀ (s : State) (n : BitVec 5) (v : BitVec 16), legalCount n = true →
    ¬ PopulatedFrom s s.outPtr ((s.accN.val + n.toNat) / 8) →
    exec (.putbits n v) s = .next { s with err := .busError }) ∧
  (∀ (s : State) (sym : Sym), (codeEntry s sym).len ≠ 0 →
    ¬ PopulatedFrom s s.outPtr ((s.accN.val + (codeEntry s sym).len.toNat) / 8) →
    exec (.putsym sym) s = .next { s with err := .busError })

/-- R183: FLUSH writes the partial byte at OUT_PTR, its padding bits 0, or nothing when there is none;
BITCNT does not move; a second FLUSH writes nothing; its errors. -/
def Obligations.FlushWritesPartialByte : Prop :=
  encode .flush = 0x12000000#32 ∧
  (∀ s : State, s.accN = 0 → exec .flush s = .next s) ∧
  (∀ s : State, s.accN ≠ 0 → populated s s.outPtr = true → ∃ t, exec .flush s = .next t ∧
    t.mem.read s.outPtr.toNat = some s.acc ∧ SameMemOutside s t s.outPtr 1 ∧
    t.outPtr = s.outPtr + 1 ∧ t.acc = 0 ∧ t.accN = 0 ∧
    t = { s with mem := t.mem, outPtr := t.outPtr, acc := t.acc, accN := t.accN } ∧
    (AccClean s → ∀ v, t.mem.read s.outPtr.toNat = some v →
      ∀ j, j < 8 - s.accN.val → v.getLsbD j = false) ∧
    exec .flush t = .next t) ∧
  (∀ s : State, s.accN ≠ 0 → populated s s.outPtr = false →
    exec .flush s = .next { s with err := .busError }) ∧
  (∀ (w : Word) (s : State), s.err = .none → opcodeOf w = 0x12#8 → w.extractLsb' 0 24 ≠ 0 →
    RaisesIllegal w s)

/-- R184: a run of PUTBITS and PUTSYM appending B bits from an empty partial byte, then FLUSH, with no
error, writes exactly ceil(B/8) bytes from OUT_PTR on, most significant bit first, zero-padded; BITCNT
counts the B bits. (From 2^32 bytes on a byte is written twice, so B is bounded.) -/
def Obligations.PackingLaw : Prop :=
  ∀ (s t : State) (cmds : List (Instr × List Bool)), AccClean s → s.accN = 0 → s.err = .none →
    (∀ c ∈ cmds, Appends s c.1 c.2) → packedLength (cmds.flatMap Prod.snd) ≤ 2 ^ 32 →
    execAll (cmds.map Prod.fst ++ [.flush]) s = .next t → t.err = .none →
    HoldsBits t s.outPtr (packedLength (cmds.flatMap Prod.snd)) (cmds.flatMap Prod.snd) ∧
    SameMemOutside s t s.outPtr (packedLength (cmds.flatMap Prod.snd)) ∧
    t.outPtr = s.outPtr + BitVec.ofNat 32 (packedLength (cmds.flatMap Prod.snd)) ∧
    t.bitcnt = s.bitcnt + BitVec.ofNat 64 (cmds.flatMap Prod.snd).length

/-! ## Unpacker (43_unpacker.md) -/

/-- R202 where it completes: with N bits of the stream readable, GETBITS puts them right-aligned in
RESULT and takes them from the stream, fetching no byte it does not need; nothing else changes. -/
def Obligations.GetbitsReadsBits : Prop :=
  ∀ (s : State) (n : BitVec 5) (bs : List Bool), legalCount n = true → bs.length = n.toNat →
    StreamBegins s bs →
    ∃ t, exec (.getbits n) s = .next t ∧
      (∀ j, j < 32 → t.result.getLsbD j = (decide (j < n.toNat) && bs.getD (n.toNat - 1 - j) false)) ∧
      Consumed s t n.toNat ∧ t.ubufN.val < 8 ∧
      t = { s with result := t.result, ubuf := t.ubuf, ubufN := t.ubufN, inPtr := t.inPtr }

/-- R202, R200, R71: GETBITS that meets the end of the window, an unpopulated address or a byte never
written. The errors have no other effect; the unwritten byte is a fault of the model. -/
def Obligations.GetbitsStops : Prop :=
  ∀ (s : State) (n : BitVec 5) (bs : List Bool), legalCount n = true → bs.length < n.toNat →
    StreamBegins s bs →
    (bitsLeft s = bs.length → exec (.getbits n) s = .next { s with err := .truncated }) ∧
    (bs.length < bitsLeft s → s.ubufN.val ≤ bs.length → (bs.length - s.ubufN.val) % 8 = 0 →
      (populated s (s.inPtr + BitVec.ofNat 32 ((bs.length - s.ubufN.val) / 8)) = false →
        exec (.getbits n) s = .next { s with err := .busError }) ∧
      (populated s (s.inPtr + BitVec.ofNat 32 ((bs.length - s.ubufN.val) / 8)) = true →
        s.mem.read (s.inPtr + BitVec.ofNat 32 ((bs.length - s.ubufN.val) / 8)).toNat = none →
        exec (.getbits n) s = .fault .unwrittenDmemByte))

/-- R203, R204: with SYM_REMAIN = 0, DSTEP and DRUN have no effect, whatever the tree holds. -/
def Obligations.NothingLeftToDecode : Prop :=
  ∀ s : State, s.symRemain = 0 → exec .dstep s = .next s ∧ exec .drun s = .next s

/-- R203 where it completes: bits that lead from ROOT through internal nodes to a leaf decode its symbol:
written at SYM_PTR, counted, put in RESULT, the bits taken from the stream; nothing else changes. -/
def Obligations.DstepDecodesLeaf : Prop :=
  ∀ (s : State) (bs : List Bool) (i : Slot) (nd : Word), s.symRemain ≠ 0 → bs ≠ [] →
    slotAfter s s.root bs = some i → loadNode s i = .ok nd → nodeLeaf nd = true →
    StreamBegins s bs → populated s s.symPtr = true →
    ∃ t, exec .dstep s = .next t ∧
      t.mem.read s.symPtr.toNat = some (nodeSym nd) ∧ SameMemOutside s t s.symPtr 1 ∧
      t.symPtr = s.symPtr + 1 ∧ t.symRemain.toNat = s.symRemain.toNat - 1 ∧
      t.result = (nodeSym nd).setWidth 32 ∧ Consumed s t bs.length ∧
      t = { s with mem := t.mem, symPtr := t.symPtr, symRemain := t.symRemain, result := t.result,
                   ubuf := t.ubuf, ubufN := t.ubufN, inPtr := t.inPtr }

/-- R203, R235, R173: under a lone leaf the bit 0 decodes its symbol and the bit 1 raises BAD_CODE with
no other effect. -/
def Obligations.DstepLoneLeaf : Prop :=
  ∀ (s : State) (b : Bool) (nd : Word), s.symRemain ≠ 0 → loadNode s s.root = .ok nd →
    nodeLeaf nd = true → StreamBegins s [b] →
    (b = true → exec .dstep s = .next { s with err := .badCode }) ∧
    (b = false → populated s s.symPtr = false → exec .dstep s = .next { s with err := .busError }) ∧
    (b = false → populated s s.symPtr = true → ∃ t, exec .dstep s = .next t ∧
      t.mem.read s.symPtr.toNat = some (nodeSym nd) ∧ SameMemOutside s t s.symPtr 1 ∧
      t.symPtr = s.symPtr + 1 ∧ t.symRemain.toNat = s.symRemain.toNat - 1 ∧
      t.result = (nodeSym nd).setWidth 32 ∧ Consumed s t 1 ∧
      t = { s with mem := t.mem, symPtr := t.symPtr, symRemain := t.symRemain, result := t.result,
                   ubuf := t.ubuf, ubufN := t.ubufN, inPtr := t.inPtr })

/-- R203, R241: the errors of DSTEP in execution order. BAD_TREE at the root before any bit, and at a
child as it is entered; TRUNCATED when the window ends on the way (a cycle too); BUS_ERROR of a byte fetch,
and of the symbol write after the whole code. None has another effect. A byte never written is a fault of
the model (R71). -/
def Obligations.DstepErrors : Prop :=
  ∀ (s : State) (bs : List Bool) (i : Slot), s.symRemain ≠ 0 → slotAfter s s.root bs = some i →
    StreamBegins s bs →
    (loadNode s i = .error (.raise .badTree) → exec .dstep s = .next { s with err := .badTree }) ∧
    (∀ nd, loadNode s i = .ok nd → bs = [] ∨ nodeLeaf nd = false →
      (bitsLeft s = bs.length → exec .dstep s = .next { s with err := .truncated }) ∧
      (bs.length < bitsLeft s → s.ubufN.val ≤ bs.length → (bs.length - s.ubufN.val) % 8 = 0 →
        (populated s (s.inPtr + BitVec.ofNat 32 ((bs.length - s.ubufN.val) / 8)) = false →
          exec .dstep s = .next { s with err := .busError }) ∧
        (populated s (s.inPtr + BitVec.ofNat 32 ((bs.length - s.ubufN.val) / 8)) = true →
          s.mem.read (s.inPtr + BitVec.ofNat 32 ((bs.length - s.ubufN.val) / 8)).toNat = none →
          exec .dstep s = .fault .unwrittenDmemByte))) ∧
    (∀ nd, loadNode s i = .ok nd → nodeLeaf nd = true → bs ≠ [] → populated s s.symPtr = false →
      exec .dstep s = .next { s with err := .busError })

/-- What DSTEP may change, whatever its outcome: its registers and one byte (R203). -/
def Obligations.DstepFrame : Prop :=
  ∀ s t : State, exec .dstep s = .next t →
    t = { s with mem := t.mem, symPtr := t.symPtr, symRemain := t.symRemain, result := t.result,
                 ubuf := t.ubuf, ubufN := t.ubufN, inPtr := t.inPtr, err := t.err } ∧
    SameMemOutside s t s.symPtr 1

/-- The loop of DSTEP needs no bound (R203): with at least as many turns as bits left, more turns change
nothing (log 15). -/
def Obligations.WalkEndsWithStream : Prop :=
  ∀ (n : Nat) (nd : Word) (s : State), bitsLeft s ≤ n → walk n nd s = walk (bitsLeft s) nd s

/-- R204: DRUN performs DSTEPs until SYM_REMAIN = 0 or an error, each with its own commit. -/
def Obligations.DrunRepeatsDstep : Prop :=
  ∀ s : State, s.err = .none → s.symRemain ≠ 0 →
    (∀ t, exec .dstep s = .next t → t.err = .none → exec .drun s = exec .drun t) ∧
    (∀ t, exec .dstep s = .next t → t.err ≠ .none → exec .drun s = .next t) ∧
    (∀ f, exec .dstep s = .fault f → exec .drun s = .fault f)

/-- R204, R47, R237: DRUN ends with SYM_REMAIN = 0 or an error; SYM_PTR moved by the symbols counted; only
their bytes are written; nothing else changes. -/
def Obligations.DrunEndsAndCounts : Prop :=
  ∀ s t : State, s.err = .none → exec .drun s = .next t →
    (t.err = .none → t.symRemain = 0) ∧ t.symRemain.toNat ≤ s.symRemain.toNat ∧
    t.symPtr = s.symPtr + (s.symRemain - t.symRemain) ∧
    SameMemOutside s t s.symPtr (s.symRemain.toNat - t.symRemain.toNat) ∧
    t = { s with mem := t.mem, symPtr := t.symPtr, symRemain := t.symRemain, result := t.result,
                 ubuf := t.ubuf, ubufN := t.ubufN, inPtr := t.inPtr, err := t.err }

/-- R204 where it completes: DRUN decodes a whole text whose codes the stream begins with, into an output
buffer that does not overlap the input window. -/
def Obligations.DrunDecodesText : Prop :=
  ∀ (s : State) (T : HuffTree) (text : List Sym) (codes : List (List Bool)), Placed s T s.root →
    TextCodes T text codes → s.symRemain.toNat = text.length → StreamBegins s codes.flatten →
    PopulatedFrom s s.symPtr text.length → OutsideWindow s s.symPtr text.length →
    ∃ t, exec .drun s = .next t ∧ BytesAt t s.symPtr text ∧
      SameMemOutside s t s.symPtr text.length ∧ t.symRemain = 0 ∧
      t.symPtr = s.symPtr + BitVec.ofNat 32 text.length ∧
      bitsLeft t + codes.flatten.length = bitsLeft s ∧
      t = { s with mem := t.mem, symPtr := t.symPtr, symRemain := t.symRemain, result := t.result,
                   ubuf := t.ubuf, ubufN := t.ubufN, inPtr := t.inPtr }

/-- R207: a window that runs out after some whole symbols: they are decoded, written and counted, then
TRUNCATED is raised, and the bits of the failing symbol stay. -/
def Obligations.ShortStreamTruncates : Prop :=
  ∀ (s : State) (T : HuffTree) (text : List Sym) (codes : List (List Bool)) (rest : List Bool),
    Placed s T s.root → TextCodes T text codes → T.undecided rest → text.length < s.symRemain.toNat →
    StreamBegins s (codes.flatten ++ rest) → bitsLeft s = (codes.flatten ++ rest).length →
    PopulatedFrom s s.symPtr text.length → OutsideWindow s s.symPtr text.length →
    ∃ t, exec .drun s = .next t ∧ t.err = .truncated ∧ BytesAt t s.symPtr text ∧
      t.symRemain.toNat = s.symRemain.toNat - text.length ∧
      t.symPtr = s.symPtr + BitVec.ofNat 32 text.length ∧
      bitsLeft t = rest.length ∧ StreamBegins t rest

/-- R177: if CT holds the codes of a tree and TN and ROOT hold the tree, a DSTEP over the bits of a
symbol's code consumes exactly LEN bits and yields the symbol. -/
def Obligations.CodeTreeAgreement : Prop :=
  ∀ (s : State) (T : HuffTree) (sym : Sym), CodesOf s T → Placed s T s.root →
    (codeEntry s sym).len ≠ 0 → StreamBegins s (codeBits (codeEntry s sym)) →
    s.symRemain ≠ 0 → populated s s.symPtr = true →
    ∃ t, exec .dstep s = .next t ∧ t.mem.read s.symPtr.toNat = some sym ∧
      t.result = sym.setWidth 32 ∧ Consumed s t (codeEntry s sym).len.toNat

/-- R205: the bits a packer run wrote are what the unpacker reads back, then the padding zeros, then
TRUNCATED. (A window of 2^32 bytes is an empty one, so B is bounded.) -/
def Obligations.BitStreamRoundTrip : Prop :=
  ∀ (s t : State) (cmds : List (Instr × List Bool)), AccClean s → s.accN = 0 → s.err = .none →
    (∀ c ∈ cmds, Appends s c.1 c.2) → packedLength (cmds.flatMap Prod.snd) < 2 ^ 32 →
    execAll (cmds.map Prod.fst ++ [.flush]) s = .next t → t.err = .none →
    ∃ u, fetchMany (8 * packedLength (cmds.flatMap Prod.snd))
        { t with ubufN := 0, inPtr := s.outPtr, inEnd := t.outPtr } =
      .ok (cmds.flatMap Prod.snd ++ List.replicate
        (8 * packedLength (cmds.flatMap Prod.snd) - (cmds.flatMap Prod.snd).length) false, u) ∧
      fetchBit u = .error (.raise .truncated)

/-- R206: a text encoded by PUTSYMs and FLUSH with the codes of a tree decodes, by one DRUN with that
tree, to itself, and the padding bits are left. The output buffer lies outside the input window. -/
def Obligations.SymbolRoundTrip : Prop :=
  ∀ (s t : State) (T : HuffTree) (text : List Sym) (out : Addr), AccClean s → s.accN = 0 →
    s.err = .none → CodesOf s T → Placed s T s.root → text.length < 2 ^ 32 →
    packedLength (text.flatMap fun sym => codeBits (codeEntry s sym)) < 2 ^ 32 →
    execAll (text.map Instr.putsym ++ [.flush]) s = .next t → t.err = .none →
    PopulatedFrom t out text.length →
    OutsideWindow { t with inPtr := s.outPtr, inEnd := t.outPtr } out text.length →
    ∃ u, exec .drun { t with
        ubufN := 0, inPtr := s.outPtr, inEnd := t.outPtr, symPtr := out,
        symRemain := BitVec.ofNat 32 text.length } = .next u ∧
      u.err = .none ∧ u.symRemain = 0 ∧ BytesAt u out text ∧
      bitsLeft u + (text.flatMap fun sym => codeBits (codeEntry s sym)).length =
        8 * packedLength (text.flatMap fun sym => codeBits (codeEntry s sym))

/-! ## Errors (60_exceptions.md) -/

/-- R237: a command other than DRUN that raises an error changes nothing but ERR. -/
def Obligations.ErrorLeavesStateUntouched : Prop :=
  ∀ (i : Instr) (s t : State), i ≠ .drun → s.err = .none → exec i s = .next t → t.err ≠ .none →
    t = { s with err := t.err }

/-- R230: which commands raise which error code. -/
def Obligations.ErrorSources : Prop :=
  ∀ (i : Instr) (s t : State), s.err = .none → exec i s = .next t →
    (t.err = .illegalCmd → i.wellFormed = false) ∧
    (t.err = .symNotInTable → ∃ sym, i = .putsym sym ∧ (codeEntry s sym).len = 0) ∧
    (t.err = .truncated → (∃ n, i = .getbits n) ∨ i = .dstep ∨ i = .drun) ∧
    (t.err = .badTree → i = .dstep ∨ i = .drun) ∧
    (t.err = .badCode → i = .dstep ∨ i = .drun) ∧
    (t.err = .busError → (∃ n v, i = .putbits n v) ∨ (∃ sym, i = .putsym sym) ∨ i = .flush ∨
      (∃ n, i = .getbits n) ∨ i = .dstep ∨ i = .drun)

/-- R38, R239: once raised, ERR keeps its value until a CLR or a reset. -/
def Obligations.ErrorIsSticky : Prop :=
  ∀ s t : State, s.err ≠ .none → step s = .next t → t.err ≠ s.err →
    t.err = .none ∧ (EngineTurn s 0x01000000#32 ∨ ∃ k, nextMove s = .reset k)

/-- No command is refused, and the only fault a command meets is a byte never written (R71), in the
commands that read DMEM: a populated byte of the state before the command is unwritten then. -/
def Obligations.CommandsStopOnlyOnUnwrittenBytes : Prop :=
  ∀ (i : Instr) (s : State), (∀ r, exec i s ≠ .refused r) ∧
    (∀ f, exec i s = .fault f → f = .unwrittenDmemByte ∧
      ((∃ n, i = .getbits n) ∨ i = .dstep ∨ i = .drun) ∧
      ∃ a : Addr, populated s a = true ∧ s.mem.read a.toNat = none)

/-! ## Whole-machine rules -/

/-- R45, R54, R59, R60: no command writes CTRL, IN_END, ROOT, the parameters, or anything of the command
cycle and the host's side. -/
def Obligations.CommandsKeepHostRegisters : Prop :=
  ∀ (i : Instr) (s t : State), exec i s = .next t →
    t.cfg = s.cfg ∧ t.ctrl = s.ctrl ∧ t.inEnd = s.inEnd ∧ t.root = s.root ∧ t.pending = s.pending ∧
    t.busy = s.busy ∧ t.done = s.done ∧ t.schedule = s.schedule ∧ t.readData = s.readData ∧
    t.draws = s.draws

/-- The writers of each register, table and memory (R42 and the "State written" lines): a command of no
listed kind leaves it unchanged. -/
def Obligations.RegisterWriters : Prop :=
  ∀ (i : Instr) (s t : State), exec i s = .next t →
    (t.result ≠ s.result → (∃ n, i = .getbits n) ∨ i = .dstep ∨ i = .drun) ∧
    (t.data ≠ s.data → (∃ y, i = .ctrdlen y) ∨ (∃ y k, i = .ctrdword y k) ∨ (∃ x, i = .tnrd x)) ∧
    (t.ct ≠ s.ct → i = .ctclr ∨ (∃ y l, i = .ctlen y l) ∨ (∃ y k, i = .ctword y k)) ∧
    (t.tn ≠ s.tn → i = .tnclr ∨ (∃ x, i = .tnw x)) ∧
    (t.outPtr ≠ s.outPtr → (∃ n v, i = .putbits n v) ∨ (∃ y, i = .putsym y) ∨ i = .flush) ∧
    (t.bitcnt ≠ s.bitcnt → i = .clr ∨ (∃ n v, i = .putbits n v) ∨ (∃ y, i = .putsym y)) ∧
    (t.inPtr ≠ s.inPtr → (∃ n, i = .getbits n) ∨ i = .dstep ∨ i = .drun) ∧
    (t.symPtr ≠ s.symPtr ∨ t.symRemain ≠ s.symRemain → i = .dstep ∨ i = .drun) ∧
    (t.acc ≠ s.acc ∨ t.accN ≠ s.accN →
      i = .clr ∨ (∃ n v, i = .putbits n v) ∨ (∃ y, i = .putsym y) ∨ i = .flush) ∧
    (t.ubuf ≠ s.ubuf ∨ t.ubufN ≠ s.ubufN →
      i = .clr ∨ (∃ n, i = .getbits n) ∨ i = .dstep ∨ i = .drun) ∧
    (t.ovr ≠ s.ovr → i = .clr) ∧
    (t.mem ≠ s.mem → (∃ n v, i = .putbits n v) ∨ (∃ y, i = .putsym y) ∨ i = .flush ∨ i = .dstep ∨
      i = .drun)

/-- R59: no command reads a flag: DONE, OVR and the interrupt enables make no difference to anything
else. -/
def Obligations.CommandsReadNoFlags : Prop :=
  ∀ (i : Instr) (s : State) (d o : Bool) (c : BitVec 2),
    exec i { s with done := d, ovr := o, ctrl := c } =
      onNext (fun t => { t with done := d, ovr := decide (i ≠ .clr) && o, ctrl := c }) (exec i s)

/-- Every step keeps the invariant: DMEM's canonical form, populated bytes only, ACC and UBUF clean
(R49, R50), the tree's reserved bits 0 (R57), BUSY with PENDING, DONE 0 while busy. -/
def Obligations.StepKeepsInvariant : Prop :=
  ∀ s t : State, StateInv s → step s = .next t → StateInv t

/-- The invariant holds after reset. -/
def Obligations.ResetMeetsInvariant : Prop := StateInv State.reset

/-- R61: the state after reset. -/
def Obligations.ResetValues : Prop :=
  regValue State.reset .id = 0x48425055#32 ∧ regValue State.reset .version = 0x00010000#32 ∧
  regValue State.reset .ctrl = 0 ∧ regValue State.reset .status = 0x00000008#32 ∧
  State.reset.pending = none ∧ State.reset.data = 0 ∧ State.reset.result = 0 ∧
  State.reset.outPtr = 0 ∧ State.reset.inPtr = 0 ∧ State.reset.inEnd = 0 ∧ State.reset.symPtr = 0 ∧
  State.reset.symRemain = 0 ∧ State.reset.root = 0 ∧ State.reset.acc = 0 ∧ State.reset.accN = 0 ∧
  State.reset.ubuf = 0 ∧ State.reset.ubufN = 0 ∧ State.reset.bitcnt = 0 ∧
  (∀ sym, (codeEntry State.reset sym).len = 0 ∧ ∀ k, codeWord (codeEntry State.reset sym) k = 0) ∧
  (∀ i, i < 511 → State.reset.tn[i]? = some 0) ∧
  (∀ a : Nat, State.reset.mem.read a = none) ∧ irq State.reset = false

/-- R261, R262, R263: a hardware reset puts all but DMEM at the reset values and discards PENDING. Without a
commit before it, DMEM is kept on a platform that keeps it and unwritten else (log 12). Of a command it
aborts, the first k commits stay, k being data of the reset (log 13): all of a single-commit command's
writes or none, of DRUN the symbols of its first k sub-steps (or of those before a failing one); a platform
that does not keep DMEM keeps only those bytes (log 12). A commit that cannot be made because it reads a
byte never written is the model's fault (log 31). -/
def Obligations.HardwareReset : Prop :=
  (∀ (s t : State) (k : Nat), nextMove s = .reset k → step s = .next t →
    t = { State.resetOf s.cfg t.mem with
          schedule := s.schedule.tail, readData := s.readData, draws := s.draws }) ∧
  (∀ (s : State) (k : Nat), nextMove s = .reset k →
    (s.pending = none ∨ k = 0 ∨ s.err ≠ .none ∨ ∃ w e, s.pending = some w ∧ decode w = .error e) →
    ∃ t, step s = .next t ∧ t.mem = if s.cfg.dmemKeptAtReset then s.mem else []) ∧
  (∀ (s : State) (k : Nat) (w : Word) (i : Instr), nextMove s = .reset k → s.pending = some w →
    s.err = .none → decode w = .ok i → i ≠ .drun → k ≠ 0 →
    (∀ u, exec i (popped s) = .next u → ∃ t, step s = .next t ∧ SurvivingBytes s u t) ∧
    (∀ f, exec i (popped s) = .fault f → step s = .fault f)) ∧
  (∀ (s u : State) (k n : Nat) (w : Word), nextMove s = .reset k → s.pending = some w →
    s.err = .none → decode w = .ok .drun → n ≤ k →
    execAll (List.replicate n .dstep) (popped s) = .next u → u.err = .none →
    ((n = k ∨ ∃ v, exec .dstep u = .next v ∧ v.err ≠ .none) →
      ∃ t, step s = .next t ∧ SurvivingBytes s u t) ∧
    (∀ f, n < k → exec .dstep u = .fault f → step s = .fault f))

/-! ## Host interface (10_state.md) -/

/-- R39: a STATUS write clears DONE and OVR where its word has a 1, and does nothing else, BUSY or not. -/
def Obligations.StatusWriteClears : Prop :=
  ∀ (s : State) (w : Word), nextMove s = .host (.regWrite 0x0C w) →
    ∃ t, step s = .next t ∧ (t.done = true ↔ s.done = true ∧ w.getLsbD 1 = false) ∧
      (t.ovr = true ↔ s.ovr = true ∧ w.getLsbD 8 = false) ∧
      t = { popped s with done := t.done, ovr := t.ovr }

/-- R53: writes while BUSY = 1: CTRL and STATUS take effect, CMD and the other RW registers are dropped
with OVR set, RO registers and reserved offsets do nothing. -/
def Obligations.BusyRegisterWrites : Prop :=
  ∀ (s : State) (off : BitVec 8) (v : Word), s.busy = true → nextMove s = .host (.regWrite off v) →
    (off = 0x08 → step s = .next { popped s with ctrl := v.extractLsb' 0 2 }) ∧
    (off = 0x0C → step s = .next { popped s with
      done := s.done && !v.getLsbD 1, ovr := s.ovr && !v.getLsbD 8 }) ∧
    (off ∈ [0x10, 0x14, 0x1C, 0x20, 0x24, 0x28, 0x2C, 0x30] →
      step s = .next { popped s with ovr := true }) ∧
    (off ∈ [0x00, 0x04, 0x18, 0x34, 0x38, 0x3C, 0x40] ∨ (0x44 ≤ off.toNat ∧ off.toNat % 4 = 0) →
      step s = .next (popped s))

/-- R34, R37, R41, R43 to R48: writes while BUSY = 0: each RW register at its offset takes the word (CTRL
and ROOT their used bits); read-only registers and reserved offsets take nothing. -/
def Obligations.IdleRegisterWrites : Prop :=
  ∀ (s : State) (off : BitVec 8) (v : Word), s.busy = false → nextMove s = .host (.regWrite off v) →
    (off = 0x08 → step s = .next { popped s with ctrl := v.extractLsb' 0 2 }) ∧
    (off = 0x14 → step s = .next { popped s with data := v }) ∧
    (off = 0x1C → step s = .next { popped s with outPtr := v }) ∧
    (off = 0x20 → step s = .next { popped s with inPtr := v }) ∧
    (off = 0x24 → step s = .next { popped s with inEnd := v }) ∧
    (off = 0x28 → step s = .next { popped s with symPtr := v }) ∧
    (off = 0x2C → step s = .next { popped s with symRemain := v }) ∧
    (off = 0x30 → step s = .next { popped s with root := v.extractLsb' 0 9 }) ∧
    (off ∈ [0x00, 0x04, 0x18, 0x34, 0x38, 0x3C, 0x40] ∨ (0x44 ≤ off.toNat ∧ off.toNat % 4 = 0) →
      step s = .next (popped s))

/-- R34, R38, R54: reads while BUSY = 1, by offset: exact for ID, VERSION, CTRL, STATUS (its BUSY bit 1),
CMD, IN_END and ROOT; for the registers a command may write, some value with the reserved bits 0 (log 7). A
read changes nothing of the HBPU (R79). -/
def Obligations.BusyRegisterReads : Prop :=
  ∀ (s : State) (off : BitVec 8), s.busy = true → nextMove s = .host (.regRead off) →
    off.toNat % 4 = 0 →
    ∃ t, step s = .next t ∧ t = { popped s with readData := t.readData, draws := t.draws } ∧
      (off = 0x00 → t.readData = 0x48425055#32) ∧ (off = 0x04 → t.readData = 0x00010000#32) ∧
      (off = 0x08 → t.readData = s.ctrl.setWidth 32) ∧
      (off = 0x0C → t.readData.toNat = 1 + 2 * s.done.toNat +
        4 * (decide (s.err ≠ .none)).toNat + 8 * (decide (s.symRemain = 0)).toNat +
        16 * s.err.code.toNat + 256 * s.ovr.toNat) ∧
      (off = 0x10 → t.readData = 0) ∧
      (off = 0x24 → t.readData = s.inEnd) ∧ (off = 0x30 → t.readData = s.root.setWidth 32) ∧
      (off = 0x34 → t.readData.toNat < 2 ^ 11) ∧ (off = 0x38 → t.readData.toNat < 2 ^ 12)

/-- The exact window reads while BUSY = 0, by offset (R34) and field by field (R35 to R38, R40 to R51). -/
def Obligations.IdleRegisterReads : Prop :=
  ∀ (s : State) (off : BitVec 8), s.busy = false → nextMove s = .host (.regRead off) →
    off.toNat % 4 = 0 →
    ∃ t, step s = .next t ∧ t = { popped s with readData := t.readData } ∧
      (off = 0x00 → t.readData = 0x48425055#32) ∧ (off = 0x04 → t.readData = 0x00010000#32) ∧
      (off = 0x08 → t.readData = s.ctrl.setWidth 32) ∧
      (off = 0x0C → t.readData.toNat = 2 * s.done.toNat +
        4 * (decide (s.err ≠ .none)).toNat + 8 * (decide (s.symRemain = 0)).toNat +
        16 * s.err.code.toNat + 256 * s.ovr.toNat) ∧
      (off = 0x10 → t.readData = 0) ∧
      (off = 0x14 → t.readData = s.data) ∧ (off = 0x18 → t.readData = s.result) ∧
      (off = 0x1C → t.readData = s.outPtr) ∧ (off = 0x20 → t.readData = s.inPtr) ∧
      (off = 0x24 → t.readData = s.inEnd) ∧ (off = 0x28 → t.readData = s.symPtr) ∧
      (off = 0x2C → t.readData = s.symRemain) ∧ (off = 0x30 → t.readData = s.root.setWidth 32) ∧
      (off = 0x34 → t.readData.toNat = s.acc.toNat + 256 * s.accN.val) ∧
      (off = 0x38 → t.readData.toNat = s.ubuf.toNat + 256 * s.ubufN.val) ∧
      (off = 0x3C → t.readData.toNat = s.bitcnt.toNat % 2 ^ 32) ∧
      (off = 0x40 → t.readData.toNat = s.bitcnt.toNat / 2 ^ 32)

/-- R35, R36, R52: ID and VERSION read their constants in every state; offsets 0x44 to 0xFC read 0,
ignore writes and never set OVR. -/
def Obligations.ConstantWindowSlots : Prop :=
  (∀ s : State, nextMove s = .host (.regRead 0x00) →
    step s = .next { popped s with readData := 0x48425055#32 }) ∧
  (∀ s : State, nextMove s = .host (.regRead 0x04) →
    step s = .next { popped s with readData := 0x00010000#32 }) ∧
  ∀ (s : State) (off : BitVec 8), 0x44 ≤ off.toNat → off.toNat % 4 = 0 →
    (nextMove s = .host (.regRead off) → step s = .next { popped s with readData := 0 }) ∧
    (∀ v, nextMove s = .host (.regWrite off v) → step s = .next (popped s))

/-- R33, R83 (d): what the spec tells a model to refuse: a window access at an unaligned offset, and a
host DMEM access while BUSY = 1. -/
def Obligations.HostAccessRefusals : Prop :=
  (∀ (s : State) (off : BitVec 8), off.toNat % 4 ≠ 0 →
    (nextMove s = .host (.regRead off) ∨ ∃ v, nextMove s = .host (.regWrite off v)) →
    step s = .refused .unsupportedRegisterAccess) ∧
  (∀ (s : State) (a : Addr), s.busy = true →
    (nextMove s = .host (.memRead a) ∨ ∃ v, nextMove s = .host (.memWrite a v)) →
    step s = .refused .dmemRace)

/-- The host's side of DMEM while BUSY = 0 (R71, R83 (b)): a byte it writes reads back, to it and to the
engine, and no other byte changes. -/
def Obligations.HostMemoryWrites : Prop :=
  ∀ (s : State) (a : Addr) (v : Byte), s.busy = false → populated s a = true →
    nextMove s = .host (.memWrite a v) →
    ∃ t, step s = .next t ∧ t.mem.read a.toNat = some v ∧ SameMemOutside s t a 1 ∧
      dmemRead t a = .ok v ∧ t = { popped s with mem := t.mem } ∧
      (nextMove t = .host (.memRead a) →
        step t = .next { popped t with readData := v.setWidth 32 })

/-- R243: the interrupt output, by the bits CTRL and STATUS read. -/
def Obligations.InterruptOutput : Prop :=
  ∀ s : State, irq s =
    (((ctrlWord s).getLsbD 0 && (statusWord s).getLsbD 1) ||
     ((ctrlWord s).getLsbD 1 && (statusWord s).getLsbD 2))
end

