-- ==== Sys2Proof/Laws/State.lean ====
section
/-! SUPPORT. One lemma per field for each named state update: what the update makes of the field. -/

namespace Sys2Proof.Machine

/-! ## enterError -/
@[simp] theorem enterError_cfg (e : ErrCode) (s : State) : (enterError e s).cfg = s.cfg := rfl
@[simp] theorem enterError_ctrl (e : ErrCode) (s : State) : (enterError e s).ctrl = s.ctrl := rfl
@[simp] theorem enterError_busy (e : ErrCode) (s : State) : (enterError e s).busy = s.busy := rfl
@[simp] theorem enterError_done (e : ErrCode) (s : State) : (enterError e s).done = s.done := rfl
@[simp] theorem enterError_err (e : ErrCode) (s : State) : (enterError e s).err = e := rfl
@[simp] theorem enterError_ovr (e : ErrCode) (s : State) : (enterError e s).ovr = s.ovr := rfl
@[simp] theorem enterError_pending (e : ErrCode) (s : State) : (enterError e s).pending = s.pending := rfl
@[simp] theorem enterError_data (e : ErrCode) (s : State) : (enterError e s).data = s.data := rfl
@[simp] theorem enterError_result (e : ErrCode) (s : State) : (enterError e s).result = s.result := rfl
@[simp] theorem enterError_outPtr (e : ErrCode) (s : State) : (enterError e s).outPtr = s.outPtr := rfl
@[simp] theorem enterError_inPtr (e : ErrCode) (s : State) : (enterError e s).inPtr = s.inPtr := rfl
@[simp] theorem enterError_inEnd (e : ErrCode) (s : State) : (enterError e s).inEnd = s.inEnd := rfl
@[simp] theorem enterError_symPtr (e : ErrCode) (s : State) : (enterError e s).symPtr = s.symPtr := rfl
@[simp] theorem enterError_symRemain (e : ErrCode) (s : State) : (enterError e s).symRemain = s.symRemain := rfl
@[simp] theorem enterError_root (e : ErrCode) (s : State) : (enterError e s).root = s.root := rfl
@[simp] theorem enterError_acc (e : ErrCode) (s : State) : (enterError e s).acc = s.acc := rfl
@[simp] theorem enterError_accN (e : ErrCode) (s : State) : (enterError e s).accN = s.accN := rfl
@[simp] theorem enterError_ubuf (e : ErrCode) (s : State) : (enterError e s).ubuf = s.ubuf := rfl
@[simp] theorem enterError_ubufN (e : ErrCode) (s : State) : (enterError e s).ubufN = s.ubufN := rfl
@[simp] theorem enterError_bitcnt (e : ErrCode) (s : State) : (enterError e s).bitcnt = s.bitcnt := rfl
@[simp] theorem enterError_ct (e : ErrCode) (s : State) : (enterError e s).ct = s.ct := rfl
@[simp] theorem enterError_tn (e : ErrCode) (s : State) : (enterError e s).tn = s.tn := rfl
@[simp] theorem enterError_mem (e : ErrCode) (s : State) : (enterError e s).mem = s.mem := rfl
@[simp] theorem enterError_schedule (e : ErrCode) (s : State) : (enterError e s).schedule = s.schedule := rfl
@[simp] theorem enterError_readData (e : ErrCode) (s : State) : (enterError e s).readData = s.readData := rfl
@[simp] theorem enterError_draws (e : ErrCode) (s : State) : (enterError e s).draws = s.draws := rfl

/-! ## complete -/
@[simp] theorem complete_cfg (s : State) : (complete s).cfg = s.cfg := rfl
@[simp] theorem complete_ctrl (s : State) : (complete s).ctrl = s.ctrl := rfl
@[simp] theorem complete_busy (s : State) : (complete s).busy = false := rfl
@[simp] theorem complete_done (s : State) : (complete s).done = true := rfl
@[simp] theorem complete_err (s : State) : (complete s).err = s.err := rfl
@[simp] theorem complete_ovr (s : State) : (complete s).ovr = s.ovr := rfl
@[simp] theorem complete_pending (s : State) : (complete s).pending = none := rfl
@[simp] theorem complete_data (s : State) : (complete s).data = s.data := rfl
@[simp] theorem complete_result (s : State) : (complete s).result = s.result := rfl
@[simp] theorem complete_outPtr (s : State) : (complete s).outPtr = s.outPtr := rfl
@[simp] theorem complete_inPtr (s : State) : (complete s).inPtr = s.inPtr := rfl
@[simp] theorem complete_inEnd (s : State) : (complete s).inEnd = s.inEnd := rfl
@[simp] theorem complete_symPtr (s : State) : (complete s).symPtr = s.symPtr := rfl
@[simp] theorem complete_symRemain (s : State) : (complete s).symRemain = s.symRemain := rfl
@[simp] theorem complete_root (s : State) : (complete s).root = s.root := rfl
@[simp] theorem complete_acc (s : State) : (complete s).acc = s.acc := rfl
@[simp] theorem complete_accN (s : State) : (complete s).accN = s.accN := rfl
@[simp] theorem complete_ubuf (s : State) : (complete s).ubuf = s.ubuf := rfl
@[simp] theorem complete_ubufN (s : State) : (complete s).ubufN = s.ubufN := rfl
@[simp] theorem complete_bitcnt (s : State) : (complete s).bitcnt = s.bitcnt := rfl
@[simp] theorem complete_ct (s : State) : (complete s).ct = s.ct := rfl
@[simp] theorem complete_tn (s : State) : (complete s).tn = s.tn := rfl
@[simp] theorem complete_mem (s : State) : (complete s).mem = s.mem := rfl
@[simp] theorem complete_schedule (s : State) : (complete s).schedule = s.schedule := rfl
@[simp] theorem complete_readData (s : State) : (complete s).readData = s.readData := rfl
@[simp] theorem complete_draws (s : State) : (complete s).draws = s.draws := rfl

/-! ## clearStreams -/
@[simp] theorem clearStreams_cfg (s : State) : (clearStreams s).cfg = s.cfg := rfl
@[simp] theorem clearStreams_ctrl (s : State) : (clearStreams s).ctrl = s.ctrl := rfl
@[simp] theorem clearStreams_busy (s : State) : (clearStreams s).busy = s.busy := rfl
@[simp] theorem clearStreams_done (s : State) : (clearStreams s).done = s.done := rfl
@[simp] theorem clearStreams_err (s : State) : (clearStreams s).err = .none := rfl
@[simp] theorem clearStreams_ovr (s : State) : (clearStreams s).ovr = false := rfl
@[simp] theorem clearStreams_pending (s : State) : (clearStreams s).pending = s.pending := rfl
@[simp] theorem clearStreams_data (s : State) : (clearStreams s).data = s.data := rfl
@[simp] theorem clearStreams_result (s : State) : (clearStreams s).result = s.result := rfl
@[simp] theorem clearStreams_outPtr (s : State) : (clearStreams s).outPtr = s.outPtr := rfl
@[simp] theorem clearStreams_inPtr (s : State) : (clearStreams s).inPtr = s.inPtr := rfl
@[simp] theorem clearStreams_inEnd (s : State) : (clearStreams s).inEnd = s.inEnd := rfl
@[simp] theorem clearStreams_symPtr (s : State) : (clearStreams s).symPtr = s.symPtr := rfl
@[simp] theorem clearStreams_symRemain (s : State) : (clearStreams s).symRemain = s.symRemain := rfl
@[simp] theorem clearStreams_root (s : State) : (clearStreams s).root = s.root := rfl
@[simp] theorem clearStreams_acc (s : State) : (clearStreams s).acc = 0 := rfl
@[simp] theorem clearStreams_accN (s : State) : (clearStreams s).accN = 0 := rfl
@[simp] theorem clearStreams_ubuf (s : State) : (clearStreams s).ubuf = 0 := rfl
@[simp] theorem clearStreams_ubufN (s : State) : (clearStreams s).ubufN = 0 := rfl
@[simp] theorem clearStreams_bitcnt (s : State) : (clearStreams s).bitcnt = 0 := rfl
@[simp] theorem clearStreams_ct (s : State) : (clearStreams s).ct = s.ct := rfl
@[simp] theorem clearStreams_tn (s : State) : (clearStreams s).tn = s.tn := rfl
@[simp] theorem clearStreams_mem (s : State) : (clearStreams s).mem = s.mem := rfl
@[simp] theorem clearStreams_schedule (s : State) : (clearStreams s).schedule = s.schedule := rfl
@[simp] theorem clearStreams_readData (s : State) : (clearStreams s).readData = s.readData := rfl
@[simp] theorem clearStreams_draws (s : State) : (clearStreams s).draws = s.draws := rfl

/-! ## popped -/
@[simp] theorem popped_cfg (s : State) : (popped s).cfg = s.cfg := rfl
@[simp] theorem popped_ctrl (s : State) : (popped s).ctrl = s.ctrl := rfl
@[simp] theorem popped_busy (s : State) : (popped s).busy = s.busy := rfl
@[simp] theorem popped_done (s : State) : (popped s).done = s.done := rfl
@[simp] theorem popped_err (s : State) : (popped s).err = s.err := rfl
@[simp] theorem popped_ovr (s : State) : (popped s).ovr = s.ovr := rfl
@[simp] theorem popped_pending (s : State) : (popped s).pending = s.pending := rfl
@[simp] theorem popped_data (s : State) : (popped s).data = s.data := rfl
@[simp] theorem popped_result (s : State) : (popped s).result = s.result := rfl
@[simp] theorem popped_outPtr (s : State) : (popped s).outPtr = s.outPtr := rfl
@[simp] theorem popped_inPtr (s : State) : (popped s).inPtr = s.inPtr := rfl
@[simp] theorem popped_inEnd (s : State) : (popped s).inEnd = s.inEnd := rfl
@[simp] theorem popped_symPtr (s : State) : (popped s).symPtr = s.symPtr := rfl
@[simp] theorem popped_symRemain (s : State) : (popped s).symRemain = s.symRemain := rfl
@[simp] theorem popped_root (s : State) : (popped s).root = s.root := rfl
@[simp] theorem popped_acc (s : State) : (popped s).acc = s.acc := rfl
@[simp] theorem popped_accN (s : State) : (popped s).accN = s.accN := rfl
@[simp] theorem popped_ubuf (s : State) : (popped s).ubuf = s.ubuf := rfl
@[simp] theorem popped_ubufN (s : State) : (popped s).ubufN = s.ubufN := rfl
@[simp] theorem popped_bitcnt (s : State) : (popped s).bitcnt = s.bitcnt := rfl
@[simp] theorem popped_ct (s : State) : (popped s).ct = s.ct := rfl
@[simp] theorem popped_tn (s : State) : (popped s).tn = s.tn := rfl
@[simp] theorem popped_mem (s : State) : (popped s).mem = s.mem := rfl
@[simp] theorem popped_schedule (s : State) : (popped s).schedule = s.schedule.tail := rfl
@[simp] theorem popped_readData (s : State) : (popped s).readData = s.readData := rfl
@[simp] theorem popped_draws (s : State) : (popped s).draws = s.draws := rfl

/-! ## setCodeEntry -/
@[simp] theorem setCodeEntry_cfg (s : State) (y : Sym) (e : CodeEntry) :
    (setCodeEntry s y e).cfg = s.cfg := rfl
@[simp] theorem setCodeEntry_ctrl (s : State) (y : Sym) (e : CodeEntry) :
    (setCodeEntry s y e).ctrl = s.ctrl := rfl
@[simp] theorem setCodeEntry_busy (s : State) (y : Sym) (e : CodeEntry) :
    (setCodeEntry s y e).busy = s.busy := rfl
@[simp] theorem setCodeEntry_done (s : State) (y : Sym) (e : CodeEntry) :
    (setCodeEntry s y e).done = s.done := rfl
@[simp] theorem setCodeEntry_err (s : State) (y : Sym) (e : CodeEntry) :
    (setCodeEntry s y e).err = s.err := rfl
@[simp] theorem setCodeEntry_ovr (s : State) (y : Sym) (e : CodeEntry) :
    (setCodeEntry s y e).ovr = s.ovr := rfl
@[simp] theorem setCodeEntry_pending (s : State) (y : Sym) (e : CodeEntry) :
    (setCodeEntry s y e).pending = s.pending := rfl
@[simp] theorem setCodeEntry_data (s : State) (y : Sym) (e : CodeEntry) :
    (setCodeEntry s y e).data = s.data := rfl
@[simp] theorem setCodeEntry_result (s : State) (y : Sym) (e : CodeEntry) :
    (setCodeEntry s y e).result = s.result := rfl
@[simp] theorem setCodeEntry_outPtr (s : State) (y : Sym) (e : CodeEntry) :
    (setCodeEntry s y e).outPtr = s.outPtr := rfl
@[simp] theorem setCodeEntry_inPtr (s : State) (y : Sym) (e : CodeEntry) :
    (setCodeEntry s y e).inPtr = s.inPtr := rfl
@[simp] theorem setCodeEntry_inEnd (s : State) (y : Sym) (e : CodeEntry) :
    (setCodeEntry s y e).inEnd = s.inEnd := rfl
@[simp] theorem setCodeEntry_symPtr (s : State) (y : Sym) (e : CodeEntry) :
    (setCodeEntry s y e).symPtr = s.symPtr := rfl
@[simp] theorem setCodeEntry_symRemain (s : State) (y : Sym) (e : CodeEntry) :
    (setCodeEntry s y e).symRemain = s.symRemain := rfl
@[simp] theorem setCodeEntry_root (s : State) (y : Sym) (e : CodeEntry) :
    (setCodeEntry s y e).root = s.root := rfl
@[simp] theorem setCodeEntry_acc (s : State) (y : Sym) (e : CodeEntry) :
    (setCodeEntry s y e).acc = s.acc := rfl
@[simp] theorem setCodeEntry_accN (s : State) (y : Sym) (e : CodeEntry) :
    (setCodeEntry s y e).accN = s.accN := rfl
@[simp] theorem setCodeEntry_ubuf (s : State) (y : Sym) (e : CodeEntry) :
    (setCodeEntry s y e).ubuf = s.ubuf := rfl
@[simp] theorem setCodeEntry_ubufN (s : State) (y : Sym) (e : CodeEntry) :
    (setCodeEntry s y e).ubufN = s.ubufN := rfl
@[simp] theorem setCodeEntry_bitcnt (s : State) (y : Sym) (e : CodeEntry) :
    (setCodeEntry s y e).bitcnt = s.bitcnt := rfl
@[simp] theorem setCodeEntry_ct (s : State) (y : Sym) (e : CodeEntry) :
    (setCodeEntry s y e).ct = s.ct.set y.toNat e := rfl
@[simp] theorem setCodeEntry_tn (s : State) (y : Sym) (e : CodeEntry) :
    (setCodeEntry s y e).tn = s.tn := rfl
@[simp] theorem setCodeEntry_mem (s : State) (y : Sym) (e : CodeEntry) :
    (setCodeEntry s y e).mem = s.mem := rfl
@[simp] theorem setCodeEntry_schedule (s : State) (y : Sym) (e : CodeEntry) :
    (setCodeEntry s y e).schedule = s.schedule := rfl
@[simp] theorem setCodeEntry_readData (s : State) (y : Sym) (e : CodeEntry) :
    (setCodeEntry s y e).readData = s.readData := rfl
@[simp] theorem setCodeEntry_draws (s : State) (y : Sym) (e : CodeEntry) :
    (setCodeEntry s y e).draws = s.draws := rfl

/-! ## issued -/
@[simp] theorem issued_cfg (w : Word) (s : State) : (issued w s).cfg = s.cfg := rfl
@[simp] theorem issued_ctrl (w : Word) (s : State) : (issued w s).ctrl = s.ctrl := rfl
@[simp] theorem issued_busy (w : Word) (s : State) : (issued w s).busy = true := rfl
@[simp] theorem issued_done (w : Word) (s : State) : (issued w s).done = false := rfl
@[simp] theorem issued_err (w : Word) (s : State) : (issued w s).err = s.err := rfl
@[simp] theorem issued_ovr (w : Word) (s : State) : (issued w s).ovr = s.ovr := rfl
@[simp] theorem issued_pending (w : Word) (s : State) : (issued w s).pending = some w := rfl
@[simp] theorem issued_data (w : Word) (s : State) : (issued w s).data = s.data := rfl
@[simp] theorem issued_result (w : Word) (s : State) : (issued w s).result = s.result := rfl
@[simp] theorem issued_outPtr (w : Word) (s : State) : (issued w s).outPtr = s.outPtr := rfl
@[simp] theorem issued_inPtr (w : Word) (s : State) : (issued w s).inPtr = s.inPtr := rfl
@[simp] theorem issued_inEnd (w : Word) (s : State) : (issued w s).inEnd = s.inEnd := rfl
@[simp] theorem issued_symPtr (w : Word) (s : State) : (issued w s).symPtr = s.symPtr := rfl
@[simp] theorem issued_symRemain (w : Word) (s : State) : (issued w s).symRemain = s.symRemain := rfl
@[simp] theorem issued_root (w : Word) (s : State) : (issued w s).root = s.root := rfl
@[simp] theorem issued_acc (w : Word) (s : State) : (issued w s).acc = s.acc := rfl
@[simp] theorem issued_accN (w : Word) (s : State) : (issued w s).accN = s.accN := rfl
@[simp] theorem issued_ubuf (w : Word) (s : State) : (issued w s).ubuf = s.ubuf := rfl
@[simp] theorem issued_ubufN (w : Word) (s : State) : (issued w s).ubufN = s.ubufN := rfl
@[simp] theorem issued_bitcnt (w : Word) (s : State) : (issued w s).bitcnt = s.bitcnt := rfl
@[simp] theorem issued_ct (w : Word) (s : State) : (issued w s).ct = s.ct := rfl
@[simp] theorem issued_tn (w : Word) (s : State) : (issued w s).tn = s.tn := rfl
@[simp] theorem issued_mem (w : Word) (s : State) : (issued w s).mem = s.mem := rfl
@[simp] theorem issued_schedule (w : Word) (s : State) : (issued w s).schedule = .engine :: s.schedule := rfl
@[simp] theorem issued_readData (w : Word) (s : State) : (issued w s).readData = s.readData := rfl
@[simp] theorem issued_draws (w : Word) (s : State) : (issued w s).draws = s.draws := rfl

end Sys2Proof.Machine
end

