-- ==== Sys2Proof/Laws/Packer.lean ====
section
/-! SUPPORT. What the packer's operations do: append_bit, a bit sequence, the byte write. -/

namespace Sys2Proof.Machine

/-! ## Addresses -/

theorem addr_add_ofNat (p : Addr) (m n : Nat) :
    p + BitVec.ofNat 32 m + BitVec.ofNat 32 n = p + BitVec.ofNat 32 (m + n) := by
  rw [BitVec.add_assoc, BitVec.ofNat_add]

theorem within_iff (p : Addr) (n : Nat) (a : Addr) : within p n a = true ↔ (a - p).toNat < n := by
  simp [within]

theorem within_zero (p a : Addr) : within p 0 a = false := by simp [within]

/-- A byte lies outside the bytes that follow it, if they are not all of the address space. -/
theorem within_next_self (p : Addr) (n : Nat) (h : n < 2 ^ 32) : within (p + 1) n p = false := by
  have : (p - (p + 1)).toNat = 2 ^ 32 - 1 := by
    have : p - (p + 1) = -1 := by ring
    rw [this]; decide
  simp only [within, this, decide_eq_false_iff_not]
  omega

theorem within_succ (p : Addr) (n : Nat) (a : Addr) (h : within p (n + 1) a = false) :
    a ≠ p ∧ within (p + 1) n a = false := by
  simp only [within, decide_eq_false_iff_not] at h ⊢
  constructor
  · rintro rfl; simp at h
  · intro hlt
    apply h
    have e : a - p = (a - (p + 1)) + 1 := by ring
    have h1 : BitVec.toNat (1 : Addr) = 1 := rfl
    rw [e, BitVec.toNat_add, h1]
    exact lt_of_le_of_lt (Nat.mod_le _ _) (by omega)

theorem SameMemOutside.refl (s : State) (p : Addr) (n : Nat) : SameMemOutside s s p n := fun _ _ => rfl

theorem SameMemOutside.of_mem {s t : State} (h : t.mem = s.mem) (p : Addr) (n : Nat) :
    SameMemOutside s t p n := fun _ _ => by rw [h]

/-- One written byte and then n following ones are n + 1 bytes. -/
theorem SameMemOutside.cons {s t u : State} {p : Addr} {n : Nat} {v : Byte}
    (h1 : t.mem = s.mem.write p.toNat v) (h2 : SameMemOutside t u (p + 1) n) :
    SameMemOutside s u p (n + 1) := by
  intro a ha
  obtain ⟨hne, hw⟩ := within_succ p n a ha
  rw [h2 a hw, h1, Memory.read_write_other]
  intro e; exact hne (BitVec.eq_of_toNat_eq e)

/-! ## The byte write -/

theorem dmemWrite_of_populated {s : State} {a : Addr} (h : populated s a = true) (v : Byte) :
    dmemWrite s a v = .ok { s with mem := s.mem.write a.toNat v } := by simp [dmemWrite, h]

theorem dmemWrite_of_unpopulated {s : State} {a : Addr} (h : populated s a = false) (v : Byte) :
    dmemWrite s a v = .error (.raise .busError) := by simp [dmemWrite, h]

theorem writeOut_of_populated {s : State} (h : populated s s.outPtr = true) (v : Byte) :
    writeOut s v = .ok { s with
      mem := s.mem.write s.outPtr.toNat v, outPtr := s.outPtr + 1, acc := 0, accN := 0 } := by
  simp [writeOut, dmemWrite_of_populated h]

theorem writeOut_of_unpopulated {s : State} (h : populated s s.outPtr = false) (v : Byte) :
    writeOut s v = .error (.raise .busError) := by
  simp [writeOut, dmemWrite_of_unpopulated h]

/-! ## The partial byte -/

@[simp] theorem packedTail_length (s : State) : (packedTail s).length = s.accN.val := by
  simp [packedTail]

theorem packedTail_getD (s : State) (j : Nat) :
    (packedTail s).getD j false = (decide (j < s.accN.val) && byteBit s.acc j) := by
  by_cases h : j < s.accN.val <;> simp [packedTail, List.getD, h]

theorem packedTail_of_empty {s : State} (h : s.accN = 0) : packedTail s = [] := by
  simp [packedTail, h]

/-- ACC with a bit appended holds the old bits and then the new one. -/
theorem byteBit_accWith {s : State} (hc : AccClean s) (b : Bool) {j : Nat} (hj : j < 8) :
    byteBit (accWith s b) j = (packedTail s ++ [b]).getD j false := by
  have hN := s.accN.isLt
  have hclean := hc (7 - j)
  simp only [byteBit, accWith, BitVec.getLsbD_or, BitVec.getLsbD_shiftLeft, BitVec.getLsbD_setWidth,
    BitVec.getLsbD_ofBool]
  rcases lt_trichotomy j s.accN.val with h | h | h
  · rw [List.getD_append _ _ _ _ (by simpa using h), packedTail_getD]
    have : 7 - j - (7 - s.accN.val) ≠ 0 := by omega
    simp [h, byteBit, this]
  · rw [List.getD_append_right _ _ _ _ (by simp [h])]
    rw [hclean (by omega)]
    simp [h]; omega
  · rw [List.getD_append_right _ _ _ _ (by simp; omega)]
    rw [hclean (by omega)]
    have : 7 - j < 7 - s.accN.val := by omega
    have h1 : j - s.accN.val ≠ 0 := by omega
    simp [this]
    rw [List.getElem?_eq_none (by simp; omega)]; rfl

theorem accClean_of_empty {s : State} (h : s.acc = 0) : AccClean s := by
  intro j _; simp [h]

/-! ## append_bit -/

/-- append_bit while the byte is not full. -/
theorem appendBit_partial (s : State) (b : Bool) (h : s.accN.val + 1 < 8) :
    appendBit s b = .ok { s with
      acc := accWith s b, accN := ⟨s.accN.val + 1, h⟩, bitcnt := s.bitcnt + 1 } := by
  simp [appendBit, h]

/-- append_bit of a byte's eighth bit, at a populated address. -/
theorem appendBit_full (s : State) (b : Bool) (h : s.accN.val = 7)
    (hp : populated s s.outPtr = true) :
    appendBit s b = .ok { s with
      mem := s.mem.write s.outPtr.toNat (accWith s b), outPtr := s.outPtr + 1, acc := 0, accN := 0,
      bitcnt := s.bitcnt + 1 } := by
  have h8 : ¬ s.accN.val + 1 < 8 := by omega
  have hp' : populated { s with bitcnt := s.bitcnt + 1 } s.outPtr = true := hp
  rw [appendBit, dif_neg h8, writeOut_of_populated hp']

/-- append_bit of a byte's eighth bit, at an unpopulated address. -/
theorem appendBit_bus (s : State) (b : Bool) (h : s.accN.val = 7)
    (hp : populated s s.outPtr = false) : appendBit s b = .error (.raise .busError) := by
  have h8 : ¬ s.accN.val + 1 < 8 := by omega
  have hp' : populated { s with bitcnt := s.bitcnt + 1 } s.outPtr = false := hp
  rw [appendBit, dif_neg h8, writeOut_of_unpopulated hp']

/-- What append_bit can answer. -/
theorem appendBit_cases (s : State) (b : Bool) :
    (∃ h : s.accN.val + 1 < 8, appendBit s b = .ok { s with
      acc := accWith s b, accN := ⟨s.accN.val + 1, h⟩, bitcnt := s.bitcnt + 1 }) ∨
    (s.accN.val = 7 ∧ populated s s.outPtr = true ∧ appendBit s b = .ok { s with
      mem := s.mem.write s.outPtr.toNat (accWith s b), outPtr := s.outPtr + 1, acc := 0, accN := 0,
      bitcnt := s.bitcnt + 1 }) ∨
    (s.accN.val = 7 ∧ populated s s.outPtr = false ∧ appendBit s b = .error (.raise .busError)) := by
  by_cases h : s.accN.val + 1 < 8
  · exact .inl ⟨h, appendBit_partial s b h⟩
  · have h7 : s.accN.val = 7 := by omega
    cases hp : populated s s.outPtr
    · exact .inr (.inr ⟨h7, rfl, appendBit_bus s b h7 hp⟩)
    · exact .inr (.inl ⟨h7, rfl, appendBit_full s b h7 hp⟩)

theorem appendBit_raises {s : State} {b : Bool} {e : Stop} (h : appendBit s b = .error e) :
    e = .raise .busError := by
  rcases appendBit_cases s b with ⟨_, h'⟩ | ⟨_, _, h'⟩ | ⟨_, _, h'⟩ <;> rw [h'] at h <;> simp_all

theorem appendBit_accClean {s t : State} {b : Bool} (hc : AccClean s) (h : appendBit s b = .ok t) :
    AccClean t := by
  rcases appendBit_cases s b with ⟨h7, h'⟩ | ⟨_, _, h'⟩ | ⟨_, _, h'⟩
  · rw [h'] at h
    cases h
    intro j hj
    have hj' : j < 8 - (s.accN.val + 1) := hj
    have h1 := byteBit_accWith hc b (j := 7 - j) (by omega)
    have e : 7 - (7 - j) = j := by omega
    rw [byteBit, e] at h1
    show (accWith s b).getLsbD j = false
    rw [h1, List.getD_eq_default _ _ (by simp; omega)]
  · rw [h'] at h; cases h; exact accClean_of_empty rfl
  · rw [h'] at h; cases h

/-! ## Bit sequences -/

/-- The only error of appending is BUS_ERROR. -/
theorem appendBits_raises {s : State} {bs : List Bool} {e : Stop} (h : appendBits s bs = .error e) :
    e = .raise .busError := by
  induction bs generalizing s with
  | nil => simp [appendBits] at h
  | cons b bs ih =>
    simp only [appendBits] at h
    cases h1 : appendBit s b with
    | error e' => rw [h1] at h; cases h; exact appendBit_raises h1
    | ok t => rw [h1] at h; exact ih h

theorem appendBits_append (s : State) (bs cs : List Bool) :
    appendBits s (bs ++ cs) =
      match appendBits s bs with
      | .ok t => appendBits t cs
      | .error e => .error e := by
  induction bs generalizing s with
  | nil => simp [appendBits]
  | cons b bs ih =>
    simp only [List.cons_append, appendBits]
    cases appendBit s b with
    | error e => rfl
    | ok t => exact ih t

/-- Appending changes only the packer's registers and DMEM. -/
theorem appendBits_frame {s t : State} {bs : List Bool} (h : appendBits s bs = .ok t) :
    t = { s with acc := t.acc, accN := t.accN, outPtr := t.outPtr, bitcnt := t.bitcnt, mem := t.mem } := by
  induction bs generalizing s with
  | nil => cases h; rfl
  | cons b bs ih =>
    simp only [appendBits] at h
    rcases appendBit_cases s b with ⟨_, h'⟩ | ⟨_, _, h'⟩ | ⟨_, _, h'⟩ <;> simp only [h'] at h
    · rw [ih h]
    · rw [ih h]
    · cases h

/-- Where the bytes to be filled are populated, appending succeeds. -/
theorem appendBits_ok {s : State} {bs : List Bool}
    (hp : PopulatedFrom s s.outPtr ((s.accN.val + bs.length) / 8)) : ∃ t, appendBits s bs = .ok t := by
  induction bs generalizing s with
  | nil => exact ⟨s, rfl⟩
  | cons b bs ih =>
    simp only [appendBits]
    rcases appendBit_cases s b with ⟨h7, h'⟩ | ⟨h7, _, h'⟩ | ⟨h7, hu, h'⟩ <;> rw [h']
    · apply ih
      intro k hk
      refine hp k (lt_of_lt_of_le hk ?_)
      simp only [List.length_cons]
      apply Nat.div_le_div_right; omega
    · apply ih
      intro k hk
      have := hp (1 + k) (by simp only [List.length_cons, h7] at hk ⊢; simp at hk; omega)
      rw [← addr_add_ofNat] at this
      exact this
    · have := hp 0 (by simp [h7]; omega)
      simp [hu] at this

/-- Where a byte to be filled is unpopulated, appending raises BUS_ERROR. -/
theorem appendBits_bus {s : State} {bs : List Bool}
    (hp : ¬ PopulatedFrom s s.outPtr ((s.accN.val + bs.length) / 8)) :
    appendBits s bs = .error (.raise .busError) := by
  induction bs generalizing s with
  | nil =>
    exfalso; apply hp; intro k hk
    have := s.accN.isLt
    simp at hk; omega
  | cons b bs ih =>
    simp only [appendBits]
    rcases appendBit_cases s b with ⟨h7, h'⟩ | ⟨h7, hpop, h'⟩ | ⟨h7, hu, h'⟩ <;> rw [h']
    · apply ih
      intro hall; apply hp
      intro k hk
      refine hall k (lt_of_lt_of_le hk ?_)
      simp only [List.length_cons]
      apply Nat.div_le_div_right; omega
    · apply ih
      intro hall; apply hp
      intro k hk
      rcases k with _ | k
      · simpa using hpop
      · have := hall k (by simp only [List.length_cons, h7] at hk; simp; omega)
        rw [Nat.add_comm, ← addr_add_ofNat]
        exact this

/-- What appending a bit sequence does, when it succeeds. -/
theorem appendBits_appended {s t : State} {bs : List Bool} (hc : AccClean s)
    (hn : (packedTail s ++ bs).length / 8 ≤ 2 ^ 32) (h : appendBits s bs = .ok t) :
    Appended s t bs := by
  induction bs generalizing s with
  | nil =>
    have h0 : (packedTail s ++ []).length / 8 = 0 := by simp
    cases h
    refine ⟨?_, SameMemOutside.refl _ _ _, ?_, hc, ?_, ?_, rfl⟩
    · intro k hk; omega
    · rw [h0]; simp
    · rw [h0]; simp
    · simp
  | cons b bs ih =>
    simp only [appendBits] at h
    have hbit := fun j (hj : j < 8) => byteBit_accWith hc b (j := j) hj
    rcases appendBit_cases s b with ⟨h7, h'⟩ | ⟨h7, hpop, h'⟩ | ⟨_, _, h'⟩
    · have hc1 := appendBit_accClean hc h'
      rw [h'] at h
      have htail : packedTail { s with
          acc := accWith s b, accN := ⟨s.accN.val + 1, h7⟩, bitcnt := s.bitcnt + 1 } =
          packedTail s ++ [b] := by
        apply List.ext_getElem
        · simp
        · intro j hj hj'
          have hj8 : j < 8 := by simp at hj; omega
          have := hbit j hj8
          rw [List.getD_eq_getElem _ _ hj'] at this
          rw [← this]
          simp [packedTail]
      have hall : packedTail s ++ b :: bs = packedTail s ++ [b] ++ bs := by simp
      obtain ⟨h1, h2, h3, h4, h5, h6, h8⟩ := ih hc1 (by rw [htail, ← hall]; exact hn) h
      rw [htail, ← hall] at h1 h2 h3 h5
      refine ⟨h1, h2, h3, h4, h5, ?_, ?_⟩
      · rw [h6]
        simp only [List.length_cons]
        rw [BitVec.add_assoc, Nat.add_comm bs.length 1, BitVec.ofNat_add]
        rfl
      · rw [h8]
    · rw [h'] at h
      have h0 : packedTail { s with
          mem := s.mem.write s.outPtr.toNat (accWith s b), outPtr := s.outPtr + 1, acc := 0, accN := 0,
          bitcnt := s.bitcnt + 1 } = [] := packedTail_of_empty rfl
      obtain ⟨h1, h2, h3, h4, h5, h6, h8⟩ :=
        ih (accClean_of_empty rfl) (by
            rw [h0]
            simp at hn ⊢
            omega) h
      rw [h0, List.nil_append] at h1 h2 h3 h5
      have hlen : (packedTail s ++ b :: bs).length / 8 = bs.length / 8 + 1 := by
        simp [h7]; omega
      have hdrop : ∀ m, (packedTail s ++ b :: bs).drop (8 + m) = bs.drop m := by
        intro m
        have : packedTail s ++ b :: bs = (packedTail s ++ [b]) ++ bs := by simp
        rw [this, List.drop_append, List.drop_eq_nil_of_le (by simp [h7]), List.nil_append]
        congr 1
        simp [h7]
      have hgetD : ∀ m, (packedTail s ++ b :: bs).getD (8 + m) false = bs.getD m false := by
        intro m
        have : packedTail s ++ b :: bs = (packedTail s ++ [b]) ++ bs := by simp
        rw [this, List.getD_append_right _ _ _ _ (by simp [h7])]
        congr 1
        simp [h7]
      have hn' : bs.length / 8 < 2 ^ 32 := by rw [hlen] at hn; omega
      refine ⟨?_, ?_, ?_, h4, ?_, ?_, ?_⟩
      · intro k hk
        rw [hlen] at hk
        rcases k with _ | k
        · refine ⟨accWith s b, ?_, ?_⟩
          · have := h2 s.outPtr (within_next_self _ _ hn')
            simpa using this
          · intro j hj
            rw [hbit j hj]
            have : packedTail s ++ b :: bs = (packedTail s ++ [b]) ++ bs := by simp
            rw [this, Nat.mul_zero, Nat.zero_add]
            exact (List.getD_append _ _ _ _ (by simp [h7]; omega)).symm
        · obtain ⟨v, hv, hvb⟩ := h1 k (by omega)
          refine ⟨v, ?_, ?_⟩
          · rw [Nat.add_comm k 1, ← addr_add_ofNat]; exact hv
          · intro j hj
            rw [hvb j hj, ← hgetD]
            congr 1; omega
      · rw [hlen]; exact SameMemOutside.cons (t := { s with
          mem := s.mem.write s.outPtr.toNat (accWith s b), outPtr := s.outPtr + 1, acc := 0, accN := 0,
          bitcnt := s.bitcnt + 1 }) rfl h2
      · rw [hlen, h3, Nat.mul_add, Nat.add_comm, hdrop]
      · rw [hlen, h5, Nat.add_comm, ← addr_add_ofNat]
        rfl
      · rw [h6]
        simp only [List.length_cons]
        rw [BitVec.add_assoc, Nat.add_comm bs.length 1, BitVec.ofNat_add]
        rfl
      · rw [h8]
    · rw [h'] at h; cases h

end Sys2Proof.Machine
end

