-- ==== Sys2Proof/Laws/Unpacker.lean ====
section
/-! SUPPORT. What the unpacker's operations do, said through the stream of bits left to read. -/

namespace Sys2Proof.Machine

/-! ## The stream -/

theorem window_eq_zero {s : State} : (s.inEnd - s.inPtr).toNat = 0 ↔ s.inPtr = s.inEnd := by
  constructor
  · intro h
    have h0 : s.inEnd - s.inPtr = 0 := BitVec.eq_of_toNat_eq h
    rw [sub_eq_zero] at h0
    exact h0.symm
  · intro h; simp [h]

theorem window_succ {s : State} (h : s.inPtr ≠ s.inEnd) :
    (s.inEnd - (s.inPtr + 1)).toNat + 1 = (s.inEnd - s.inPtr).toNat := by
  have hpos : (s.inEnd - s.inPtr).toNat ≠ 0 := fun h0 => h (window_eq_zero.1 h0)
  have e : s.inEnd - s.inPtr = (s.inEnd - (s.inPtr + 1)) + 1 := by ring
  have h1 : BitVec.toNat (1 : Addr) = 1 := rfl
  rw [e, BitVec.toNat_add, h1] at hpos ⊢
  have := (s.inEnd - (s.inPtr + 1)).isLt
  omega

theorem streamBit_lt {s : State} {j : Nat} {b : Bool} (h : streamBit s j = some b) :
    j < bitsLeft s := by
  simp only [streamBit] at h
  split at h
  · simp only [bitsLeft]; omega
  · split at h
    · assumption
    · simp at h

theorem StreamBegins.length_le {s : State} {bs : List Bool} (h : StreamBegins s bs) :
    bs.length ≤ bitsLeft s := by
  rcases Nat.eq_zero_or_pos bs.length with h0 | h0
  · omega
  · have := streamBit_lt (h (bs.length - 1) (by omega)); omega

/-- The stream depends on the unpacker, DMEM and the populated range only. -/
theorem streamBit_congr {s t : State} (hc : t.cfg = s.cfg) (hm : t.mem = s.mem) (hu : t.ubuf = s.ubuf)
    (hn : t.ubufN = s.ubufN) (hp : t.inPtr = s.inPtr) (he : t.inEnd = s.inEnd) (j : Nat) :
    streamBit t j = streamBit s j := by
  have hE : ∀ a, engineByte t a = engineByte s a := fun a => by unfold engineByte populated; rw [hc, hm]
  unfold streamBit bitsLeft
  rw [hE, hu, hn, hp, he]

/-! ## fetch_bit -/

theorem dmemRead_eq (s : State) (a : Addr) {v : Byte} (h : engineByte s a = some v) :
    dmemRead s a = .ok v := by
  simp only [engineByte] at h
  split at h
  · simp_all [dmemRead]
  · simp at h

theorem dmemRead_unpopulated {s : State} {a : Addr} (h : populated s a = false) :
    dmemRead s a = .error (.raise .busError) := by simp [dmemRead, h]

theorem dmemRead_unwritten {s : State} {a : Addr} (h : populated s a = true)
    (hm : s.mem.read a.toNat = none) : dmemRead s a = .error (.fault .unwrittenDmemByte) := by
  simp [dmemRead, h, hm]

theorem byteBit_shift (v : Byte) {j : Nat} (h : j < 7) : byteBit (v <<< 1) j = byteBit v (j + 1) := by
  simp only [byteBit, BitVec.getLsbD_shiftLeft]
  have h1 : ¬ 7 - j < 1 := by omega
  have h2 : 7 - j < 8 := by omega
  have h3 : 7 - j - 1 = 7 - (j + 1) := by omega
  simp only [h1, h2, h3, decide_true, decide_false, Bool.not_false, Bool.true_and]

/-- fetch_bit with a bit in UBUF. -/
theorem fetchBit_buffered (s : State) (h : s.ubufN ≠ 0) : fetchBit s = .ok (takeBit s) := by
  simp [fetchBit, refill, h]

/-- fetch_bit with UBUF empty and a byte to fetch. -/
theorem fetchBit_fetching {s : State} (h : s.ubufN = 0) (hw : s.inPtr ≠ s.inEnd) {v : Byte}
    (hv : engineByte s s.inPtr = some v) :
    fetchBit s = .ok (takeBit { s with ubuf := v, inPtr := s.inPtr + 1, ubufN := 8 }) := by
  simp [fetchBit, refill, h, hw, dmemRead_eq s s.inPtr hv]

/-- The bit takeBit gives is the first of UBUF, and the rest of the stream moves up. -/
theorem takeBit_consumed (s : State) (h : s.ubufN ≠ 0) :
    (takeBit s).1 = byteBit s.ubuf 0 ∧ Consumed s (takeBit s).2 1 := by
  have hpos : 0 < s.ubufN.val := by
    rcases Nat.eq_zero_or_pos s.ubufN.val with h0 | h0
    · exact absurd (Fin.ext h0) h
    · exact h0
  have hlt := s.ubufN.isLt
  refine ⟨rfl, ?_, ?_⟩
  · simp only [bitsLeft, takeBit]; omega
  · intro j
    show streamBit (takeBit s).2 j = streamBit s (j + 1)
    have hleft : bitsLeft (takeBit s).2 + 1 = bitsLeft s := by simp only [bitsLeft, takeBit]; omega
    have hN : (takeBit s).2.ubufN.val = s.ubufN.val - 1 := rfl
    have hU : (takeBit s).2.ubuf = s.ubuf <<< 1 := rfl
    have hE : ∀ a, engineByte (takeBit s).2 a = engineByte s a := fun _ => rfl
    have hP : (takeBit s).2.inPtr = s.inPtr := rfl
    simp only [streamBit, hN, hU, hE, hP]
    by_cases h1 : j < s.ubufN.val - 1
    · rw [if_pos h1, if_pos (show j + 1 < s.ubufN.val by omega), byteBit_shift _ (by omega)]
    · rw [if_neg h1, if_neg (show ¬ j + 1 < s.ubufN.val by omega)]
      have e : j - (s.ubufN.val - 1) = j + 1 - s.ubufN.val := by omega
      by_cases h2 : j + 1 < bitsLeft s
      · rw [if_pos (show j < bitsLeft (takeBit s).2 by omega), if_pos h2, e]
      · rw [if_neg (show ¬ j < bitsLeft (takeBit s).2 by omega), if_neg h2]

/-- Fetching a byte leaves the stream as it is. -/
theorem streamBit_refilled {s : State} (h : s.ubufN = 0) (hw : s.inPtr ≠ s.inEnd) {v : Byte}
    (hv : engineByte s s.inPtr = some v) :
    bitsLeft { s with ubuf := v, inPtr := s.inPtr + 1, ubufN := 8 } = bitsLeft s ∧
    ∀ j, streamBit { s with ubuf := v, inPtr := s.inPtr + 1, ubufN := 8 } j = streamBit s j := by
  have hs := window_succ hw
  have hleft : bitsLeft { s with ubuf := v, inPtr := s.inPtr + 1, ubufN := 8 } = bitsLeft s := by
    simp only [bitsLeft, h]
    have : ((8 : Fin 9) : Nat) = 8 := rfl
    have h0 : ((0 : Fin 9) : Nat) = 0 := rfl
    omega
  refine ⟨hleft, fun j => ?_⟩
  have h8 : ((8 : Fin 9) : Nat) = 8 := rfl
  have h0 : ((0 : Fin 9) : Nat) = 0 := rfl
  have hE : ∀ a, engineByte { s with ubuf := v, inPtr := s.inPtr + 1, ubufN := 8 } a =
    engineByte s a := fun _ => rfl
  simp only [streamBit, hleft, h8, h, h0, hE, Nat.not_lt_zero, if_false, Nat.sub_zero]
  by_cases hj : j < 8
  · have hb : j < bitsLeft s := by simp only [bitsLeft, h, h0]; omega
    have e1 : j / 8 = 0 := by omega
    have e2 : j % 8 = j := by omega
    rw [if_pos hj, if_pos hb, e1, e2]
    simp [hv]
  · rw [if_neg hj]
    by_cases hb : j < bitsLeft s
    · rw [if_pos hb, if_pos hb]
      have e1 : (j - 8) % 8 = j % 8 := by omega
      have e2 : j / 8 = 1 + (j - 8) / 8 := by omega
      rw [e1, e2, ← addr_add_ofNat]
      rfl
    · rw [if_neg hb, if_neg hb]

/-- A transition that only moved the unpacker's registers. -/
def OnlyUnpacker (s t : State) : Prop :=
  t = { s with ubuf := t.ubuf, ubufN := t.ubufN, inPtr := t.inPtr }

theorem OnlyUnpacker.refl (s : State) : OnlyUnpacker s s := rfl

theorem OnlyUnpacker.trans {s t u : State} (h1 : OnlyUnpacker s t) (h2 : OnlyUnpacker t u) :
    OnlyUnpacker s u := by
  unfold OnlyUnpacker at *
  rw [h2, h1]

theorem OnlyUnpacker.mem {s t : State} (h : OnlyUnpacker s t) : t.mem = s.mem := by rw [h]

theorem OnlyUnpacker.cfg {s t : State} (h : OnlyUnpacker s t) : t.cfg = s.cfg := by rw [h]

theorem OnlyUnpacker.inEnd {s t : State} (h : OnlyUnpacker s t) : t.inEnd = s.inEnd := by rw [h]

theorem OnlyUnpacker.tn {s t : State} (h : OnlyUnpacker s t) : t.tn = s.tn := by rw [h]

/-- fetch_bit moves only the unpacker's registers. -/
theorem fetchBit_only {s t : State} {b : Bool} (h : fetchBit s = .ok (b, t)) : OnlyUnpacker s t := by
  simp only [fetchBit, refill] at h
  split at h
  · rename_i u hu
    split at hu
    · split at hu
      · cases hu
      · split at hu
        · cases hu; cases h; rfl
        · cases hu
    · cases hu; cases h; rfl
  · cases h

/-- The next bit of a readable stream is what fetch_bit answers, and the rest stays. -/
theorem fetchBit_of_stream {s : State} {b : Bool} (h : streamBit s 0 = some b) :
    ∃ t, fetchBit s = .ok (b, t) ∧ Consumed s t 1 ∧ OnlyUnpacker s t ∧ t.ubufN.val < 8 := by
  have hlt := streamBit_lt h
  by_cases h0 : s.ubufN = 0
  · have hz : ((0 : Fin 9) : Nat) = 0 := rfl
    have hw : s.inPtr ≠ s.inEnd := by
      intro e
      simp only [bitsLeft, h0, hz, window_eq_zero.2 e] at hlt
      omega
    simp only [streamBit, h0, hz, Nat.not_lt_zero, if_false, if_pos hlt] at h
    cases hv : engineByte s s.inPtr with
    | none => simp [hv] at h
    | some v =>
      obtain ⟨hleft, hstream⟩ := streamBit_refilled h0 hw hv
      have h8 : (8 : Fin 9) ≠ 0 := by decide
      obtain ⟨hb, hc1, hc2⟩ := takeBit_consumed
        { s with ubuf := v, inPtr := s.inPtr + 1, ubufN := 8 } h8
      have hbv : byteBit v 0 = b := by simpa [hv] using h
      refine ⟨(takeBit { s with ubuf := v, inPtr := s.inPtr + 1, ubufN := 8 }).2, ?_, ⟨?_, ?_⟩, rfl, ?_⟩
      · rw [fetchBit_fetching h0 hw hv, ← hbv, ← hb]
      · rw [hleft] at hc1; exact hc1
      · intro j
        have := hc2 j
        rw [hstream] at this
        exact this
      · show 8 - 1 < 8; omega
  · have hpos : 0 < s.ubufN.val := by
      rcases Nat.eq_zero_or_pos s.ubufN.val with e | e
      · exact absurd (Fin.ext e) h0
      · exact e
    simp only [streamBit, if_pos hpos] at h
    obtain ⟨hb, hc⟩ := takeBit_consumed s h0
    refine ⟨(takeBit s).2, ?_, hc, rfl, ?_⟩
    · rw [fetchBit_buffered s h0]
      have : (takeBit s).1 = b := by rw [hb]; exact Option.some.inj h
      rw [← this]
    · have := s.ubufN.isLt
      show s.ubufN.val - 1 < 8
      omega

/-- fetch_bit past the last bit raises TRUNCATED (43_unpacker.md R200). -/
theorem fetchBit_truncated {s : State} (h : bitsLeft s = 0) : fetchBit s = .error (.raise .truncated) := by
  have h0 : s.ubufN = 0 := by
    apply Fin.ext
    show s.ubufN.val = 0
    simp only [bitsLeft] at h; omega
  have hw : s.inPtr = s.inEnd := window_eq_zero.1 (by simp only [bitsLeft] at h; omega)
  simp [fetchBit, refill, h0, hw]

/-- fetch_bit that must fetch from an unpopulated address raises BUS_ERROR (R200). -/
theorem fetchBit_bus {s : State} (h : s.ubufN = 0) (hl : 0 < bitsLeft s)
    (hp : populated s s.inPtr = false) : fetchBit s = .error (.raise .busError) := by
  have hw : s.inPtr ≠ s.inEnd := by
    intro e
    have hz : ((0 : Fin 9) : Nat) = 0 := rfl
    simp only [bitsLeft, h, hz, window_eq_zero.2 e] at hl
    omega
  simp [fetchBit, refill, h, hw, dmemRead_unpopulated hp]

/-- fetch_bit that must fetch a byte never written is a fault of the model (20_memory.md R71). -/
theorem fetchBit_unwritten {s : State} (h : s.ubufN = 0) (hl : 0 < bitsLeft s)
    (hp : populated s s.inPtr = true) (hm : s.mem.read s.inPtr.toNat = none) :
    fetchBit s = .error (.fault .unwrittenDmemByte) := by
  have hw : s.inPtr ≠ s.inEnd := by
    intro e
    have hz : ((0 : Fin 9) : Nat) = 0 := rfl
    simp only [bitsLeft, h, hz, window_eq_zero.2 e] at hl
    omega
  simp [fetchBit, refill, h, hw, dmemRead_unwritten hp hm]

/-- The ways fetch_bit can end. -/
theorem fetchBit_cases (s : State) :
    (∃ b t, streamBit s 0 = some b ∧ fetchBit s = .ok (b, t)) ∨
    (bitsLeft s = 0 ∧ fetchBit s = .error (.raise .truncated)) ∨
    (fetchBit s = .error (.raise .busError)) ∨
    (fetchBit s = .error (.fault .unwrittenDmemByte)) := by
  cases hb : streamBit s 0 with
  | some b =>
    obtain ⟨t, ht, _⟩ := fetchBit_of_stream hb
    exact .inl ⟨b, t, rfl, ht⟩
  | none =>
    by_cases hl : bitsLeft s = 0
    · exact .inr (.inl ⟨hl, fetchBit_truncated hl⟩)
    · have h0 : s.ubufN = 0 := by
        by_contra h0
        have hpos : 0 < s.ubufN.val := by
          rcases Nat.eq_zero_or_pos s.ubufN.val with e | e
          · exact absurd (Fin.ext e) h0
          · exact e
        simp [streamBit, hpos] at hb
      have hz : ((0 : Fin 9) : Nat) = 0 := rfl
      simp only [streamBit, h0, hz, Nat.not_lt_zero, if_false, if_pos (Nat.pos_of_ne_zero hl)] at hb
      cases hp : populated s s.inPtr
      · exact .inr (.inr (.inl (fetchBit_bus h0 (by omega) hp)))
      · refine .inr (.inr (.inr (fetchBit_unwritten h0 (by omega) hp ?_)))
        simpa [engineByte, hp] using hb

/-- A fetched bit is the stream's first, and one bit fewer is left. -/
theorem fetchBit_ok {s t : State} {b : Bool} (h : fetchBit s = .ok (b, t)) :
    streamBit s 0 = some b ∧ Consumed s t 1 ∧ OnlyUnpacker s t ∧ t.ubufN.val < 8 := by
  rcases fetchBit_cases s with ⟨b', t', hb, ht⟩ | ⟨_, ht⟩ | ht | ht
  · rw [ht] at h
    cases h
    obtain ⟨u, hu, hc, ho, hn⟩ := fetchBit_of_stream hb
    rw [hu] at ht
    cases ht
    exact ⟨hb, hc, ho, hn⟩
  all_goals rw [ht] at h; cases h

/-! ## Several bits -/

theorem Consumed.zero (s : State) : Consumed s s 0 := ⟨rfl, fun _ => rfl⟩

theorem Consumed.trans {s t u : State} {m n : Nat} (h1 : Consumed s t m) (h2 : Consumed t u n)
    (ho : t.mem = s.mem) : Consumed s u (m + n) := by
  refine ⟨by have := h1.1; have := h2.1; omega, fun j => ?_⟩
  have e : ({ t with mem := s.mem } : State) = t := by rw [← ho]
  have h1' := h1.2 (j + n)
  rw [e] at h1'
  have h2' := h2.2 j
  rw [ho] at h2'
  rw [h2', h1']
  congr 1
  omega

theorem Consumed.begins {s t : State} {b : Bool} {bs : List Bool} (h : Consumed s t 1)
    (ho : t.mem = s.mem) (hs : StreamBegins s (b :: bs)) : StreamBegins t bs := by
  intro j hj
  have e : ({ t with mem := s.mem } : State) = t := by rw [← ho]
  have h' := h.2 j
  rw [e] at h'
  rw [h', hs (j + 1) (by simp; omega)]
  rfl

theorem Consumed.drop {s t : State} {bs cs : List Bool} (h : Consumed s t bs.length)
    (ho : t.mem = s.mem) (hs : StreamBegins s (bs ++ cs)) : StreamBegins t cs := by
  intro j hj
  have e : ({ t with mem := s.mem } : State) = t := by rw [← ho]
  have h' := h.2 j
  rw [e] at h'
  rw [h', hs (j + bs.length) (by simp; omega)]
  simp [List.getElem_append_right]

theorem StreamBegins.left {s : State} {bs cs : List Bool} (h : StreamBegins s (bs ++ cs)) :
    StreamBegins s bs := by
  intro j hj
  rw [h j (by simp; omega)]
  simp [List.getElem_append_left hj]

/-- The first bit of a stream that begins with b. -/
theorem StreamBegins.head {s : State} {b : Bool} {bs : List Bool} (h : StreamBegins s (b :: bs)) :
    streamBit s 0 = some b := h 0 (by simp)

/-- Taking the bits a stream begins with, one fetch_bit after the other. -/
theorem fetchMany_of_stream {s : State} {bs : List Bool} (h : StreamBegins s bs) :
    ∃ t, fetchMany bs.length s = .ok (bs, t) ∧ Consumed s t bs.length ∧ OnlyUnpacker s t ∧
      (bs ≠ [] → t.ubufN.val < 8) := by
  induction bs generalizing s with
  | nil => exact ⟨s, rfl, Consumed.zero s, rfl, fun h => absurd rfl h⟩
  | cons b bs ih =>
    obtain ⟨t, ht, hc, ho, hn⟩ := fetchBit_of_stream h.head
    obtain ⟨u, hu, hc', ho', hn'⟩ := ih (hc.begins ho.mem h)
    refine ⟨u, ?_, ?_, ho.trans ho', fun _ => ?_⟩
    · simp only [List.length_cons, fetchMany, ht, hu]
    · have := hc.trans hc' ho.mem
      rwa [Nat.add_comm] at this
    · rcases bs with _ | ⟨c, bs⟩
      · cases hu; exact hn
      · exact hn' (by simp)

/-- fetchBits is fetchMany with the bits shifted into a word. -/
theorem fetchBits_eq (n : Nat) (v : Word) (s : State) :
    fetchBits n v s =
      match fetchMany n s with
      | .ok (bs, t) => .ok (bs.foldl (fun v b => (v <<< 1) ||| (BitVec.ofBool b).setWidth 32) v, t)
      | .error e => .error e := by
  induction n generalizing v s with
  | zero => rfl
  | succ n ih =>
    simp only [fetchBits, fetchMany]
    cases fetchBit s with
    | error e => rfl
    | ok p =>
      obtain ⟨b, t⟩ := p
      simp only [ih]
      cases fetchMany n t with
      | error e => rfl
      | ok q => rfl

/-- An error after the bits a stream begins with is the error of the whole. -/
theorem fetchMany_error {s : State} {bs : List Bool} (h : StreamBegins s bs) {n : Nat}
    (hn : bs.length < n) {e : Stop}
    (he : ∀ t, Consumed s t bs.length → OnlyUnpacker s t → fetchMany bs.length s = .ok (bs, t) →
      fetchBit t = .error e) : fetchMany n s = .error e := by
  induction bs generalizing s n with
  | nil =>
    obtain ⟨m, rfl⟩ : ∃ m, n = m + 1 := ⟨n - 1, by simp at hn; omega⟩
    simp only [fetchMany, he s (Consumed.zero s) rfl rfl]
  | cons b bs ih =>
    obtain ⟨m, rfl⟩ : ∃ m, n = m + 1 := ⟨n - 1, by simp at hn; omega⟩
    obtain ⟨t, ht, hc, ho, _⟩ := fetchBit_of_stream h.head
    simp only [fetchMany, ht]
    rw [ih (hc.begins ho.mem h) (by simp at hn; omega)]
    intro u hu hou hfu
    refine he u ?_ (ho.trans hou) ?_
    · have := hc.trans hu ho.mem
      rwa [Nat.add_comm] at this
    · simp only [List.length_cons, fetchMany, ht, hfu]

/-- Where the unpacker stands after bits that end at a byte boundary. -/
theorem OnlyUnpacker.boundary {s t : State} {bs : List Bool} (hc : Consumed s t bs.length)
    (ho : OnlyUnpacker s t) (hn : bs ≠ [] → t.ubufN.val < 8) (h1 : s.ubufN.val ≤ bs.length)
    (h2 : (bs.length - s.ubufN.val) % 8 = 0) (h0 : bs = [] → t = s) :
    t.ubufN = 0 ∧ t.inPtr = s.inPtr + BitVec.ofNat 32 ((bs.length - s.ubufN.val) / 8) := by
  have hcons := hc.1
  simp only [bitsLeft, ho.inEnd] at hcons
  have hN : t.ubufN.val = 0 := by
    by_cases hb : bs = []
    · rw [h0 hb]; simp [hb] at h1; simp [h1]
    · have := hn hb; omega
  refine ⟨Fin.ext hN, ?_⟩
  have hw : (s.inEnd - t.inPtr).toNat + (bs.length - s.ubufN.val) / 8 = (s.inEnd - s.inPtr).toNat := by
    omega
  have hd : s.inEnd - s.inPtr = (s.inEnd - t.inPtr) + BitVec.ofNat 32 ((bs.length - s.ubufN.val) / 8) := by
    apply BitVec.eq_of_toNat_eq
    rw [BitVec.toNat_add, BitVec.toNat_ofNat, ← hw]
    have := (s.inEnd - s.inPtr).isLt
    rw [Nat.mod_eq_of_lt (a := (bs.length - s.ubufN.val) / 8) (by omega), Nat.mod_eq_of_lt (by omega)]
  have : t.inPtr - s.inPtr = BitVec.ofNat 32 ((bs.length - s.ubufN.val) / 8) := by
    calc t.inPtr - s.inPtr = (s.inEnd - s.inPtr) - (s.inEnd - t.inPtr) := by ring
      _ = _ := by rw [hd]; ring
  rw [← this]; ring

end Sys2Proof.Machine
end

