-- ==== Sys2Proof/Laws/Tree.lean ====
section
/-! SUPPORT. What the tree walk does, said through paths in the Tree Table, and how a placed Huffman tree
gives such paths. -/

namespace Sys2Proof.Machine

/-! ## load_node and paths -/

theorem loadNode_congr {s t : State} (h : t.tn = s.tn) (i : Slot) : loadNode t i = loadNode s i := by
  simp only [loadNode, h]

theorem loadNode_raises {s : State} {i : Slot} {e : Stop} (h : loadNode s i = .error e) :
    e = .raise .badTree := by
  simp only [loadNode] at h
  split at h
  · split at h <;> cases h; rfl
  · cases h; rfl

theorem slotAfter_congr {s t : State} (h : t.tn = s.tn) (i : Slot) (bs : List Bool) :
    slotAfter t i bs = slotAfter s i bs := by
  induction bs generalizing i with
  | nil => rfl
  | cons b bs ih =>
    simp only [slotAfter, loadNode_congr h, ih]

/-- A path of at least one bit starts at an internal node. -/
theorem slotAfter_cons {s : State} {i j : Slot} {b : Bool} {bs : List Bool}
    (h : slotAfter s i (b :: bs) = some j) :
    ∃ nd, loadNode s i = .ok nd ∧ nodeLeaf nd = false ∧ slotAfter s (nodeChild nd b) bs = some j := by
  simp only [slotAfter] at h
  cases hn : loadNode s i with
  | error e => simp [hn] at h
  | ok nd =>
    rw [hn] at h
    cases hl : nodeLeaf nd
    · exact ⟨nd, rfl, hl, by simpa [hl] using h⟩
    · simp [hl] at h

theorem slotAfter_step {s : State} {i : Slot} {nd : Word} (h : loadNode s i = .ok nd)
    (hl : nodeLeaf nd = false) (b : Bool) (bs : List Bool) :
    slotAfter s i (b :: bs) = slotAfter s (nodeChild nd b) bs := by
  simp [slotAfter, h, hl]

/-! ## The walk -/

/-- The walk along a path to a leaf. -/
theorem walk_leaf {bs : List Bool} {b : Bool} {n : Nat} {nd leaf : Word} {s : State} {i : Slot}
    (hp : slotAfter s (nodeChild nd b) bs = some i) (hi : loadNode s i = .ok leaf)
    (hl : nodeLeaf leaf = true) (hs : StreamBegins s (b :: bs)) (hn : bs.length < n) :
    ∃ t, walk n nd s = .ok (nodeSym leaf, t) ∧ Consumed s t (bs.length + 1) ∧ OnlyUnpacker s t := by
  induction bs generalizing b n nd s with
  | nil =>
    obtain ⟨m, rfl⟩ : ∃ m, n = m + 1 := ⟨n - 1, by simp at hn; omega⟩
    obtain ⟨t, ht, hc, ho, _⟩ := fetchBit_of_stream hs.head
    simp only [slotAfter, Option.some.injEq] at hp
    refine ⟨t, ?_, hc, ho⟩
    simp only [walk, ht, loadNode_congr ho.tn, hp, hi, hl, if_true]
  | cons c bs ih =>
    obtain ⟨m, rfl⟩ : ∃ m, n = m + 1 := ⟨n - 1, by simp at hn; omega⟩
    obtain ⟨t, ht, hc, ho, _⟩ := fetchBit_of_stream hs.head
    obtain ⟨child, hchild, hcl, hp'⟩ := slotAfter_cons hp
    obtain ⟨u, hu, hcu, hou⟩ := ih (s := t) (n := m) (nd := child)
      (by rw [slotAfter_congr ho.tn]; exact hp')
      (by rw [loadNode_congr ho.tn]; exact hi) (hc.begins ho.mem hs) (by simp at hn; omega)
    refine ⟨u, ?_, ?_, ho.trans hou⟩
    · simp only [walk, ht, loadNode_congr ho.tn, hchild, hcl, Bool.false_eq_true, if_false]
      exact hu
    · have := hc.trans hcu ho.mem
      rwa [Nat.add_comm] at this

/-- The walk along a path to a slot that holds no node. -/
theorem walk_badTree {bs : List Bool} {b : Bool} {n : Nat} {nd : Word} {s : State} {i : Slot} {e : Stop}
    (hp : slotAfter s (nodeChild nd b) bs = some i) (hi : loadNode s i = .error e)
    (hs : StreamBegins s (b :: bs)) (hn : bs.length < n) : walk n nd s = .error e := by
  induction bs generalizing b n nd s with
  | nil =>
    obtain ⟨m, rfl⟩ : ∃ m, n = m + 1 := ⟨n - 1, by simp at hn; omega⟩
    obtain ⟨t, ht, hc, ho, _⟩ := fetchBit_of_stream hs.head
    simp only [slotAfter, Option.some.injEq] at hp
    simp only [walk, ht, loadNode_congr ho.tn, hp, hi]
  | cons c bs ih =>
    obtain ⟨m, rfl⟩ : ∃ m, n = m + 1 := ⟨n - 1, by simp at hn; omega⟩
    obtain ⟨t, ht, hc, ho, _⟩ := fetchBit_of_stream hs.head
    obtain ⟨child, hchild, hcl, hp'⟩ := slotAfter_cons hp
    simp only [walk, ht, loadNode_congr ho.tn, hchild, hcl, Bool.false_eq_true, if_false]
    exact ih (by rw [slotAfter_congr ho.tn]; exact hp') (by rw [loadNode_congr ho.tn]; exact hi)
      (hc.begins ho.mem hs) (by simp at hn; omega)

/-- The walk that stops fetching a bit after a path inside the tree. -/
theorem walk_fetchStop {bs : List Bool} {n : Nat} {nd : Word} {s : State} {e : Stop}
    (hp : ∀ b cs, bs = b :: cs → ∃ i last, slotAfter s (nodeChild nd b) cs = some i ∧
      loadNode s i = .ok last ∧ nodeLeaf last = false)
    (hs : StreamBegins s bs) (hn : bs.length ≤ n) (h0 : bs.length = n → e = .raise .truncated)
    (he : ∀ t, Consumed s t bs.length → OnlyUnpacker s t → fetchMany bs.length s = .ok (bs, t) →
      fetchBit t = .error e) : walk n nd s = .error e := by
  induction bs generalizing n nd s with
  | nil =>
    rcases n with _ | n
    · rw [h0 rfl]; rfl
    · simp only [walk, he s (Consumed.zero s) rfl rfl]
  | cons b bs ih =>
    obtain ⟨m, rfl⟩ : ∃ m, n = m + 1 := ⟨n - 1, by simp at hn; omega⟩
    obtain ⟨t, ht, hc, ho, _⟩ := fetchBit_of_stream hs.head
    obtain ⟨i, last, hi, hlast, hll⟩ := hp b bs rfl
    have hchild : ∃ child, loadNode s (nodeChild nd b) = .ok child ∧ nodeLeaf child = false := by
      rcases bs with _ | ⟨c, bs⟩
      · simp only [slotAfter, Option.some.injEq] at hi
        exact ⟨last, by rw [hi]; exact hlast, hll⟩
      · obtain ⟨child, h1, h2, _⟩ := slotAfter_cons hi
        exact ⟨child, h1, h2⟩
    obtain ⟨child, hch, hcl⟩ := hchild
    simp only [walk, ht, loadNode_congr ho.tn, hch, hcl, Bool.false_eq_true, if_false]
    refine ih ?_ (hc.begins ho.mem hs) (by simp at hn; omega) (fun h => h0 (by simp; omega)) ?_
    · rintro c cs rfl
      rw [slotAfter_step hch hcl] at hi
      refine ⟨i, last, ?_, ?_, hll⟩
      · rw [slotAfter_congr ho.tn]; exact hi
      · rw [loadNode_congr ho.tn]; exact hlast
    · intro u hu hou hfu
      refine he u ?_ (ho.trans hou) ?_
      · have := hc.trans hu ho.mem
        rwa [Nat.add_comm] at this
      · simp only [List.length_cons, fetchMany, ht, hfu]

/-- A walk that succeeds moves only the unpacker. -/
theorem walk_only {n : Nat} {nd : Word} {s t : State} {sym : Sym} (h : walk n nd s = .ok (sym, t)) :
    OnlyUnpacker s t := by
  induction n generalizing nd s with
  | zero => simp [walk] at h
  | succ n ih =>
    simp only [walk] at h
    cases hf : fetchBit s with
    | error e => simp [hf] at h
    | ok p =>
      obtain ⟨b, u⟩ := p
      have hu := fetchBit_only hf
      rw [hf] at h
      simp only at h
      cases hl : loadNode u (nodeChild nd b) with
      | error e => simp [hl] at h
      | ok child =>
        rw [hl] at h
        simp only at h
        split at h
        · cases h; exact hu
        · exact hu.trans (ih h)

/-! ## The errors of the traversal -/

/-- The errors fetch_bit raises. -/
theorem fetchBit_raises {s : State} {e : Stop} (h : fetchBit s = .error e) :
    e = .raise .truncated ∨ e = .raise .busError ∨ e = .fault .unwrittenDmemByte := by
  rcases fetchBit_cases s with ⟨b, t, _, ht⟩ | ⟨_, ht⟩ | ht | ht <;> rw [ht] at h <;> cases h <;> simp

/-- The errors a walk raises. -/
theorem walk_raises {n : Nat} {nd : Word} {s : State} {e : Stop} (h : walk n nd s = .error e) :
    e = .raise .truncated ∨ e = .raise .busError ∨ e = .fault .unwrittenDmemByte ∨
      e = .raise .badTree := by
  induction n generalizing nd s with
  | zero => simp [walk] at h; simp [h]
  | succ n ih =>
    simp only [walk] at h
    cases hf : fetchBit s with
    | error e' =>
      rw [hf] at h
      cases h
      rcases fetchBit_raises hf with h | h | h <;> simp [h]
    | ok p =>
      obtain ⟨b, u⟩ := p
      rw [hf] at h
      simp only at h
      cases hl : loadNode u (nodeChild nd b) with
      | error e' =>
        rw [hl] at h
        cases h
        simp [loadNode_raises hl]
      | ok child =>
        rw [hl] at h
        simp only at h
        split at h
        · cases h
        · exact ih h

/-- The errors a traversal raises. -/
theorem traverseTree_raises {s : State} {e : Stop} (h : traverseTree s = .error e) :
    e = .raise .truncated ∨ e = .raise .busError ∨ e = .fault .unwrittenDmemByte ∨
      e = .raise .badTree ∨ e = .raise .badCode := by
  simp only [traverseTree] at h
  cases hl : loadNode s s.root with
  | error e' => rw [hl] at h; cases h; simp [loadNode_raises hl]
  | ok nd =>
    rw [hl] at h
    simp only at h
    split at h
    · simp only [loneLeaf] at h
      cases hf : fetchBit s with
      | error e' => rw [hf] at h; cases h; rcases fetchBit_raises hf with h | h | h <;> simp [h]
      | ok p =>
        rw [hf] at h
        simp only at h
        split at h
        · cases h; simp
        · cases h
    · rcases walk_raises h with h | h | h | h <;> simp [h]

/-- A traversal that succeeds moves only the unpacker. -/
theorem traverseTree_only {s t : State} {sym : Sym} (h : traverseTree s = .ok (sym, t)) : OnlyUnpacker s t := by
  simp only [traverseTree] at h
  cases hl : loadNode s s.root with
  | error e => simp [hl] at h
  | ok nd =>
    rw [hl] at h
    simp only at h
    split at h
    · simp only [loneLeaf] at h
      cases hf : fetchBit s with
      | error e => simp [hf] at h
      | ok p =>
        rw [hf] at h
        simp only at h
        split at h
        · cases h
        · cases h; exact fetchBit_only hf
    · exact walk_only h

/-! ## A symbol decoded -/

/-- The symbol write, at a populated address. -/
theorem emitSymbol_of_populated {s : State} (h : populated s s.symPtr = true) (sym : Sym) :
    emitSymbol sym s = .ok { s with
      mem := s.mem.write s.symPtr.toNat sym, symPtr := s.symPtr + 1, symRemain := s.symRemain - 1,
      result := sym.setWidth 32 } := by
  simp [emitSymbol, dmemWrite_of_populated h]

theorem emitSymbol_of_unpopulated {s : State} (h : populated s s.symPtr = false) (sym : Sym) :
    emitSymbol sym s = .error (.raise .busError) := by
  simp [emitSymbol, dmemWrite_of_unpopulated h]

/-- What decoding one symbol does, when symbols are left: the traversal's stop, a BUS_ERROR at the
symbol write, or the symbol written and counted. -/
theorem decodeSymbol_cases (s : State) (h : s.symRemain ≠ 0) :
    (∃ e, traverseTree s = .error e ∧ decodeSymbol s = .error e) ∨
    (∃ sym t, traverseTree s = .ok (sym, t) ∧ OnlyUnpacker s t ∧
      ((populated s s.symPtr = false ∧ decodeSymbol s = .error (.raise .busError)) ∨
       (populated s s.symPtr = true ∧ decodeSymbol s = .ok { t with
          mem := s.mem.write s.symPtr.toNat sym, symPtr := s.symPtr + 1,
          symRemain := s.symRemain - 1, result := sym.setWidth 32 }))) := by
  simp only [decodeSymbol, if_neg h]
  cases ht : traverseTree s with
  | error e => exact .inl ⟨e, rfl, rfl⟩
  | ok p =>
    obtain ⟨sym, t⟩ := p
    have ho := traverseTree_only ht
    refine .inr ⟨sym, t, rfl, ho, ?_⟩
    have hp : t.symPtr = s.symPtr := by rw [ho]
    have hr : t.symRemain = s.symRemain := by rw [ho]
    have hpop : ∀ a, populated t a = populated s a := fun a => by rw [populated, populated, ho.cfg]
    cases hq : populated s s.symPtr
    · refine .inl ⟨rfl, ?_⟩
      simp only
      rw [emitSymbol_of_unpopulated (by rw [hpop, hp, hq])]
    · refine .inr ⟨rfl, ?_⟩
      simp only
      rw [emitSymbol_of_populated (by rw [hpop, hp, hq]), hp, hr, ho.mem]

/-! ## Placed Huffman trees -/

theorem Placed.congr {s t : State} (h : t.tn = s.tn) {T : HuffTree} {i : Slot} (hp : Placed s T i) :
    Placed t T i := by
  induction T generalizing i with
  | leaf y =>
    obtain ⟨nd, h1, h2, h3⟩ := hp
    exact ⟨nd, by rw [loadNode_congr h]; exact h1, h2, h3⟩
  | node l r ihl ihr =>
    obtain ⟨nd, h1, h2, h3, h4⟩ := hp
    exact ⟨nd, by rw [loadNode_congr h]; exact h1, h2, ihl h3, ihr h4⟩

/-- A placed tree's path to a leaf is a path through the slots to a leaf node. -/
theorem Placed.path {s : State} {T : HuffTree} {i : Slot} (hp : Placed s T i) {bs : List Bool} {sym : Sym}
    (h : T.leafAt bs = some sym) :
    ∃ j nd, slotAfter s i bs = some j ∧ loadNode s j = .ok nd ∧ nodeLeaf nd = true ∧ nodeSym nd = sym := by
  induction T generalizing i bs with
  | leaf y =>
    obtain ⟨nd, h1, h2, h3⟩ := hp
    rcases bs with _ | ⟨b, bs⟩
    · simp only [HuffTree.leafAt, Option.some.injEq] at h
      exact ⟨i, nd, rfl, h1, h2, by rw [h3, h]⟩
    · simp [HuffTree.leafAt] at h
  | node l r ihl ihr =>
    obtain ⟨nd, h1, h2, h3, h4⟩ := hp
    rcases bs with _ | ⟨b, bs⟩
    · simp [HuffTree.leafAt] at h
    · simp only [HuffTree.leafAt] at h
      rw [slotAfter_step h1 h2]
      cases b
      · exact ihl h3 (by simpa using h)
      · exact ihr h4 (by simpa using h)

/-- A bit sequence that ends inside a placed tree leads to a slot with an internal node. -/
theorem Placed.inside {s : State} {T : HuffTree} {i : Slot} (hp : Placed s T i) {bs : List Bool}
    (h : T.endsInside bs = true) :
    ∃ j nd, slotAfter s i bs = some j ∧ loadNode s j = .ok nd ∧ nodeLeaf nd = false := by
  induction T generalizing i bs with
  | leaf y => simp [HuffTree.endsInside] at h
  | node l r ihl ihr =>
    obtain ⟨nd, h1, h2, h3, h4⟩ := hp
    rcases bs with _ | ⟨b, bs⟩
    · exact ⟨i, nd, rfl, h1, h2⟩
    · simp only [HuffTree.endsInside] at h
      rw [slotAfter_step h1 h2]
      cases b
      · exact ihl h3 (by simpa using h)
      · exact ihr h4 (by simpa using h)

/-- A traversal over the bits of a symbol's code yields the symbol. -/
theorem traverseTree_code {s : State} {T : HuffTree} {sym : Sym} {code : List Bool}
    (hp : Placed s T s.root) (hc : T.hasCode sym code) (hs : StreamBegins s code) :
    ∃ t, traverseTree s = .ok (sym, t) ∧ Consumed s t code.length ∧ OnlyUnpacker s t := by
  cases T with
  | leaf y =>
    obtain ⟨nd, h1, h2, h3⟩ := hp
    obtain ⟨rfl, rfl⟩ := hc
    obtain ⟨t, ht, hct, ho, _⟩ := fetchBit_of_stream hs.head
    refine ⟨t, ?_, hct, ho⟩
    simp only [traverseTree, h1, h2, if_true, loneLeaf, ht, Bool.false_eq_true, if_false, h3]
  | node l r =>
    obtain ⟨j, leaf, hj, hl1, hl2, hl3⟩ := hp.path (bs := code) hc
    obtain ⟨nd, h1, h2, _⟩ := hp
    have hlen := hs.length_le
    rcases code with _ | ⟨b, bs⟩
    · simp [HuffTree.hasCode, HuffTree.leafAt] at hc
    · rw [slotAfter_step h1 h2] at hj
      obtain ⟨t, ht, hct, ho⟩ := walk_leaf (nd := nd) (n := bitsLeft s) hj hl1 hl2 hs (by simpa using hlen)
      refine ⟨t, ?_, hct, ho⟩
      simp only [traverseTree, h1, h2, Bool.false_eq_true, if_false, ht, hl3]

/-- A traversal over a stream that ends before any code does raises TRUNCATED. -/
theorem traverseTree_undecided {s : State} {T : HuffTree} {rest : List Bool} (hp : Placed s T s.root)
    (hu : T.undecided rest) (hs : StreamBegins s rest) (hl : bitsLeft s = rest.length) :
    traverseTree s = .error (.raise .truncated) := by
  have hend : ∀ t, Consumed s t rest.length → OnlyUnpacker s t → fetchMany rest.length s = .ok (rest, t) →
      fetchBit t = .error (.raise .truncated) :=
    fun t hc _ _ => fetchBit_truncated (by have := hc.1; omega)
  cases T with
  | leaf y =>
    obtain ⟨nd, h1, h2, h3⟩ := hp
    have : rest = [] := hu
    subst this
    simp only [traverseTree, h1, h2, if_true, loneLeaf, fetchBit_truncated hl]
  | node l r =>
    obtain ⟨j, last, hj, hl1, hl2⟩ := hp.inside (bs := rest) hu
    obtain ⟨nd, h1, h2, _⟩ := hp
    simp only [traverseTree, h1, h2, Bool.false_eq_true, if_false]
    refine walk_fetchStop ?_ hs (by omega) (fun _ => rfl) hend
    rintro b cs rfl
    rw [slotAfter_step h1 h2] at hj
    exact ⟨j, last, hj, hl1, hl2⟩

end Sys2Proof.Machine
end

