-- ==== Sys2Proof/Laws/Commands.lean ====
section
/-! SUPPORT. What each command and each shared operation can answer: one lemma per operation, cited
instead of unfolding it. -/

namespace Sys2Proof.Machine

/-! ## settle, onNext, sequences -/

/-- A settled command committed its work, or raised an error with no other effect. -/
theorem settle_next {s t : State} {work : Except Stop State} (h : settle s work = .next t) :
    work = .ok t ∨ ∃ e, work = .error (.raise e) ∧ t = enterError e s := by
  cases work with
  | ok u => cases h; exact .inl rfl
  | error e =>
    cases e with
    | raise e => cases h; exact .inr ⟨e, rfl, rfl⟩
    | fault f => cases h

theorem settle_fault {s : State} {work : Except Stop State} {f : Fault} (h : settle s work = .fault f) :
    work = .error (.fault f) := by
  cases work with
  | ok u => cases h
  | error e => cases e <;> cases h; rfl

theorem settle_not_refused {s : State} {work : Except Stop State} {r : Refusal} :
    settle s work ≠ .refused r := by
  cases work with
  | ok u => simp [settle]
  | error e => cases e <;> simp [settle]

theorem onNext_next {f : State → State} {r : Result} {t : State} (h : onNext f r = .next t) :
    ∃ u, r = .next u ∧ t = f u := by
  cases r <;> cases h; exact ⟨_, rfl, rfl⟩

theorem execAll_append (a b : List Instr) (s : State) :
    execAll (a ++ b) s =
      match execAll a s with
      | .next t => execAll b t
      | .fault r => .fault r
      | .refused r => .refused r := by
  induction a generalizing s with
  | nil => rfl
  | cons i a ih =>
    simp only [List.cons_append, execAll]
    cases exec i s <;> simp [ih]

/-! ## Bit sequences of immediates and codes -/

@[simp] theorem immediateBits_length (n : BitVec 5) (v : BitVec 16) :
    (immediateBits n v).length = n.toNat := by simp [immediateBits]

@[simp] theorem codeBits_length (e : CodeEntry) : (codeBits e).length = e.len.toNat := by
  simp [codeBits]

/-- The bits left in ACC after appending. -/
theorem Appended.accN {s t : State} {bs : List Bool} (h : Appended s t bs) :
    t.accN.val = (s.accN.val + bs.length) % 8 := by
  have := congrArg List.length h.2.2.1
  simp at this
  omega

/-! ## Several fetch_bits -/

theorem fetchMany_raises {n : Nat} {s : State} {e : Stop} (h : fetchMany n s = .error e) :
    e = .raise .truncated ∨ e = .raise .busError ∨ e = .fault .unwrittenDmemByte := by
  induction n generalizing s with
  | zero => cases h
  | succ n ih =>
    simp only [fetchMany] at h
    cases hf : fetchBit s with
    | error e' => rw [hf] at h; cases h; exact fetchBit_raises hf
    | ok p =>
      obtain ⟨b, t⟩ := p
      rw [hf] at h
      simp only at h
      cases hm : fetchMany n t with
      | error e' => rw [hm] at h; cases h; exact ih hm
      | ok q => rw [hm] at h; cases h

theorem fetchMany_only {n : Nat} {s t : State} {bs : List Bool} (h : fetchMany n s = .ok (bs, t)) :
    OnlyUnpacker s t := by
  induction n generalizing s bs with
  | zero => cases h; rfl
  | succ n ih =>
    simp only [fetchMany] at h
    cases hf : fetchBit s with
    | error e' => rw [hf] at h; cases h
    | ok p =>
      obtain ⟨b, u⟩ := p
      rw [hf] at h
      simp only at h
      cases hm : fetchMany n u with
      | error e' => rw [hm] at h; cases h
      | ok q => rw [hm] at h; cases h; exact (fetchBit_only hf).trans (ih hm)

/-! ## One symbol -/

theorem decodeSymbol_raises {s : State} {e : Stop} (h : decodeSymbol s = .error e) :
    e = .raise .truncated ∨ e = .raise .busError ∨ e = .fault .unwrittenDmemByte ∨
      e = .raise .badTree ∨ e = .raise .badCode := by
  by_cases h0 : s.symRemain = 0
  · simp [decodeSymbol, h0] at h
  rcases decodeSymbol_cases s h0 with ⟨_, ht, hd⟩ | ⟨_, _, _, _, ⟨_, hd⟩ | ⟨_, hd⟩⟩ <;>
    rw [h] at hd <;> cases hd
  · exact traverseTree_raises ht
  · simp

/-- A decoded symbol: what may change, and the symbol written and counted. -/
theorem decodeSymbol_ok {s t : State} (h : decodeSymbol s = .ok t) :
    t = { s with mem := t.mem, symPtr := t.symPtr, symRemain := t.symRemain, result := t.result,
                 ubuf := t.ubuf, ubufN := t.ubufN, inPtr := t.inPtr } ∧
    (s.symRemain ≠ 0 → t.symPtr = s.symPtr + 1 ∧ t.symRemain = s.symRemain - 1 ∧
      ∃ y : Sym, t.mem = s.mem.write s.symPtr.toNat y) := by
  by_cases h0 : s.symRemain = 0
  · simp only [decodeSymbol, if_pos h0] at h
    cases h
    exact ⟨rfl, fun hh => absurd h0 hh⟩
  · rcases decodeSymbol_cases s h0 with ⟨_, _, hd⟩ | ⟨y, u, _, ho, ⟨_, hd⟩ | ⟨_, hd⟩⟩ <;>
      rw [hd] at h <;> cases h
    refine ⟨?_, fun _ => ⟨rfl, rfl, y, rfl⟩⟩
    simp only [State.mk.injEq]
    rw [show u = _ from ho]
    simp

/-! ## The commands that can raise an error -/

theorem putbits_next {n : BitVec 5} {v : BitVec 16} {s t : State} (h : exec (.putbits n v) s = .next t) :
    (legalCount n = false ∧ t = enterError .illegalCmd s) ∨
    (legalCount n = true ∧
      (t = enterError .busError s ∨ appendBits s (immediateBits n v) = .ok t)) := by
  simp only [exec, execPutbits, whenLegal] at h
  cases hl : legalCount n with
  | false => rw [hl] at h; cases h; exact .inl ⟨rfl, rfl⟩
  | true =>
    rw [hl] at h
    rcases settle_next h with hw | ⟨e, hw, rfl⟩
    · exact .inr ⟨rfl, .inr hw⟩
    · cases appendBits_raises hw; exact .inr ⟨rfl, .inl rfl⟩

theorem putsym_next {sym : Sym} {s t : State} (h : exec (.putsym sym) s = .next t) :
    ((codeEntry s sym).len = 0 ∧ t = enterError .symNotInTable s) ∨
    ((codeEntry s sym).len ≠ 0 ∧
      (t = enterError .busError s ∨ appendBits s (codeBits (codeEntry s sym)) = .ok t)) := by
  simp only [exec, execPutsym] at h
  by_cases hl : (codeEntry s sym).len = 0
  · rw [if_pos hl] at h; cases h; exact .inl ⟨hl, rfl⟩
  · rw [if_neg hl] at h
    rcases settle_next h with hw | ⟨e, hw, rfl⟩
    · exact .inr ⟨hl, .inr hw⟩
    · cases appendBits_raises hw; exact .inr ⟨hl, .inl rfl⟩

theorem flush_next {s t : State} (h : exec .flush s = .next t) :
    t = s ∨ t = enterError .busError s ∨
    (populated s s.outPtr = true ∧
      t = { s with mem := s.mem.write s.outPtr.toNat s.acc, outPtr := s.outPtr + 1, acc := 0, accN := 0 }) := by
  simp only [exec, execFlush] at h
  split at h
  · cases h; exact .inl rfl
  · cases hp : populated s s.outPtr with
    | false => rw [writeOut_of_unpopulated hp] at h; cases h; exact .inr (.inl rfl)
    | true => rw [writeOut_of_populated hp] at h; cases h; exact .inr (.inr ⟨rfl, rfl⟩)

theorem getbits_next {n : BitVec 5} {s t : State} (h : exec (.getbits n) s = .next t) :
    (legalCount n = false ∧ t = enterError .illegalCmd s) ∨
    (legalCount n = true ∧ (t = enterError .busError s ∨ t = enterError .truncated s ∨
      ∃ bs u v, fetchMany n.toNat s = .ok (bs, u) ∧ t = { u with result := v })) := by
  simp only [exec, execGetbits, whenLegal, readBits, fetchBits_eq] at h
  cases hl : legalCount n with
  | false => rw [hl] at h; cases h; exact .inl ⟨rfl, rfl⟩
  | true =>
    rw [hl] at h
    refine .inr ⟨rfl, ?_⟩
    cases hf : fetchMany n.toNat s with
    | error e =>
      rw [hf] at h
      rcases fetchMany_raises hf with rfl | rfl | rfl <;> cases h <;> simp
    | ok p =>
      obtain ⟨bs, u⟩ := p
      rw [hf] at h
      cases h
      exact .inr (.inr ⟨bs, u, _, rfl, rfl⟩)

theorem tnw_next {idx : Slot} {s t : State} (h : exec (.tnw idx) s = .next t) :
    (legalSlot idx = false ∧ t = enterError .illegalCmd s) ∨
    ∃ hi : idx.toNat < 511, t = { s with tn := s.tn.set idx.toNat (storedNode s.data) } := by
  simp only [exec, execTnw, writeSlot] at h
  split at h
  · rename_i hi; cases h; exact .inr ⟨hi, rfl⟩
  · rename_i hi; cases h; exact .inl ⟨by simpa [legalSlot] using hi, rfl⟩

theorem tnrd_next {idx : Slot} {s t : State} (h : exec (.tnrd idx) s = .next t) :
    (legalSlot idx = false ∧ t = enterError .illegalCmd s) ∨
    ∃ hi : idx.toNat < 511, t = { s with data := s.tn[idx.toNat] } := by
  simp only [exec, execTnrd, readSlot] at h
  split at h
  · rename_i hi; cases h; exact .inr ⟨hi, rfl⟩
  · rename_i hi; cases h; exact .inl ⟨by simpa [legalSlot] using hi, rfl⟩

theorem dstep_next {s t : State} (h : exec .dstep s = .next t) :
    decodeSymbol s = .ok t ∨
    ∃ e, decodeSymbol s = .error (.raise e) ∧
      (e = .truncated ∨ e = .busError ∨ e = .badTree ∨ e = .badCode) ∧ t = enterError e s := by
  rcases settle_next h with hw | ⟨e, hw, rfl⟩
  · exact .inl hw
  · refine .inr ⟨e, hw, ?_, rfl⟩
    rcases decodeSymbol_raises hw with h | h | h | h | h <;> cases h <;> simp

/-! ## Runs of symbols -/

/-- A run with at least as many turns as symbols left, taken one symbol at a time: what holds of no
symbol, of a failing one, and is carried over a decoded one, holds of the run. -/
theorem decodeRun_ind {P : State → State → Prop} (h0 : ∀ s, P s s)
    (h1 : ∀ s e, s.symRemain ≠ 0 → decodeSymbol s = .error (.raise e) → P s (enterError e s))
    (h2 : ∀ s u t, s.symRemain ≠ 0 → decodeSymbol s = .ok u → P u t → P s t) {n : Nat} {s t : State}
    (h : decodeRun n s = .next t) : P s t := by
  induction n generalizing s with
  | zero => cases h; exact h0 _
  | succ n ih =>
    simp only [decodeRun] at h
    by_cases hz : s.symRemain = 0
    · rw [if_pos hz] at h; cases h; exact h0 _
    · rw [if_neg hz] at h
      cases hd : decodeSymbol s with
      | ok u => rw [hd] at h; exact h2 _ _ _ hz hd (ih h)
      | error e =>
        rw [hd] at h
        rcases settle_next h with hw | ⟨e', hw, rfl⟩
        · cases hw
        · cases hw; exact h1 _ _ hz hd

theorem decodeRun_fault {n : Nat} {s : State} {f : Fault} (h : decodeRun n s = .fault f) :
    f = .unwrittenDmemByte := by
  induction n generalizing s with
  | zero => simp [decodeRun] at h
  | succ n ih =>
    simp only [decodeRun] at h
    split at h
    · cases h
    · cases hd : decodeSymbol s with
      | ok t => rw [hd] at h; exact ih h
      | error e =>
        rw [hd] at h
        rcases decodeSymbol_raises hd with rfl | rfl | rfl | rfl | rfl <;> cases h; rfl

theorem decodeRun_not_refused {n : Nat} {s : State} {r : Refusal} : decodeRun n s ≠ .refused r := by
  induction n generalizing s with
  | zero => simp [decodeRun]
  | succ n ih =>
    simp only [decodeRun]
    split
    · simp
    · cases decodeSymbol s with
      | ok t => exact ih
      | error e => exact settle_not_refused

end Sys2Proof.Machine
end

