-- ==== Sys2Proof/Laws/Decode.lean ====
section
/-! SUPPORT. Reading the fields of a word laid out by a format. -/

namespace Sys2Proof

/-- The bits above the lower part of a concatenation are the upper part's. -/
theorem extract_append_high {m n : Nat} (a : BitVec m) (b : BitVec n) (lo k : Nat) (h : n ≤ lo) :
    (a ++ b).extractLsb' lo k = a.extractLsb' (lo - n) k := by
  ext j hj
  simp only [BitVec.getElem_extractLsb', BitVec.getLsbD_append]
  rw [if_neg (by omega)]
  congr 1
  omega

/-- The bits inside the lower part of a concatenation are the lower part's. -/
theorem extract_append_low {m n : Nat} (a : BitVec m) (b : BitVec n) (lo k : Nat) (h : lo + k ≤ n) :
    (a ++ b).extractLsb' lo k = b.extractLsb' lo k := by
  ext j hj
  simp only [BitVec.getElem_extractLsb', BitVec.getLsbD_append]
  rw [if_pos (by omega)]

/-- All the bits of a vector are the vector. -/
theorem extract_all {m : Nat} (a : BitVec m) : a.extractLsb' 0 m = a := by
  ext j hj
  simp

/-- Reserved bits that span a zero field's whole width are 0. -/
theorem extract_zero {m : Nat} (lo k : Nat) : (0#m).extractLsb' lo k = 0#k := by
  ext j hj
  simp

/-- Two neighbouring fields joined are one field. -/
theorem extract_join {n : Nat} (w : BitVec n) (lo k m : Nat) :
    w.extractLsb' (lo + k) m ++ w.extractLsb' lo k = w.extractLsb' lo (m + k) := by
  ext j hj
  rw [BitVec.getElem_append]
  split
  · rename_i h
    simp
  · rename_i h
    simp only [BitVec.getElem_extractLsb']
    congr 1; omega

/-! ## The fields of each format -/

/-- The opcode of a word with an opcode in front. -/
theorem opcode_append (op : BitVec 8) (x : BitVec 24) : opcodeOf (op ++ x : Word) = op :=
  (extract_append_high op x 24 8 (le_refl _)).trans (extract_all op)

/-- A field inside the operand bits. -/
theorem field_append (op : BitVec 8) (x : BitVec 24) (lo k : Nat) (h : lo + k ≤ 24) :
    BitVec.extractLsb' lo k (op ++ x : Word) = x.extractLsb' lo k := extract_append_low op x lo k h

@[simp] theorem wordF0_opcode (op : BitVec 8) : opcodeOf (wordF0 op) = op := opcode_append op _

@[simp] theorem wordF0_reserved (op : BitVec 8) : (wordF0 op).extractLsb' 0 24 = 0 := by
  rw [wordF0, field_append _ _ _ _ (by omega)]; exact extract_zero 0 24

@[simp] theorem wordFB_opcode (op : BitVec 8) (n : BitVec 5) (v : BitVec 16) :
    opcodeOf (wordFB op n v) = op := opcode_append op _

@[simp] theorem wordFB_reserved (op : BitVec 8) (n : BitVec 5) (v : BitVec 16) :
    (wordFB op n v).extractLsb' 21 3 = 0 := by
  rw [wordFB, field_append _ _ _ _ (by omega)]
  exact (extract_append_high (0#3) (n ++ v) 21 3 (by omega)).trans (extract_zero 0 3)

@[simp] theorem wordFB_count (op : BitVec 8) (n : BitVec 5) (v : BitVec 16) :
    countFB (wordFB op n v) = n := by
  rw [countFB, wordFB, field_append _ _ _ _ (by omega)]
  refine (extract_append_low (0#3) (n ++ v) 16 5 (by omega)).trans ?_
  exact (extract_append_high n v 16 5 (by omega)).trans (extract_all n)

@[simp] theorem wordFB_bits (op : BitVec 8) (n : BitVec 5) (v : BitVec 16) :
    bitsOf (wordFB op n v) = v := by
  rw [bitsOf, wordFB, field_append _ _ _ _ (by omega)]
  refine (extract_append_low (0#3) (n ++ v) 0 16 (by omega)).trans ?_
  exact (extract_append_low n v 0 16 (by omega)).trans (extract_all v)

@[simp] theorem wordFS_opcode (op : BitVec 8) (sym : Sym) : opcodeOf (wordFS op sym) = op :=
  opcode_append op _

@[simp] theorem wordFS_reserved (op : BitVec 8) (sym : Sym) :
    (wordFS op sym).extractLsb' 8 16 = 0 := by
  rw [wordFS, field_append _ _ _ _ (by omega)]
  exact (extract_append_high (0#16) sym 8 16 (by omega)).trans (extract_zero 0 16)

@[simp] theorem wordFS_sym (op : BitVec 8) (sym : Sym) : symOf (wordFS op sym) = sym := by
  rw [symOf, wordFS, field_append _ _ _ _ (by omega)]
  exact (extract_append_low (0#16) sym 0 8 (by omega)).trans (extract_all sym)

@[simp] theorem wordFL_opcode (op : BitVec 8) (len : BitVec 8) (sym : Sym) :
    opcodeOf (wordFL op len sym) = op := opcode_append op _

@[simp] theorem wordFL_reserved (op : BitVec 8) (len : BitVec 8) (sym : Sym) :
    (wordFL op len sym).extractLsb' 16 8 = 0 := by
  rw [wordFL, field_append _ _ _ _ (by omega)]
  exact (extract_append_high (0#8) (len ++ sym) 16 8 (by omega)).trans (extract_zero 0 8)

@[simp] theorem wordFL_len (op : BitVec 8) (len : BitVec 8) (sym : Sym) :
    lenOf (wordFL op len sym) = len := by
  rw [lenOf, wordFL, field_append _ _ _ _ (by omega)]
  refine (extract_append_low (0#8) (len ++ sym) 8 8 (by omega)).trans ?_
  exact (extract_append_high len sym 8 8 (by omega)).trans (extract_all len)

@[simp] theorem wordFL_sym (op : BitVec 8) (len : BitVec 8) (sym : Sym) :
    symOf (wordFL op len sym) = sym := by
  rw [symOf, wordFL, field_append _ _ _ _ (by omega)]
  refine (extract_append_low (0#8) (len ++ sym) 0 8 (by omega)).trans ?_
  exact (extract_append_low len sym 0 8 (by omega)).trans (extract_all sym)

@[simp] theorem wordFK_opcode (op : BitVec 8) (k : BitVec 3) (sym : Sym) :
    opcodeOf (wordFK op k sym) = op := opcode_append op _

@[simp] theorem wordFK_reserved (op : BitVec 8) (k : BitVec 3) (sym : Sym) :
    (wordFK op k sym).extractLsb' 11 13 = 0 := by
  rw [wordFK, field_append _ _ _ _ (by omega)]
  exact (extract_append_high (0#13) (k ++ sym) 11 13 (by omega)).trans (extract_zero 0 13)

@[simp] theorem wordFK_k (op : BitVec 8) (k : BitVec 3) (sym : Sym) : kOf (wordFK op k sym) = k := by
  rw [kOf, wordFK, field_append _ _ _ _ (by omega)]
  refine (extract_append_low (0#13) (k ++ sym) 8 3 (by omega)).trans ?_
  exact (extract_append_high k sym 8 3 (by omega)).trans (extract_all k)

@[simp] theorem wordFK_sym (op : BitVec 8) (k : BitVec 3) (sym : Sym) :
    symOf (wordFK op k sym) = sym := by
  rw [symOf, wordFK, field_append _ _ _ _ (by omega)]
  refine (extract_append_low (0#13) (k ++ sym) 0 8 (by omega)).trans ?_
  exact (extract_append_low k sym 0 8 (by omega)).trans (extract_all sym)

@[simp] theorem wordFI_opcode (op : BitVec 8) (idx : Slot) : opcodeOf (wordFI op idx) = op :=
  opcode_append op _

@[simp] theorem wordFI_reserved (op : BitVec 8) (idx : Slot) :
    (wordFI op idx).extractLsb' 9 15 = 0 := by
  rw [wordFI, field_append _ _ _ _ (by omega)]
  exact (extract_append_high (0#15) idx 9 15 (by omega)).trans (extract_zero 0 15)

@[simp] theorem wordFI_idx (op : BitVec 8) (idx : Slot) : idxOf (wordFI op idx) = idx := by
  rw [idxOf, wordFI, field_append _ _ _ _ (by omega)]
  exact (extract_append_low (0#15) idx 0 9 (by omega)).trans (extract_all idx)

@[simp] theorem wordFN_opcode (op : BitVec 8) (n : BitVec 5) : opcodeOf (wordFN op n) = op :=
  opcode_append op _

@[simp] theorem wordFN_reserved (op : BitVec 8) (n : BitVec 5) :
    (wordFN op n).extractLsb' 5 19 = 0 := by
  rw [wordFN, field_append _ _ _ _ (by omega)]
  exact (extract_append_high (0#19) n 5 19 (by omega)).trans (extract_zero 0 19)

@[simp] theorem wordFN_count (op : BitVec 8) (n : BitVec 5) : countFN (wordFN op n) = n := by
  rw [countFN, wordFN, field_append _ _ _ _ (by omega)]
  exact (extract_append_low (0#19) n 0 5 (by omega)).trans (extract_all n)

/-! ## Words put together from their fields -/

/-- A word whose reserved bits are 0 is laid out as format F0. -/
theorem wordF0_of_fields (w : Word) (h : w.extractLsb' 0 24 = 0#24) :
    wordF0 (opcodeOf w) = w := by
  have e := extract_join w 0 24 8
  rw [h] at e
  exact e.trans (extract_all w)

/-- A word whose reserved bits are 0 is laid out as format FB. -/
theorem wordFB_of_fields (w : Word) (h : w.extractLsb' 21 3 = 0#3) :
    wordFB (opcodeOf w) (countFB w) (bitsOf w) = w := by
  have e2 := extract_join w 0 21 3
  have e3 := (extract_join w 0 24 8).trans (extract_all w)
  have e1 := extract_join w 0 16 5
  unfold wordFB countFB bitsOf
  rw [← h]
  refine (congrArg (fun x => opcodeOf w ++ (w.extractLsb' 21 3 ++ x)) e1).trans ?_
  exact (congrArg (fun x => opcodeOf w ++ x) e2).trans e3

/-- A word whose reserved bits are 0 is laid out as format FS. -/
theorem wordFS_of_fields (w : Word) (h : w.extractLsb' 8 16 = 0#16) :
    wordFS (opcodeOf w) (symOf w) = w := by
  have e2 := extract_join w 0 8 16
  have e3 := (extract_join w 0 24 8).trans (extract_all w)
  unfold wordFS symOf
  rw [← h]
  exact (congrArg (fun x => opcodeOf w ++ x) e2).trans e3

/-- A word whose reserved bits are 0 is laid out as format FL. -/
theorem wordFL_of_fields (w : Word) (h : w.extractLsb' 16 8 = 0#8) :
    wordFL (opcodeOf w) (lenOf w) (symOf w) = w := by
  have e2 := extract_join w 0 16 8
  have e3 := (extract_join w 0 24 8).trans (extract_all w)
  have e1 := extract_join w 0 8 8
  unfold wordFL lenOf symOf
  rw [← h]
  refine (congrArg (fun x => opcodeOf w ++ (w.extractLsb' 16 8 ++ x)) e1).trans ?_
  exact (congrArg (fun x => opcodeOf w ++ x) e2).trans e3

/-- A word whose reserved bits are 0 is laid out as format FK. -/
theorem wordFK_of_fields (w : Word) (h : w.extractLsb' 11 13 = 0#13) :
    wordFK (opcodeOf w) (kOf w) (symOf w) = w := by
  have e2 := extract_join w 0 11 13
  have e3 := (extract_join w 0 24 8).trans (extract_all w)
  have e1 := extract_join w 0 8 3
  unfold wordFK kOf symOf
  rw [← h]
  refine (congrArg (fun x => opcodeOf w ++ (w.extractLsb' 11 13 ++ x)) e1).trans ?_
  exact (congrArg (fun x => opcodeOf w ++ x) e2).trans e3

/-- A word whose reserved bits are 0 is laid out as format FI. -/
theorem wordFI_of_fields (w : Word) (h : w.extractLsb' 9 15 = 0#15) :
    wordFI (opcodeOf w) (idxOf w) = w := by
  have e2 := extract_join w 0 9 15
  have e3 := (extract_join w 0 24 8).trans (extract_all w)
  unfold wordFI idxOf
  rw [← h]
  exact (congrArg (fun x => opcodeOf w ++ x) e2).trans e3

/-- A word whose reserved bits are 0 is laid out as format FN. -/
theorem wordFN_of_fields (w : Word) (h : w.extractLsb' 5 19 = 0#19) :
    wordFN (opcodeOf w) (countFN w) = w := by
  have e2 := extract_join w 0 5 19
  have e3 := (extract_join w 0 24 8).trans (extract_all w)
  unfold wordFN countFN
  rw [← h]
  exact (congrArg (fun x => opcodeOf w ++ x) e2).trans e3

/-! ## The decode checks -/

/-- What needZero answers. -/
theorem needZero_ok {w : Word} {lo : Nat} {i j : Instr} :
    needZero w lo i = .ok j ↔ w.extractLsb' lo (24 - lo) = 0 ∧ i = j := by
  unfold needZero
  split <;> simp_all

theorem needCount_ok {n : BitVec 5} {r : Except Reject Instr} {j : Instr} :
    needCount n r = .ok j ↔ r = .ok j ∧ legalCount n = true := by
  unfold needCount
  split
  · simp
  · split <;> simp_all

theorem needSlot_ok {idx : Slot} {r : Except Reject Instr} {j : Instr} :
    needSlot idx r = .ok j ↔ r = .ok j ∧ legalSlot idx = true := by
  unfold needSlot
  split
  · simp
  · split <;> simp_all

end Sys2Proof
end

