-- ==== Sys2Proof/Laws/Engine.lean ====
section
/-! SUPPORT. What a step is, by the agent that makes the next move. -/

namespace Sys2Proof.Machine

theorem step_engine {s : State} {w : Word} (h : EngineTurn s w) : step s = perform w (popped s) := by
  have hp : (popped s).pending = some w := h.2
  simp only [step, takeMove, h.1, move]
  show engineMove (popped s) = _
  simp only [engineMove, hp]

theorem step_idle {s : State} (hm : nextMove s = .engine) (hp : s.pending = none) :
    step s = .next (popped s) := by
  have h : (popped s).pending = none := hp
  simp only [step, takeMove, hm, move]
  show engineMove (popped s) = _
  simp only [engineMove, h]

theorem step_host {s : State} {a : HostAction} (h : nextMove s = .host a) :
    step s = hostMove a (popped s) := by
  simp only [step, takeMove, h, move]
  rfl

theorem step_reset {s : State} {k : Nat} (h : nextMove s = .reset k) :
    step s = hardwareReset k (popped s) := by
  simp only [step, takeMove, h, move]
  rfl

/-- A word that does not decode, in no error state: ILLEGAL_CMD and completion, nothing else. -/
theorem perform_illegal {w : Word} {s : State} {r : Reject} (he : s.err = .none)
    (hd : decode w = .error r) : RaisesIllegal w s := by
  simp [RaisesIllegal, perform, effect, he, hd, onNext, complete, enterError]

/-- A word that decodes, in no error state: its rule and completion. -/
theorem perform_decoded {w : Word} {s : State} {i : Instr} (he : s.err = .none) (hd : decode w = .ok i) :
    perform w s = onNext complete (exec i s) := by
  simp [perform, effect, he, hd]

/-- A word the error gate discards: completion only. -/
theorem perform_discarded {w : Word} {s : State} (he : s.err ≠ .none) (hw : w ≠ clrWord) :
    perform w s = .next (complete s) := by
  simp [perform, effect, he, hw, onNext]

/-- The next step of a state made by withFetchWord performs the word it was given. -/
theorem step_withFetchWord (s : State) (nbits w : Nat) :
    step (s.withFetchWord nbits w) = perform (fetchWord nbits w)
      { s with pending := some (fetchWord nbits w), busy := true, done := false } := by
  rw [step_engine (w := fetchWord nbits w) ⟨rfl, rfl⟩]
  rfl

/-- What a host action may change of the HBPU: nothing of the error state or the configuration. -/
theorem hostMove_keeps {a : HostAction} {s t : State} (h : hostMove a s = .next t) :
    t.err = s.err ∧ t.cfg = s.cfg ∧ t.schedule = s.schedule := by
  cases a with
  | regWrite off v =>
    simp only [hostMove] at h
    split at h
    · rename_i r _
      cases h
      cases r <;> simp only [writeReg, writeStatus, writeCmd, storeWhenIdle] <;>
        first | trivial | (split <;> trivial)
    · cases h
  | regRead off =>
    simp only [hostMove] at h
    split at h
    · cases h; simp only [readReg]; split <;> exact ⟨rfl, rfl, rfl⟩
    · cases h
  | memWrite b v =>
    simp only [hostMove, hostDmem] at h
    split at h
    · cases h
    · split at h <;> cases h; exact ⟨rfl, rfl, rfl⟩
  | memRead b =>
    simp only [hostMove, hostDmem] at h
    split at h
    · cases h
    · split at h
      · cases h; simp only [hostMemRead]; split <;> exact ⟨rfl, rfl, rfl⟩
      · cases h

end Sys2Proof.Machine
end

