-- ==== Sys2Proof/Laws/PerInstr.lean ====
section
/-! SUPPORT. Per-constructor lemmas: each command's word lies in its row of spec/opcode_table.json. -/

namespace Sys2Proof.Laws.EncodesInRow

/-- The match and mask of a command's row in spec/opcode_table.json. -/
def row : Instr → Word × Word
  | .nop => (0x00000000, 0xFFFFFFFF)
  | .clr => (0x01000000, 0xFFFFFFFF)
  | .ctclr => (0x02000000, 0xFFFFFFFF)
  | .tnclr => (0x03000000, 0xFFFFFFFF)
  | .putbits _ _ => (0x10000000, 0xFFE00000)
  | .putsym _ => (0x11000000, 0xFFFFFF00)
  | .flush => (0x12000000, 0xFFFFFFFF)
  | .ctlen _ _ => (0x20000000, 0xFFFF0000)
  | .ctword _ _ => (0x21000000, 0xFFFFF800)
  | .ctrdlen _ => (0x22000000, 0xFFFFFF00)
  | .ctrdword _ _ => (0x23000000, 0xFFFFF800)
  | .tnw _ => (0x28000000, 0xFFFFFE00)
  | .tnrd _ => (0x29000000, 0xFFFFFE00)
  | .getbits _ => (0x30000000, 0xFFFFFFE0)
  | .dstep => (0x31000000, 0xFFFFFFFF)
  | .drun => (0x32000000, 0xFFFFFFFF)

/-- The word of a command agrees with its row's match on its row's mask (30_encoding.md R109). -/
def Statement (i : Instr) : Prop := encode i &&& (row i).2 = (row i).1

/-- A word masked to the opcode and the reserved bits above lo, where the fields lie below lo. -/
theorem masked (op : BitVec 8) (k lo : Nat) (h : k + lo = 24) (x : BitVec lo) (mask : Word)
    (hm : ∀ j, j < 32 → mask.getLsbD j = decide (lo ≤ j)) :
    (op ++ ((0#k ++ x).cast h) : Word) &&& mask = op ++ 0#24 := by
  apply BitVec.eq_of_getLsbD_eq
  intro j hj
  simp only [BitVec.getLsbD_and, hm j hj, BitVec.getLsbD_append, BitVec.getLsbD_cast,
    BitVec.getLsbD_zero]
  by_cases h1 : j < 24 <;> by_cases h2 : j < lo <;> simp [h1, h2] <;> omega

theorem nop : Statement .nop := rfl
theorem clr : Statement .clr := rfl
theorem ctclr : Statement .ctclr := rfl
theorem tnclr : Statement .tnclr := rfl
theorem putbits (n : BitVec 5) (v : BitVec 16) : Statement (.putbits n v) :=
  masked 0x10 3 21 rfl (n ++ v) 0xFFE00000 (by decide)
theorem putsym (sym : Sym) : Statement (.putsym sym) := masked 0x11 16 8 rfl sym 0xFFFFFF00 (by decide)
theorem flush : Statement .flush := rfl
theorem ctlen (sym : Sym) (len : BitVec 8) : Statement (.ctlen sym len) :=
  masked 0x20 8 16 rfl (len ++ sym) 0xFFFF0000 (by decide)
theorem ctword (sym : Sym) (k : BitVec 3) : Statement (.ctword sym k) :=
  masked 0x21 13 11 rfl (k ++ sym) 0xFFFFF800 (by decide)
theorem ctrdlen (sym : Sym) : Statement (.ctrdlen sym) := masked 0x22 16 8 rfl sym 0xFFFFFF00 (by decide)
theorem ctrdword (sym : Sym) (k : BitVec 3) : Statement (.ctrdword sym k) :=
  masked 0x23 13 11 rfl (k ++ sym) 0xFFFFF800 (by decide)
theorem tnw (idx : Slot) : Statement (.tnw idx) := masked 0x28 15 9 rfl idx 0xFFFFFE00 (by decide)
theorem tnrd (idx : Slot) : Statement (.tnrd idx) := masked 0x29 15 9 rfl idx 0xFFFFFE00 (by decide)
theorem getbits (n : BitVec 5) : Statement (.getbits n) := masked 0x30 19 5 rfl n 0xFFFFFFE0 (by decide)
theorem dstep : Statement .dstep := rfl
theorem drun : Statement .drun := rfl

end Sys2Proof.Laws.EncodesInRow
end

