-- ==== Sys2Proof/Laws/Pseudo.lean ====
section
/-! SUPPORT. What command lines do (30_encoding.md R115, R120). -/

namespace Sys2Proof.Machine

theorem runMoves_append (a b : List Move) (s : State) :
    runMoves (a ++ b) s =
      match runMoves a s with
      | .next t => runMoves b t
      | .fault r => .fault r
      | .refused r => .refused r := by
  induction a generalizing s with
  | nil => rfl
  | cons m a ih =>
    simp only [List.cons_append, runMoves]
    cases move m s <;> simp [ih]

/-- A step whose next move is m makes m. -/
theorem step_cons (m : Move) (ms : List Move) (s : State) :
    step { s with schedule := m :: ms } = move m { s with schedule := ms } := rfl

/-- What the host's poll of STATUS leaves. -/
def polled (s : State) : State := { s with readData := statusWord s }

theorem move_poll (s : State) : move (.host (.regRead 0x0C)) s = .next (polled s) := by
  have hr : regAt 0x0C = some .status := by decide
  simp only [move, hostMove, hr, readReg, unspecifiedWhileBusy, Bool.and_false, Bool.false_eq_true,
    if_false, regValue, polled]

/-- Waiting with nothing pending: the poll alone. -/
theorem waitIdle_idle {s : State} (h : s.pending = none) : runMoves waitIdle s = .next (polled s) := by
  simp only [waitIdle, rd, runMoves, move, engineMove, h]
  have := move_poll s
  simp only [move] at this
  rw [this]

/-- Waiting with a command pending: it is performed to its end, then polled. -/
theorem waitIdle_pending {s : State} {w : Word} (h : s.pending = some w) :
    runMoves waitIdle s = onNext polled (perform w s) := by
  simp only [waitIdle, rd, runMoves, move, engineMove, h]
  cases perform w s with
  | next t =>
    have := move_poll t
    simp only [move] at this
    simp only [this, onNext]
  | fault f => rfl
  | refused r => rfl

/-- After a wait BUSY is 0, nothing is pending, and the host has read so. -/
theorem waitIdle_next {s t : State} (hb : s.busy = s.pending.isSome) (h : runMoves waitIdle s = .next t) :
    t.busy = false ∧ t.pending = none ∧ t.readData.getLsbD 0 = false := by
  have key : ∀ u : State, u.busy = false → (statusWord u).getLsbD 0 = false := by
    intro u hu
    simp only [statusWord, BitVec.getLsbD_append, hu]
    simp
  cases hp : s.pending with
  | none =>
    rw [waitIdle_idle hp] at h
    cases h
    have hb' : s.busy = false := by rw [hb, hp]; rfl
    exact ⟨hb', hp, key s hb'⟩
  | some w =>
    rw [waitIdle_pending hp] at h
    obtain ⟨u, hu, rfl⟩ := onNext_next h
    obtain ⟨v, _, rfl⟩ := onNext_next hu
    exact ⟨rfl, rfl, key _ rfl⟩

/-- A command line whose first wait leaves t: its word is accepted, never dropped, performed in the state
t with the command pending, and polled to its end. -/
theorem issue_performs {s t : State} {i : Instr} (hb : s.busy = s.pending.isSome)
    (h : runMoves waitIdle s = .next t) :
    runMoves (issue i) s = onNext polled
      (perform (encode i) { t with pending := some (encode i), busy := true, done := false }) := by
  have hr : regAt 0x10 = some .cmd := by decide
  have ht := (waitIdle_next hb h).1
  rw [issue, List.append_assoc, runMoves_append, h]
  simp only [wr, List.cons_append, List.nil_append, runMoves, move, hostMove, hr, writeReg, writeCmd, ht,
    Bool.false_eq_true, if_false]
  exact waitIdle_pending rfl

/-- A command line from an idle HBPU. -/
theorem issue_idle {s : State} {i : Instr} (hb : s.busy = false) (hp : s.pending = none) :
    runMoves (issue i) s = onNext polled (perform (encode i)
      { polled s with pending := some (encode i), busy := true, done := false }) :=
  issue_performs (by rw [hb, hp]; rfl) (waitIdle_idle hp)

end Sys2Proof.Machine
end

