-- ==== Sys2Proof/Tests/Slice0.lean ====
section
/-! SUPPORT. Tests of single steps, expected values from spec/95_test_vectors.md or the rule's own example,
and a witness of the hypotheses of each statement. -/

namespace Sys2Proof.Tests

open Sys2Proof Sys2Proof.Machine

/-! ## Helpers -/

/-- Whether a result is a next state of which a check holds. -/
def nextHas (r : Result) (p : State → Bool) : Bool :=
  match r with
  | .next t => p t
  | .fault _ => false
  | .refused _ => false

/-- Whether a result is the fault f. -/
def faultIs (f : Fault) (r : Result) : Bool :=
  match r with
  | .next _ => false
  | .fault g => g == f
  | .refused _ => false

/-- The engine performs a command word as the next step of a state. -/
def run (w : Nat) (s : State) : Result := step (s.withFetchWord 32 w)

/-- The host acts next. -/
def hosted (a : HostAction) (s : State) : State := { s with schedule := [.host a] }

/-- A BUSY state with a NOP pending. -/
def busy (s : State) : State := { s with pending := some 0, busy := true }

/-- The lone-leaf tree L of 95_test_vectors.md 2.4. -/
def treeL : State := { State.reset with tn := State.reset.tn.set 0 0xC1840000 }

/-- Vector U6's state before, its input byte given. -/
def lone (v : Byte) : State :=
  { treeL with mem := [(0x20D, v)], inPtr := 0x20D, inEnd := 0x20E, symPtr := 0x300, symRemain := 4 }

/-- A root with leaves 'a' on 0 and 'b' on 1. -/
def pair : State := { State.reset with
  tn := ((State.reset.tn.set 0 0x80000202).set 1 0xC1880000).set 2 0xC1840000 }

/-- A symbol with a code. -/
def coded (sym : Sym) (len : BitVec 8) (w0 : Word) : State := { State.reset with
  ct := State.reset.ct.set sym.toNat
    { len := len, w := (Vector.replicate 8 0).set 0 w0 } }

/-- A machine of 0x100 bytes. -/
def small (s : State) : State := { s with cfg := { Config.standard with dmemSize := 0x100 } }

/-! ## Well-formedness: an ill-formed term for each check -/

theorem test_illformed_putbits_zero : (Instr.putbits 0 0).wellFormed = false := by decide
theorem test_illformed_putbits_17 : (Instr.putbits 17 0).wellFormed = false := by decide
theorem test_illformed_getbits_zero : (Instr.getbits 0).wellFormed = false := by decide
theorem test_illformed_getbits_17 : (Instr.getbits 17).wellFormed = false := by decide
theorem test_illformed_tnw : (Instr.tnw 511).wellFormed = false := by decide
theorem test_illformed_tnrd : (Instr.tnrd 511).wellFormed = false := by decide

/-! ## Decoding: words written out from the formats of 30_encoding.md, opcode first -/

theorem test_decode_nop : decode 0b00000000_000000000000000000000000#32 = .ok .nop := by rfl
theorem test_decode_clr : decode 0b00000001_000000000000000000000000#32 = .ok .clr := by rfl
theorem test_decode_ctclr : decode 0b00000010_000000000000000000000000#32 = .ok .ctclr := by rfl
theorem test_decode_tnclr : decode 0b00000011_000000000000000000000000#32 = .ok .tnclr := by rfl
theorem test_decode_putbits :
    decode 0b00010000_000_01010_0000000100010001#32 = .ok (.putbits 10 0x111) := by rfl
theorem test_decode_putsym : decode 0b00010001_0000000000000000_01100001#32 = .ok (.putsym 0x61) := by rfl
theorem test_decode_flush : decode 0b00010010_000000000000000000000000#32 = .ok .flush := by rfl
theorem test_decode_ctlen : decode 0b00100000_00000000_00000010_01100010#32 = .ok (.ctlen 0x62 2) := by rfl
theorem test_decode_ctword :
    decode 0b00100001_0000000000000_101_01100010#32 = .ok (.ctword 0x62 5) := by rfl
theorem test_decode_ctrdlen : decode 0b00100010_0000000000000000_01000001#32 = .ok (.ctrdlen 0x41) := by rfl
theorem test_decode_ctrdword :
    decode 0b00100011_0000000000000_111_01100010#32 = .ok (.ctrdword 0x62 7) := by rfl
theorem test_decode_tnw : decode 0b00101000_000000000000000_111111110#32 = .ok (.tnw 510) := by rfl
theorem test_decode_tnrd : decode 0b00101001_000000000000000_000000101#32 = .ok (.tnrd 5) := by rfl
theorem test_decode_getbits : decode 0b00110000_0000000000000000000_10000#32 = .ok (.getbits 16) := by rfl
theorem test_decode_dstep : decode 0b00110001_000000000000000000000000#32 = .ok .dstep := by rfl
theorem test_decode_drun : decode 0b00110010_000000000000000000000000#32 = .ok .drun := by rfl
theorem test_decode_table_word : decodeTableWord 32 0x100A0111 = some (.putbits 10 0x111) := by rfl
theorem test_decode_reserved_bit : decode 0x22000141#32 = .error .reservedBits := by rfl

/-! ## Commands (ids of 95_test_vectors.md) -/

/-- K1. -/
theorem test_nop : nextHas (run 0x00000000 State.reset) (fun t => statusWord t == 0x00A) = true := by
  decide
/-- K2. -/
theorem test_illegal : nextHas (run 0x00000001 State.reset) (fun t => statusWord t == 0x01E) = true := by
  decide
/-- K3. -/
theorem test_clr : nextHas
    (run 0x01000000 { State.reset with err := .truncated, ubufN := 7, bitcnt := 9 })
    (fun t => uaccWord t == 0 && t.bitcnt == 0 && statusWord t == 0x00A) = true := by decide
/-- K4. -/
theorem test_clr_malformed : nextHas (run 0x01000001 { State.reset with err := .truncated })
    (fun t => t.err == .truncated && t.done) = true := by decide
/-- K5. -/
theorem test_discarded : nextHas (run 0x11000061 { State.reset with err := .truncated })
    (fun t => t.err == .truncated && t.bitcnt == 0 && t.done) = true := by decide
/-- K6. -/
theorem test_ctclr : nextHas (run 0x02000000 (coded 0x61 1 0x80000000))
    (fun t => codeEntry t 0x61 == CodeEntry.empty) = true := by decide +kernel
/-- K7. -/
theorem test_tnclr : nextHas (run 0x03000000 treeL) (fun t => t.tn[0] == 0) = true := by decide +kernel
/-- T1. -/
theorem test_ctlen : nextHas (run 0x20000161 State.reset)
    (fun t => (codeEntry t 0x61).len == 1 && (codeEntry t 0x62).len == 0) = true := by decide +kernel
/-- T1. -/
theorem test_ctrdlen : nextHas (run 0x22000061 (coded 0x61 1 0x80000000)) (fun t => t.data == 1) = true := by
  decide +kernel
/-- T5. -/
theorem test_ctrdlen_illegal : nextHas (run 0x22000141 State.reset)
    (fun t => t.err == .illegalCmd && t.data == 0) = true := by decide
/-- T2. -/
theorem test_ctword : nextHas (run 0x21000062 { State.reset with data := 0x40000000 })
    (fun t => codeWord (codeEntry t 0x62) 0 == 0x40000000 && codeWord (codeEntry t 0x62) 1 == 0) = true := by
  decide +kernel
/-- T2. -/
theorem test_ctrdword : nextHas (run 0x23000062 (coded 0x62 2 0x40000000))
    (fun t => t.data == 0x40000000) = true := by decide +kernel
/-- T3. -/
theorem test_tnw : nextHas (run 0x28000005 { State.reset with data := 0xFFFFFFFF })
    (fun t => t.tn[5] == 0xC3FFFFFF && t.tn[4] == 0) = true := by decide +kernel
/-- T4. -/
theorem test_tnw_511 : nextHas (run 0x280001FF State.reset) (fun t => t.err == .illegalCmd) = true := by
  decide
/-- T3. -/
theorem test_tnrd : nextHas (run 0x29000005 { State.reset with tn := State.reset.tn.set 5 0xC3FFFFFF })
    (fun t => t.data == 0xC3FFFFFF) = true := by decide +kernel
/-- P-1. -/
theorem test_putbits : nextHas (run 0x100A0111 { State.reset with outPtr := 0x100 })
    (fun t => t.mem == [(0x100, 0x44)] && t.outPtr == 0x101 && paccWord t == 0x240 && t.bitcnt == 10)
    = true := by decide +kernel
/-- P-12. -/
theorem test_putbits_bus : nextHas (run 0x10101234 { small State.reset with outPtr := 0xFF })
    (fun t => t.err == .busError && t.mem == [] && t.outPtr == 0xFF && t.bitcnt == 0) = true := by
  decide +kernel
/-- P-10. -/
theorem test_putsym : nextHas (run 0x11000061 { coded 0x61 1 0 with acc := 0xE0, accN := 3 })
    (fun t => paccWord t == 0x4E0 && t.mem == []) = true := by decide +kernel
/-- P-11. -/
theorem test_putsym_absent : nextHas (run 0x1100007A State.reset)
    (fun t => statusWord t == 0x02E && t.bitcnt == 0) = true := by decide +kernel
/-- P-2. -/
theorem test_flush : nextHas (run 0x12000000 { State.reset with outPtr := 0x101, acc := 0x40, accN := 2 })
    (fun t => t.mem == [(0x101, 0x40)] && t.outPtr == 0x102 && paccWord t == 0 && t.bitcnt == 0) = true := by
  decide +kernel
/-- P-3. -/
theorem test_flush_empty : nextHas (run 0x12000000 { State.reset with outPtr := 0x102 })
    (fun t => t.mem == [] && t.outPtr == 0x102) = true := by decide +kernel
/-- U1. -/
theorem test_getbits : nextHas
    (run 0x3000000A { State.reset with
      mem := [(0x200, 0x44), (0x201, 0x40)], inPtr := 0x200, inEnd := 0x202 })
    (fun t => t.result == 0x111 && t.inPtr == 0x202 && uaccWord t == 0x600) = true := by decide +kernel
/-- U4. -/
theorem test_getbits_truncated : nextHas
    (run 0x30000009 { State.reset with mem := [(0x200, 0x44)], inPtr := 0x200, inEnd := 0x201 })
    (fun t => t.err == .truncated && t.inPtr == 0x200 && uaccWord t == 0) = true := by decide +kernel
/-- U6. -/
theorem test_dstep_lone : nextHas (run 0x31000000 (lone 0))
    (fun t => t.mem.read 0x300 == some 0x61 && t.symPtr == 0x301 && t.symRemain == 3 &&
      t.result == 0x61 && uaccWord t == 0x700 && statusWord t == 0x002) = true := by decide +kernel
/-- U16. -/
theorem test_dstep_right : nextHas
    (run 0x31000000 { State.reset with
      tn := (State.reset.tn.set 0 0x80003E01).set 1 0xC1040000, mem := [(0x10, 0x80)],
      inPtr := 0x10, inEnd := 0x11, symPtr := 0x20, symRemain := 1 })
    (fun t => t.mem.read 0x20 == some 0x41 && t.symRemain == 0 && uaccWord t == 0x700) = true := by
  decide +kernel
/-- U9. -/
theorem test_drun_short : nextHas (run 0x32000000 { lone 0 with symRemain := 9 })
    (fun t => t.mem.length == 9 && t.symPtr == 0x308 && t.symRemain == 1 && uaccWord t == 0 &&
      statusWord t == 0x036) = true := by decide +kernel
/-- U19. -/
theorem test_drun_bus : nextHas (run 0x32000000
      { small treeL with mem := [(0x10, 0)], inPtr := 0x10, inEnd := 0x11, symPtr := 0xFF, symRemain := 3 })
    (fun t => t.err == .busError && t.mem.read 0xFF == some 0x61 && t.symPtr == 0x100 &&
      t.symRemain == 2 && uaccWord t == 0x700) = true := by decide +kernel

/-! ## Host port and reset -/

/-- K8. -/
theorem test_cmd_overrun : nextHas (step (hosted (.regWrite 0x10 0x01000000) (busy State.reset)))
    (fun t => t.ovr && t.pending == some 0) = true := by decide
/-- K9. -/
theorem test_busy_write : nextHas (step (hosted (.regWrite 0x1C 5) (busy State.reset)))
    (fun t => t.ovr && t.outPtr == 0) = true := by decide
/-- K10. -/
theorem test_status_write : nextHas (step (hosted (.regWrite 0x0C 0x100) { State.reset with ovr := true }))
    (fun t => !t.ovr) = true := by decide
/-- R33: an unaligned offset. -/
theorem test_unaligned : step (hosted (.regRead 0x02) State.reset) = .refused .unsupportedRegisterAccess := by
  rfl
/-- R49: ACC_N in [10:8]. -/
theorem test_read_pacc : nextHas (step (hosted (.regRead 0x34) { State.reset with acc := 0x40, accN := 2 }))
    (fun t => t.readData == 0x240) = true := by decide
/-- R71: a host write, and a byte above DMEM_SIZE. -/
theorem test_host_write : nextHas (step (hosted (.memWrite 0xFF 7) (small State.reset)))
    (fun t => t.mem == [(0xFF, 7)]) = true := by decide
theorem test_host_unpopulated :
    step (hosted (.memWrite 0x100 7) (small State.reset)) = .fault .hostAccessUnpopulated := by rfl
/-- R262: of an aborted DRUN one symbol stays. -/
theorem test_reset_drun : nextHas
    (step { lone 0 with pending := some 0x32000000, busy := true, schedule := [.reset 1] })
    (fun t => t.mem == [(0x300, 0x61)] && t.symRemain == 0 && !t.busy && t.pending == none) = true := by
  decide +kernel
/-- I-1 to I-5. -/
theorem test_irq :
    irq { State.reset with ctrl := 1, done := true } = true ∧
    irq { State.reset with ctrl := 1 } = false ∧
    irq { State.reset with ctrl := 2, done := true } = false ∧
    irq { State.reset with ctrl := 2, err := .truncated } = true ∧ irq State.reset = false := by decide
/-- R117, R119: the expansions of PUTCODE and LOADLEAF. -/
theorem test_putcode : putcode [false, true, false, false, false, true, false, false, false, true] =
    [.engine, .host (.regRead 0x0C), .host (.regWrite 0x10 0x100A0111), .engine, .host (.regRead 0x0C)] := by
  decide
theorem test_loadleaf : loadleaf 0 0x61 =
    [.host (.regWrite 0x14 0xC1840000), .engine, .host (.regRead 0x0C), .host (.regWrite 0x10 0x28000000),
      .engine, .host (.regRead 0x0C)] := by decide
/-- R115: a command line in a BUSY state waits, so its word is not dropped. -/
theorem test_issue_busy : nextHas (runMoves (issue (.ctlen 0x61 1)) (busy State.reset))
    (fun t => !t.ovr && !t.busy && (codeEntry t 0x61).len == 1) = true := by decide +kernel
/-- R38, R54: STATUS reads BUSY = 1 while a command is pending. -/
theorem test_read_status_busy : nextHas (step (hosted (.regRead 0x0C) (busy State.reset)))
    (fun t => t.readData == 0x009) = true := by decide
/-- R34: PACC, UACC and the halves of BITCNT at their own offsets. -/
theorem test_read_offsets :
    nextHas (step (hosted (.regRead 0x38) { State.reset with ubuf := 0x80, ubufN := 3, acc := 1, accN := 1 }))
      (fun t => t.readData == 0x380) = true ∧
    nextHas (step (hosted (.regRead 0x3C) { State.reset with bitcnt := 0x200000003 }))
      (fun t => t.readData == 3) = true ∧
    nextHas (step (hosted (.regRead 0x40) { State.reset with bitcnt := 0x200000003 }))
      (fun t => t.readData == 2) = true := by decide

/-! ## Witnesses: for each statement with hypotheses, concrete values that meet them, clause by clause -/

/-- A next state with a property. -/
theorem next_of {r : Result} {p : State → Bool} (h : nextHas r p = true) : ∃ t, r = .next t ∧ p t = true := by
  cases r with
  | next t => exact ⟨t, rfl, h⟩
  | fault f => cases h
  | refused f => cases h

/-- A next state. -/
theorem next_exists {r : Result} (h : nextHas r (fun _ => true) = true) : ∃ t, r = .next t := by
  obtain ⟨t, ht, _⟩ := next_of h
  exact ⟨t, ht⟩

theorem accClean_reset : AccClean State.reset := by intro j _; simp [State.reset, State.resetOf]

theorem witness_DecodeUndoesEncode :
    (Instr.putbits 16 0xFFFF).wellFormed = true ∧ (Instr.putbits 1 0).wellFormed = true ∧
    (Instr.tnw 510).wellFormed = true ∧ (Instr.tnrd 0).wellFormed = true ∧
    (Instr.getbits 16).wellFormed = true ∧ (Instr.getbits 1).wellFormed = true := by decide

theorem witness_EncodeUndoesDecode : decode 0x28_0001FE#32 = .ok (.tnw 510) := by rfl

theorem witness_OpcodeMapDecodes :
    (0x1010FFFF#32 &&& 0xFFE00000#32 = 0x10000000#32 ∧
      (BitVec.extractLsb' 16 5 0x1010FFFF#32).toNat = 16) ∧
    (0x10010000#32 &&& 0xFFE00000#32 = 0x10000000#32 ∧
      (BitVec.extractLsb' 16 5 0x10010000#32).toNat = 1) ∧
    0x110000FF#32 &&& 0xFFFFFF00#32 = 0x11000000#32 ∧ 0x2000FFFF#32 &&& 0xFFFF0000#32 = 0x20000000#32 ∧
    0x210007FF#32 &&& 0xFFFFF800#32 = 0x21000000#32 ∧ 0x220000FF#32 &&& 0xFFFFFF00#32 = 0x22000000#32 ∧
    0x230007FF#32 &&& 0xFFFFF800#32 = 0x23000000#32 ∧
    (0x280001FE#32 &&& 0xFFFFFE00#32 = 0x28000000#32 ∧
      (BitVec.extractLsb' 0 9 0x280001FE#32).toNat = 510) ∧
    (0x290001FE#32 &&& 0xFFFFFE00#32 = 0x29000000#32 ∧
      (BitVec.extractLsb' 0 9 0x290001FE#32).toNat = 510) ∧
    (0x30000010#32 &&& 0xFFFFFFE0#32 = 0x30000000#32 ∧
      (BitVec.extractLsb' 0 5 0x30000010#32).toNat = 16) ∧
    (0x30000001#32 &&& 0xFFFFFFE0#32 = 0x30000000#32 ∧
      (BitVec.extractLsb' 0 5 0x30000001#32).toNat = 1) ∧
    decode 0x32000000#32 = .ok .drun := by decide

theorem witness_ReservedOpcodeRaisesIllegal : State.reset.err = .none ∧
    (BitVec.extractLsb' 24 8 0x04000000#32).toNat = 0x04 ∧
    (BitVec.extractLsb' 24 8 0x0F000000#32).toNat = 0x0F ∧
    (BitVec.extractLsb' 24 8 0x13000000#32).toNat = 0x13 ∧
    (BitVec.extractLsb' 24 8 0x1F000000#32).toNat = 0x1F ∧
    (BitVec.extractLsb' 24 8 0x24000000#32).toNat = 0x24 ∧
    (BitVec.extractLsb' 24 8 0x27000000#32).toNat = 0x27 ∧
    (BitVec.extractLsb' 24 8 0x2A000000#32).toNat = 0x2A ∧
    (BitVec.extractLsb' 24 8 0x2F000000#32).toNat = 0x2F ∧
    (BitVec.extractLsb' 24 8 0x33000000#32).toNat = 0x33 ∧
    (BitVec.extractLsb' 24 8 0xFF000000#32).toNat = 0xFF := by decide

theorem witness_IllegalFieldRaisesIllegal : State.reset.err = .none ∧
    (BitVec.extractLsb' 24 8 0x10200001#32 = 0x10#8 ∧ 0x10200001#32 &&& 0x00E00000#32 ≠ 0) ∧
    (BitVec.extractLsb' 24 8 0x22000141#32 = 0x22#8 ∧ 0x22000141#32 &&& 0x00FFFF00#32 ≠ 0) ∧
    (BitVec.extractLsb' 24 8 0x32800000#32 = 0x32#8 ∧ 0x32800000#32 &&& 0x00FFFFFF#32 ≠ 0) ∧
    (BitVec.extractLsb' 24 8 0x10000000#32 = 0x10#8 ∧ (BitVec.extractLsb' 16 5 0x10000000#32).toNat = 0) ∧
    (BitVec.extractLsb' 24 8 0x10110000#32 = 0x10#8 ∧ (BitVec.extractLsb' 16 5 0x10110000#32).toNat = 17) ∧
    (BitVec.extractLsb' 24 8 0x30000000#32 = 0x30#8 ∧ (BitVec.extractLsb' 0 5 0x30000000#32).toNat = 0) ∧
    (BitVec.extractLsb' 24 8 0x30000011#32 = 0x30#8 ∧ (BitVec.extractLsb' 0 5 0x30000011#32).toNat = 17) ∧
    (BitVec.extractLsb' 24 8 0x280001FF#32 = 0x28#8 ∧ BitVec.extractLsb' 0 9 0x280001FF#32 = 511#9) ∧
    (BitVec.extractLsb' 24 8 0x290001FF#32 = 0x29#8 ∧ BitVec.extractLsb' 0 9 0x290001FF#32 = 511#9) := by
  decide

/-- A performed command: DSTEP of vector U6, and the same over a byte never written. -/
theorem witness_StepPerformsDecodedCommand :
    (EngineTurn (issued 0x31000000 (lone 0)) 0x31000000 ∧ (issued 0x31000000 (lone 0)).err = .none ∧
      decode 0x31000000#32 = .ok .dstep ∧
      ∃ t, exec .dstep (popped (issued 0x31000000 (lone 0))) = .next t) ∧
    (EngineTurn (issued 0x31000000 { lone 0 with mem := [] }) 0x31000000 ∧
      (issued 0x31000000 { lone 0 with mem := [] }).err = .none ∧
      exec .dstep (popped (issued 0x31000000 { lone 0 with mem := [] })) = .fault .unwrittenDmemByte) ∧
    nextMove State.reset = .engine ∧ State.reset.pending = none :=
  ⟨⟨⟨rfl, rfl⟩, rfl, rfl, next_exists (by decide +kernel)⟩, ⟨⟨rfl, rfl⟩, rfl, rfl⟩, rfl, rfl⟩

theorem witness_ErrorGateDiscards :
    EngineTurn (issued 0x11000061 { State.reset with err := .truncated }) 0x11000061 ∧
    EngineTurn (issued 0x01000001 { State.reset with err := .truncated }) 0x01000001 ∧
    EngineTurn (issued 0x01000000 { State.reset with err := .busError }) 0x01000000 ∧
    (issued 0x01000000 { State.reset with err := .busError }).err ≠ .none :=
  ⟨⟨rfl, rfl⟩, ⟨rfl, rfl⟩, ⟨rfl, rfl⟩, by decide⟩

theorem witness_CompletionIdlesEngine :
    EngineTurn (issued 0 State.reset) 0 ∧ ∃ t, step (issued 0 State.reset) = .next t :=
  ⟨⟨rfl, rfl⟩, _, rfl⟩

theorem witness_CmdWriteIssuesOrOverruns :
    (nextMove (hosted (.regWrite 0x10 0) State.reset) = .host (.regWrite 0x10 0) ∧
      (hosted (.regWrite 0x10 0) State.reset).busy = false) ∧
    (∃ t, step (hosted (.regWrite 0x10 0) State.reset) = .next t ∧ nextMove t = .engine) ∧
    (nextMove (hosted (.regWrite 0x10 0) (busy State.reset)) = .host (.regWrite 0x10 0) ∧
      (hosted (.regWrite 0x10 0) (busy State.reset)).busy = true) ∧
    nextMove (hosted (.regRead 0x10) State.reset) = .host (.regRead 0x10) :=
  ⟨⟨rfl, rfl⟩, ⟨_, rfl, rfl⟩, ⟨rfl, rfl⟩, rfl⟩

/-- The illegal words of the statements of one command each: opcode and reserved bits. -/
theorem witness_illegal_words : State.reset.err = .none ∧
    (opcodeOf 0x00000001#32 = 0x00#8 ∧ BitVec.extractLsb' 0 24 0x00000001#32 ≠ 0) ∧
    (opcodeOf 0x01000001#32 = 0x01#8 ∧ BitVec.extractLsb' 0 24 0x01000001#32 ≠ 0) ∧
    (opcodeOf 0x02800000#32 = 0x02#8 ∧ BitVec.extractLsb' 0 24 0x02800000#32 ≠ 0) ∧
    (opcodeOf 0x03000001#32 = 0x03#8 ∧ BitVec.extractLsb' 0 24 0x03000001#32 ≠ 0) ∧
    (opcodeOf 0x12000001#32 = 0x12#8 ∧ BitVec.extractLsb' 0 24 0x12000001#32 ≠ 0) ∧
    (opcodeOf 0x20010000#32 = 0x20#8 ∧ BitVec.extractLsb' 16 8 0x20010000#32 ≠ 0) ∧
    (opcodeOf 0x21000800#32 = 0x21#8 ∧ BitVec.extractLsb' 11 13 0x21000800#32 ≠ 0) ∧
    (opcodeOf 0x22000100#32 = 0x22#8 ∧ BitVec.extractLsb' 8 16 0x22000100#32 ≠ 0) ∧
    (opcodeOf 0x23000800#32 = 0x23#8 ∧ BitVec.extractLsb' 11 13 0x23000800#32 ≠ 0) ∧
    (opcodeOf 0x280001FF#32 = 0x28#8 ∧ idxOf 0x280001FF#32 = 511) ∧
    (opcodeOf 0x28000200#32 = 0x28#8 ∧ BitVec.extractLsb' 9 15 0x28000200#32 ≠ 0) ∧
    (opcodeOf 0x290001FF#32 = 0x29#8 ∧ idxOf 0x290001FF#32 = 511) ∧
    (opcodeOf 0x29000200#32 = 0x29#8 ∧ BitVec.extractLsb' 9 15 0x29000200#32 ≠ 0) := by decide

theorem witness_ClrStartsNewStream :
    (∃ t, exec .clr State.reset = .next t) ∧
    ({ State.reset with err := .truncated } : State).err ≠ .none ∧ 0x01000001#32 ≠ 0x01000000#32 :=
  ⟨⟨_, rfl⟩, by decide, by decide⟩

theorem witness_CtclrEmptiesCodeTable :
    (codeEntry State.reset 0x61).len = 0 ∧
    (∃ t, exec (.ctlen 0x61 0) State.reset = .next t) ∧ (∀ sym, (codeEntry State.reset sym).len = 0) ∧
    (∀ sym len, Instr.ctlen 0x61 0 = .ctlen sym len → len = 0) := by
  refine ⟨?_, ⟨_, rfl⟩, fun sym => ?_, fun sym len h => by cases h; rfl⟩ <;>
    simp [codeEntry, State.reset, State.resetOf, CodeEntry.empty]

theorem witness_TnclrEmptiesTreeTable :
    (∀ i, i < 511 → ({ State.reset with symRemain := 1 } : State).tn[i]? = some 0) ∧
    ({ State.reset with symRemain := 1 } : State).symRemain ≠ 0 :=
  ⟨fun i hi => by simp [State.reset, State.resetOf, hi], by decide⟩

/-- CTLEN 0 removes 'a'; another symbol is there to stay. -/
theorem witness_CtlenSetsLength : (0x62 : Sym) ≠ 0x61 ∧ (0 : BitVec 8) = 0 := by decide

/-- A word beyond LEN: LEN = 2, K = 1. -/
theorem witness_CtwordWritesCodeWord : (1 : BitVec 3) ≠ 0 ∧ (0x62 : Sym) ≠ 0x61 ∧
    ∀ j, j < (codeEntry (coded 0x61 2 0) 0x61).len.toNat → j / 32 = (1 : BitVec 3).toNat →
      (coded 0x61 2 0).data.getLsbD (31 - j % 32) =
        (codeWord (codeEntry (coded 0x61 2 0) 0x61) 1).getLsbD (31 - j % 32) := by
  refine ⟨by decide, by decide, fun j hj h1 => ?_⟩
  have h2 : (codeEntry (coded 0x61 2 0) 0x61).len.toNat = 2 := by decide +kernel
  rw [h2] at hj
  have h3 : j / 32 = 1 := h1
  omega

theorem witness_CtrdwordReadsCodeWord : ∃ t, exec (.ctword 0x62 7) State.reset = .next t := ⟨_, rfl⟩

theorem witness_TnwWritesSlot : (510 : Slot) ≠ 511 ∧ (0 : Slot) ≠ 511 ∧ 0 ≠ (510 : Slot).toNat ∧
    State.reset.data.getLsbD 31 = false ∧
    ({ State.reset with data := 0xC1840000 } : State).data.getLsbD 31 = true := by decide

theorem witness_TnrdReadsSlot : (510 : Slot) ≠ 511 ∧ TreeReservedZero State.reset ∧
    ∃ t, exec (.tnw 510) State.reset = .next t := by
  refine ⟨by decide, fun nd h j _ _ => ?_, _, rfl⟩
  rw [(Vector.mem_replicate.1 h).2]
  simp

/-- N = 16 fills the last two bytes of memory; P-5's ignored bits. -/
theorem witness_PutbitsAppendsImmediate :
    legalCount 16 = true ∧ AccClean { small State.reset with outPtr := 0xFE } ∧
    PopulatedFrom { small State.reset with outPtr := 0xFE } 0xFE ((0 + (16 : BitVec 5).toNat) / 8) ∧
    ∀ j, j < (4 : BitVec 5).toNat → (0xFFF5 : BitVec 16).getLsbD j = (0x0005 : BitVec 16).getLsbD j := by
  refine ⟨by decide, accClean_reset, ?_, by decide⟩
  show ∀ k, k < 2 → _
  decide

theorem witness_PutsymAppendsCode :
    (codeEntry State.reset 0x7A).len = 0 ∧ (codeEntry (coded 0x61 255 0) 0x61).len ≠ 0 ∧
    AccClean (coded 0x61 255 0) ∧ PopulatedFrom (coded 0x61 255 0) 0 ((0 + 255) / 8) := by
  refine ⟨by decide +kernel, by decide +kernel, accClean_reset, ?_⟩
  show ∀ k, k < 31 → _
  decide

/-- P-12: the first byte is populated, the second is not. -/
theorem witness_PackerBusErrorIsAtomic :
    legalCount 16 = true ∧
    ¬ PopulatedFrom { small State.reset with outPtr := 0xFF } 0xFF ((0 + (16 : BitVec 5).toNat) / 8) ∧
    (codeEntry (coded 0x61 16 0) 0x61).len ≠ 0 ∧
    ¬ PopulatedFrom { small (coded 0x61 16 0) with outPtr := 0xFF } 0xFF ((0 + 16) / 8) := by
  refine ⟨by decide, fun h => ?_, by decide +kernel, fun h => ?_⟩ <;>
    · have := h 1 (by decide); revert this; decide

theorem witness_FlushWritesPartialByte :
    State.reset.accN = 0 ∧
    ({ State.reset with acc := 0x40, accN := 2 } : State).accN ≠ 0 ∧
    populated { State.reset with acc := 0x40, accN := 2 } 0 = true ∧
    AccClean { State.reset with acc := 0x40, accN := 2 } ∧
    populated { small State.reset with acc := 0x40, accN := 2, outPtr := 0x100 } 0x100 = false := by
  refine ⟨rfl, by decide, by decide, ?_, by decide⟩
  show ∀ j, j < 6 → _
  decide

theorem packed_ten : ∃ t, execAll [.putbits 10 0x111, .flush] State.reset = .next t ∧ t.err = .none := by
  have h : nextHas (execAll [.putbits 10 0x111, .flush] State.reset) (fun t => t.err == .none) = true := by
    decide +kernel
  obtain ⟨t, ht, hp⟩ := next_of h
  exact ⟨t, ht, by simpa using hp⟩

/-- P-2: ten bits and a FLUSH. -/
theorem witness_PackingLaw :
    AccClean State.reset ∧ State.reset.accN = 0 ∧ State.reset.err = .none ∧
    (∀ c ∈ [(Instr.putbits 10 0x111, immediateBits 10 0x111)], Appends State.reset c.1 c.2) ∧
    packedLength (immediateBits 10 0x111) ≤ 2 ^ 32 ∧
    ∃ t, execAll [.putbits 10 0x111, .flush] State.reset = .next t ∧ t.err = .none := by
  refine ⟨accClean_reset, rfl, rfl, fun c hc => ?_, by decide, packed_ten⟩
  rw [List.mem_singleton.1 hc]
  exact .inl ⟨10, 0x111, rfl, rfl⟩

/-- The state of U1, with n bits buffered and the first byte at p. -/
def stream (m : Memory) (p e : Addr) : State := { State.reset with mem := m, inPtr := p, inEnd := e }

theorem witness_GetbitsReadsBits :
    legalCount 10 = true ∧
    [false, true, false, false, false, true, false, false, false, true].length = (10 : BitVec 5).toNat ∧
    StreamBegins (stream [(0x200, 0x44), (0x201, 0x40)] 0x200 0x202)
      [false, true, false, false, false, true, false, false, false, true] := by
  refine ⟨by decide, by decide, ?_⟩
  show ∀ j, (h : j < 10) → _
  decide

/-- Eight bits readable, the window's end after them. -/
theorem witness_GetbitsStops_truncated :
    legalCount 9 = true ∧ [false, true, false, false, false, true, false, false].length < (9 : BitVec 5).toNat ∧
    StreamBegins (stream [(0x200, 0x44)] 0x200 0x201) [false, true, false, false, false, true, false, false] ∧
    bitsLeft (stream [(0x200, 0x44)] 0x200 0x201) = 8 := by
  refine ⟨by decide, by decide, ?_, by decide⟩
  show ∀ j, (h : j < 8) → _
  decide

/-- Eight bits readable, an unpopulated byte after them. -/
theorem witness_GetbitsStops_bus :
    StreamBegins (small (stream [(0xFF, 0x44)] 0xFF 0x101))
      [false, true, false, false, false, true, false, false] ∧
    8 < bitsLeft (small (stream [(0xFF, 0x44)] 0xFF 0x101)) ∧
    (small (stream [(0xFF, 0x44)] 0xFF 0x101)).ubufN.val ≤ 8 ∧
    (8 - (small (stream [(0xFF, 0x44)] 0xFF 0x101)).ubufN.val) % 8 = 0 ∧
    populated (small (stream [(0xFF, 0x44)] 0xFF 0x101))
      ((small (stream [(0xFF, 0x44)] 0xFF 0x101)).inPtr + BitVec.ofNat 32 (8 / 8)) = false := by
  refine ⟨?_, by decide, by decide, by decide, by decide⟩
  show ∀ j, (h : j < 8) → _
  decide

/-- Eight bits readable, a byte never written after them. -/
theorem witness_GetbitsStops_unwritten :
    StreamBegins (stream [(0x200, 0x44)] 0x200 0x202)
      [false, true, false, false, false, true, false, false] ∧
    8 < bitsLeft (stream [(0x200, 0x44)] 0x200 0x202) ∧
    (stream [(0x200, 0x44)] 0x200 0x202).ubufN.val ≤ 8 ∧
    (8 - (stream [(0x200, 0x44)] 0x200 0x202).ubufN.val) % 8 = 0 ∧
    populated (stream [(0x200, 0x44)] 0x200 0x202) (0x200 + BitVec.ofNat 32 (8 / 8)) = true ∧
    (stream [(0x200, 0x44)] 0x200 0x202).mem.read (0x200 + BitVec.ofNat 32 (8 / 8)).toNat = none := by
  refine ⟨?_, by decide, by decide, by decide, by decide, by decide⟩
  show ∀ j, (h : j < 8) → _
  decide

theorem witness_NothingLeftToDecode : State.reset.symRemain = 0 := rfl

/-- `pair` with input and output set up. -/
def reading (v : Byte) : State :=
  { pair with mem := [(0x10, v)], inPtr := 0x10, inEnd := 0x11, symPtr := 0x20, symRemain := 2 }

/-- A stream of no bits. -/
theorem begins_nil (s : State) : StreamBegins s [] := fun _ h => absurd h (Nat.not_lt_zero _)

/-- A stream of one bit. -/
theorem begins_one {s : State} {b : Bool} (h : streamBit s 0 = some b) : StreamBegins s [b] := by
  intro j hj
  have : j = 0 := by simp at hj; omega
  subst this
  exact h

theorem witness_DstepDecodesLeaf :
    (reading 0x80).symRemain ≠ 0 ∧ [true] ≠ [] ∧ slotAfter (reading 0x80) 0 [true] = some 2 ∧
    loadNode (reading 0x80) 2 = .ok 0xC1840000 ∧ nodeLeaf 0xC1840000 = true ∧
    StreamBegins (reading 0x80) [true] ∧ populated (reading 0x80) 0x20 = true :=
  ⟨by decide, by decide, rfl, rfl, rfl, begins_one rfl, by decide⟩

/-- A machine of 0x300 bytes. -/
def medium (s : State) : State := { s with cfg := { Config.standard with dmemSize := 0x300 } }

theorem witness_DstepLoneLeaf :
    ((lone 0).symRemain ≠ 0 ∧ loadNode (lone 0) (lone 0).root = .ok 0xC1840000 ∧
      nodeLeaf 0xC1840000 = true ∧ StreamBegins (lone 0) [false] ∧
      populated (lone 0) (lone 0).symPtr = true) ∧
    (loadNode (lone 0x80) (lone 0x80).root = .ok 0xC1840000 ∧ StreamBegins (lone 0x80) [true]) ∧
    (loadNode (medium (lone 0)) (medium (lone 0)).root = .ok 0xC1840000 ∧
      StreamBegins (medium (lone 0)) [false] ∧
      populated (medium (lone 0)) (medium (lone 0)).symPtr = false) :=
  ⟨⟨by decide, rfl, rfl, begins_one rfl, by decide⟩, ⟨rfl, begins_one rfl⟩, rfl, begins_one rfl, by decide⟩

/-- BAD_TREE at ROOT before any bit, and at a child: U12 and U15. -/
theorem witness_DstepErrors_badTree :
    (({ State.reset with symRemain := 1 } : State).symRemain ≠ 0 ∧
      slotAfter { State.reset with symRemain := 1 } 0 [] = some 0 ∧
      StreamBegins { State.reset with symRemain := 1 } [] ∧
      loadNode { State.reset with symRemain := 1 } 0 = .error (.raise .badTree)) ∧
    (slotAfter { reading 0 with tn := State.reset.tn.set 0 0x8003FE01 } 0 [false] = some 511 ∧
      StreamBegins { reading 0 with tn := State.reset.tn.set 0 0x8003FE01 } [false] ∧
      loadNode { reading 0 with tn := State.reset.tn.set 0 0x8003FE01 } 511 = .error (.raise .badTree)) :=
  ⟨⟨by decide, rfl, begins_nil _, rfl⟩, rfl, begins_one rfl, rfl⟩

/-- At an internal ROOT with no bit taken: the window's end, an unpopulated byte, a byte never written. -/
theorem witness_DstepErrors_fetch :
    ((reading 0).symRemain ≠ 0 ∧ slotAfter { reading 0 with inPtr := 0x11 } 0 [] = some 0 ∧
      loadNode { reading 0 with inPtr := 0x11 } 0 = .ok 0x80000202 ∧
      bitsLeft { reading 0 with inPtr := 0x11 } = 0) ∧
    (slotAfter (small { reading 0 with inPtr := 0x100, inEnd := 0x101 }) 0 [] = some 0 ∧
      loadNode (small { reading 0 with inPtr := 0x100, inEnd := 0x101 }) 0 = .ok 0x80000202 ∧
      0 < bitsLeft (small { reading 0 with inPtr := 0x100, inEnd := 0x101 }) ∧
      (small { reading 0 with inPtr := 0x100, inEnd := 0x101 }).ubufN.val ≤ 0 ∧
      populated (small { reading 0 with inPtr := 0x100, inEnd := 0x101 }) 0x100 = false) ∧
    (slotAfter { reading 0 with mem := [] } 0 [] = some 0 ∧
      loadNode { reading 0 with mem := [] } 0 = .ok 0x80000202 ∧
      0 < bitsLeft { reading 0 with mem := [] } ∧ ({ reading 0 with mem := [] } : State).ubufN.val ≤ 0 ∧
      populated { reading 0 with mem := [] } 0x10 = true ∧
      ({ reading 0 with mem := [] } : State).mem.read 0x10 = none) :=
  ⟨⟨by decide, rfl, rfl, by decide⟩, ⟨rfl, rfl, by decide, by decide, by decide⟩, rfl, rfl, by decide,
    by decide, by decide, rfl⟩

/-- A leaf reached, SYM_PTR unpopulated. -/
theorem witness_DstepErrors_symbol :
    slotAfter (small { reading 0x80 with symPtr := 0x100 }) 0 [true] = some 2 ∧
    StreamBegins (small { reading 0x80 with symPtr := 0x100 }) [true] ∧
    loadNode (small { reading 0x80 with symPtr := 0x100 }) 2 = .ok 0xC1840000 ∧
    nodeLeaf 0xC1840000 = true ∧ [true] ≠ [] ∧
    populated (small { reading 0x80 with symPtr := 0x100 }) 0x100 = false :=
  ⟨rfl, begins_one rfl, rfl, rfl, by decide, by decide⟩

theorem witness_DstepFrame : ∃ t, exec .dstep (lone 0) = .next t := next_exists (by decide +kernel)

theorem witness_WalkEndsWithStream : bitsLeft (reading 0) ≤ 9 ∧ bitsLeft State.reset ≤ 0 := by decide

theorem witness_DrunRepeatsDstep :
    ((lone 0).err = .none ∧ (lone 0).symRemain ≠ 0 ∧ ∃ t, exec .dstep (lone 0) = .next t ∧ t.err = .none) ∧
    (∃ t, exec .dstep (lone 0x80) = .next t ∧ t.err ≠ .none) ∧
    exec .dstep { lone 0 with mem := [] } = .fault .unwrittenDmemByte := by
  have h1 : nextHas (exec .dstep (lone 0)) (fun t => t.err == .none) = true := by decide +kernel
  have h2 : nextHas (exec .dstep (lone 0x80)) (fun t => t.err != .none) = true := by decide +kernel
  obtain ⟨t, ht, hp⟩ := next_of h1
  obtain ⟨u, hu, hq⟩ := next_of h2
  exact ⟨⟨rfl, by decide, t, ht, by simpa using hp⟩, ⟨u, hu, by simpa using hq⟩, rfl⟩

theorem witness_DrunEndsAndCounts : (lone 0).err = .none ∧ ∃ t, exec .drun (lone 0) = .next t :=
  ⟨rfl, next_exists (by decide +kernel)⟩

/-- Two symbols 'a', 'b' under `pair`, then U9's short stream: six more bits decide two symbols. -/
theorem witness_DrunDecodesText :
    Placed (reading 0x80) (.node (.leaf 0x62) (.leaf 0x61)) (reading 0x80).root ∧
    TextCodes (.node (.leaf 0x62) (.leaf 0x61)) [0x61, 0x62] [[true], [false]] ∧
    (reading 0x80).symRemain.toNat = [(0x61 : Sym), 0x62].length ∧
    StreamBegins (reading 0x80) [[true], [false]].flatten ∧
    PopulatedFrom (reading 0x80) (reading 0x80).symPtr 2 ∧
    OutsideWindow (reading 0x80) (reading 0x80).symPtr 2 := by
  refine ⟨⟨0x80000202, rfl, rfl, ⟨0xC1880000, rfl, rfl, rfl⟩, 0xC1840000, rfl, rfl, rfl⟩,
    ⟨rfl, rfl, trivial⟩, rfl, ?_, ?_, ?_⟩
  · show ∀ j, (h : j < 2) → _
    decide +kernel
  · show ∀ k, k < 2 → _
    decide +kernel
  · show ∀ k, k < 2 → _
    decide +kernel

/-- U9: eight symbols of tree L, then no bit. -/
theorem witness_ShortStreamTruncates :
    Placed { lone 0 with symRemain := 9 } (.leaf 0x61) 0 ∧
    TextCodes (.leaf 0x61) (List.replicate 8 0x61) (List.replicate 8 [false]) ∧
    (HuffTree.leaf 0x61).undecided [] ∧ 8 < ({ lone 0 with symRemain := 9 } : State).symRemain.toNat ∧
    StreamBegins { lone 0 with symRemain := 9 } ((List.replicate 8 [false]).flatten ++ []) ∧
    bitsLeft { lone 0 with symRemain := 9 } = ((List.replicate 8 [false]).flatten ++ []).length ∧
    PopulatedFrom { lone 0 with symRemain := 9 } 0x300 8 ∧
    OutsideWindow { lone 0 with symRemain := 9 } 0x300 8 := by
  refine ⟨⟨0xC1840000, rfl, rfl, rfl⟩, by simp [TextCodes, HuffTree.hasCode, List.replicate], rfl, by decide,
    ?_, by decide, ?_, ?_⟩
  · show ∀ j, (h : j < 8) → _
    decide +kernel
  · show ∀ k, k < 8 → _
    decide +kernel
  · show ∀ k, k < 8 → _
    decide +kernel

/-- `coded` as the code table of tree L. -/
theorem coded_codesOf (s : State) (h : s.ct = (coded 0x61 1 0).ct) : CodesOf s (.leaf 0x61) := by
  intro sym hl
  have he : codeEntry s sym = codeEntry (coded 0x61 1 0) sym := by simp only [codeEntry, h]
  rw [he] at hl ⊢
  by_cases hs : sym = 0x61
  · subst hs
    exact ⟨rfl, by decide +kernel⟩
  · exfalso
    apply hl
    have : (0x61 : Sym).toNat ≠ sym.toNat := fun e => hs (BitVec.eq_of_toNat_eq e.symm)
    simp only [codeEntry, coded, Vector.getElem_set_ne _ _ this]
    simp [State.reset, State.resetOf, CodeEntry.empty]

/-- Tree L with its code table, about to decode. -/
def agreeing : State := { lone 0 with ct := (coded 0x61 1 0).ct }

theorem witness_CodeTreeAgreement :
    CodesOf agreeing (.leaf 0x61) ∧ Placed agreeing (.leaf 0x61) agreeing.root ∧
    (codeEntry agreeing 0x61).len ≠ 0 ∧
    StreamBegins agreeing (codeBits (codeEntry agreeing 0x61)) ∧ agreeing.symRemain ≠ 0 ∧
    populated agreeing agreeing.symPtr = true := by
  refine ⟨coded_codesOf _ rfl, ⟨0xC1840000, rfl, rfl, rfl⟩, by decide +kernel, ?_, by decide, by decide⟩
  have : codeBits (codeEntry agreeing 0x61) = [false] := by decide +kernel
  rw [this]
  intro j hj
  have : j = 0 := by simp at hj; omega
  subst this
  rfl

theorem witness_BitStreamRoundTrip : packedLength (immediateBits 10 0x111) < 2 ^ 32 ∧
    ∃ t, execAll [.putbits 10 0x111, .flush] State.reset = .next t ∧ t.err = .none :=
  ⟨by decide, packed_ten⟩

/-- P3's text "aa". -/
theorem witness_SymbolRoundTrip :
    AccClean agreeing ∧ agreeing.accN = 0 ∧ agreeing.err = .none ∧ CodesOf agreeing (.leaf 0x61) ∧
    Placed agreeing (.leaf 0x61) agreeing.root ∧
    packedLength ([(0x61 : Sym), 0x61].flatMap fun sym => codeBits (codeEntry agreeing sym)) < 2 ^ 32 ∧
    ∃ t, execAll ([(0x61 : Sym), 0x61].map Instr.putsym ++ [.flush]) agreeing = .next t ∧ t.err = .none ∧
      PopulatedFrom t 0x300 2 ∧
      OutsideWindow { t with inPtr := agreeing.outPtr, inEnd := t.outPtr } 0x300 2 := by
  refine ⟨accClean_reset, rfl, rfl, coded_codesOf _ rfl, ⟨0xC1840000, rfl, rfl, rfl⟩, by decide +kernel, ?_⟩
  have h : nextHas (execAll ([(0x61 : Sym), 0x61].map Instr.putsym ++ [.flush]) agreeing) (fun t =>
      t.err == .none && (List.range 2).all (fun k => populated t (0x300 + BitVec.ofNat 32 k)) &&
      (List.range 2).all (fun k => !within agreeing.outPtr (t.outPtr - agreeing.outPtr).toNat
        (0x300 + BitVec.ofNat 32 k))) = true := by decide +kernel
  obtain ⟨t, ht, hp⟩ := next_of h
  simp only [Bool.and_eq_true, beq_iff_eq, List.all_eq_true, List.mem_range, Bool.not_eq_true'] at hp
  exact ⟨t, ht, hp.1.1, hp.1.2, hp.2⟩

theorem witness_ErrorLeavesStateUntouched : (Instr.putsym 0x7A) ≠ .drun ∧ State.reset.err = .none ∧
    ∃ t, exec (.putsym 0x7A) State.reset = .next t ∧ t.err ≠ .none := by
  refine ⟨by decide, rfl, ?_⟩
  have h : nextHas (exec (.putsym 0x7A) State.reset) (fun t => t.err != .none) = true := by decide +kernel
  obtain ⟨t, ht, hp⟩ := next_of h
  exact ⟨t, ht, by simpa using hp⟩

/-- A command for each code: ILLEGAL_CMD, SYM_NOT_IN_TABLE, TRUNCATED, BAD_TREE, BAD_CODE, BUS_ERROR. -/
theorem witness_ErrorSources : State.reset.err = .none ∧
    nextHas (exec (.putbits 0 0) State.reset) (fun t => t.err == .illegalCmd) = true ∧
    nextHas (exec (.putsym 0x7A) State.reset) (fun t => t.err == .symNotInTable) = true ∧
    nextHas (exec (.getbits 1) State.reset) (fun t => t.err == .truncated) = true ∧
    nextHas (exec .dstep { State.reset with symRemain := 1 }) (fun t => t.err == .badTree) = true ∧
    nextHas (exec .dstep (lone 0x80)) (fun t => t.err == .badCode) = true ∧
    nextHas (exec .flush { small State.reset with accN := 1, outPtr := 0x100 })
      (fun t => t.err == .busError) = true := by decide +kernel

theorem witness_ErrorIsSticky :
    (∃ t, step (issued 0x01000000 { State.reset with err := .truncated }) = .next t ∧ t.err ≠ .truncated) ∧
    ∃ t, step { State.reset with err := .truncated, schedule := [.reset 0] } = .next t ∧
      t.err ≠ .truncated := by
  have h1 : nextHas (step (issued 0x01000000 { State.reset with err := .truncated }))
      (fun t => t.err != .truncated) = true := by decide +kernel
  have h2 : nextHas (step { State.reset with err := .truncated, schedule := [.reset 0] })
      (fun t => t.err != .truncated) = true := by decide +kernel
  obtain ⟨t, ht, hp⟩ := next_of h1
  obtain ⟨u, hu, hq⟩ := next_of h2
  exact ⟨⟨t, ht, by simpa using hp⟩, u, hu, by simpa using hq⟩

theorem witness_CommandsStopOnlyOnUnwrittenBytes :
    exec (.getbits 1) (stream [] 0x200 0x201) = .fault .unwrittenDmemByte ∧
    populated (stream [] 0x200 0x201) 0x200 = true ∧
    (stream [] 0x200 0x201).mem.read (0x200 : Addr).toNat = none := ⟨rfl, by decide, rfl⟩

theorem witness_CommandsKeepHostRegisters : ∃ t, exec .drun (lone 0) = .next t :=
  next_exists (by decide +kernel)

/-- A command that writes each of the registers. -/
theorem witness_RegisterWriters :
    nextHas (exec (.getbits 10) (stream [(0x200, 0x44), (0x201, 0x40)] 0x200 0x202)) (fun t =>
      t.result != 0 && t.inPtr != 0x200 && t.ubufN != 0) = true ∧
    nextHas (exec (.ctrdlen 0x61) (coded 0x61 1 0)) (fun t => t.data != 0) = true ∧
    nextHas (exec (.ctlen 0x61 2) State.reset) (fun t => (codeEntry t 0x61).len != 0) = true ∧
    nextHas (exec (.tnw 0) { State.reset with data := 0xC1840000 }) (fun t => t.tn[0] != 0) = true ∧
    nextHas (exec (.putbits 10 0x111) State.reset) (fun t =>
      t.outPtr != 0 && t.bitcnt != 0 && t.accN != 0 && t.mem != []) = true ∧
    nextHas (exec .dstep (lone 0)) (fun t => t.symPtr != 0x300 && t.symRemain != 4) = true ∧
    nextHas (exec .clr { State.reset with ovr := true }) (fun t => t.ovr != true) = true := by decide +kernel

/-- An invariant state that steps: U6, performed. -/
theorem reset_inv_mem {s : State} (hm : s.mem.wf = true) (hp : MemPopulated s) (hc : s.acc = 0)
    (hu : s.ubuf = 0) (ht : s.tn = State.reset.tn) (hb : s.busy = s.pending.isSome)
    (hd : s.busy = true → s.done = false) : StateInv s where
  memWf := hm
  memPopulated := hp
  accClean := by intro j _; simp [hc]
  ubufClean := by intro j _; simp [hu]
  treeReservedZero := by
    intro nd h j _ _
    rw [ht] at h
    rw [(Vector.mem_replicate.1 h).2]
    simp
  busyPending := hb
  doneIdle := hd

theorem witness_StepKeepsInvariant :
    StateInv (issued 0x3000000A (stream [(0x200, 0x44), (0x201, 0x40)] 0x200 0x202)) ∧
    ∃ t, step (issued 0x3000000A (stream [(0x200, 0x44), (0x201, 0x40)] 0x200 0x202)) = .next t := by
  refine ⟨reset_inv_mem (by decide) ?_ rfl rfl rfl rfl (fun _ => rfl), ?_⟩
  · show ∀ c ∈ [((0x200 : Nat), (0x44 : Byte)), (0x201, 0x40)], c.1 < 2 ^ 32
    decide
  · exact next_exists (by decide +kernel)

/-- A reset that comes after the first k commits of a pending command. -/
def aborted (keep : Bool) (w : Word) (k : Nat) (s : State) : State :=
  { s with cfg := { s.cfg with dmemKeptAtReset := keep }, busy := true, pending := some w,
           schedule := [.reset k] }

/-- No commit before the reset: nothing pending, none asked for, the error gate, an illegal word. -/
theorem witness_HardwareReset_none :
    (nextMove { State.reset with schedule := [.reset 3] } = .reset 3 ∧ State.reset.pending = none) ∧
    nextMove (aborted true 0x12000000 0 State.reset) = .reset 0 ∧
    (nextMove (aborted true 0x12000000 1 { State.reset with err := .truncated }) = .reset 1 ∧
      (aborted true 0x12000000 1 { State.reset with err := .truncated }).err ≠ .none) ∧
    ((aborted false 0xFF000000 1 State.reset).pending = some 0xFF000000 ∧
      decode 0xFF000000#32 = .error .reservedOpcode) :=
  ⟨⟨rfl, rfl⟩, rfl, ⟨rfl, by decide⟩, rfl, rfl⟩

/-- A FLUSH aborted after its commit, on either platform, and a GETBITS that meets a byte never written. -/
theorem witness_HardwareReset_single (keep : Bool) :
    (nextMove (aborted keep 0x12000000 1 { State.reset with acc := 0x40, accN := 2 }) = .reset 1 ∧
      decode 0x12000000#32 = .ok .flush ∧ Instr.flush ≠ .drun ∧
      ∃ u, exec .flush (popped (aborted keep 0x12000000 1 { State.reset with acc := 0x40, accN := 2 })) =
        .next u) ∧
    (decode 0x30000001#32 = .ok (.getbits 1) ∧
      exec (.getbits 1) (popped (aborted keep 0x30000001 1 (stream [] 0x200 0x201))) =
        .fault .unwrittenDmemByte) := by
  refine ⟨⟨rfl, rfl, by decide, next_exists ?_⟩, rfl, ?_⟩ <;> cases keep <;> first | decide +kernel | rfl

/-- Of DRUN: one symbol of four (U6); the eight of U9 before the failing ninth; eight before a byte never
written. -/
theorem witness_HardwareReset_drun :
    (nextMove (aborted false 0x32000000 1 (lone 0)) = .reset 1 ∧ decode 0x32000000#32 = .ok .drun ∧
      nextHas (execAll (List.replicate 1 .dstep) (popped (aborted false 0x32000000 1 (lone 0))))
        (fun u => u.err == .none) = true) ∧
    (nextMove (aborted false 0x32000000 9 { lone 0 with symRemain := 9 }) = .reset 9 ∧ 8 ≤ 9 ∧
      nextHas (execAll (List.replicate 8 .dstep)
          (popped (aborted false 0x32000000 9 { lone 0 with symRemain := 9 })))
        (fun u => u.err == .none && nextHas (exec .dstep u) (fun v => v.err != .none)) = true) ∧
    (8 < 9 ∧ nextHas (execAll (List.replicate 8 .dstep)
          (popped (aborted false 0x32000000 9 { lone 0 with symRemain := 9, inEnd := 0x20F })))
        (fun u => u.err == .none && faultIs .unwrittenDmemByte (exec .dstep u)) = true) := by
  refine ⟨⟨rfl, rfl, ?_⟩, ⟨rfl, by decide, ?_⟩, by decide, ?_⟩ <;> decide +kernel

theorem witness_StatusWriteClears :
    nextMove (hosted (.regWrite 0x0C 0x102) (busy State.reset)) = .host (.regWrite 0x0C 0x102) := by rfl

/-- A write while BUSY = 1 at an offset of each class; the boundaries of the reserved range. -/
theorem witness_BusyRegisterWrites : (busy State.reset).busy = true ∧
    (∀ off : BitVec 8, nextMove (hosted (.regWrite off 5) (busy State.reset)) = .host (.regWrite off 5)) ∧
    (0x1C : BitVec 8) ∈ [(0x10 : BitVec 8), 0x14, 0x1C, 0x20, 0x24, 0x28, 0x2C, 0x30] ∧
    (0x40 : BitVec 8) ∈ [(0x00 : BitVec 8), 0x04, 0x18, 0x34, 0x38, 0x3C, 0x40] ∧
    (0x44 ≤ (0x44 : BitVec 8).toNat ∧ (0x44 : BitVec 8).toNat % 4 = 0) ∧
    (0x44 ≤ (0xFC : BitVec 8).toNat ∧ (0xFC : BitVec 8).toNat % 4 = 0) :=
  ⟨rfl, fun _ => rfl, by decide, by decide, by decide, by decide⟩

theorem witness_IdleRegisterWrites : State.reset.busy = false ∧
    (∀ off : BitVec 8, nextMove (hosted (.regWrite off 0x1FF) State.reset) = .host (.regWrite off 0x1FF)) ∧
    (0x40 : BitVec 8) ∈ [(0x00 : BitVec 8), 0x04, 0x18, 0x34, 0x38, 0x3C, 0x40] ∧
    (0x44 ≤ (0x44 : BitVec 8).toNat ∧ (0x44 : BitVec 8).toNat % 4 = 0) ∧
    (0x44 ≤ (0xFC : BitVec 8).toNat ∧ (0xFC : BitVec 8).toNat % 4 = 0) :=
  ⟨rfl, fun _ => rfl, by decide, by decide, by decide⟩

theorem witness_BusyRegisterReads :
    (∀ off : BitVec 8, nextMove (hosted (.regRead off) (busy State.reset)) = .host (.regRead off)) ∧
    (busy State.reset).busy = true ∧ (0x00 : BitVec 8).toNat % 4 = 0 ∧ (0x0C : BitVec 8).toNat % 4 = 0 ∧
    (0x38 : BitVec 8).toNat % 4 = 0 := ⟨fun _ => rfl, rfl, by decide, by decide, by decide⟩

theorem witness_IdleRegisterReads : State.reset.busy = false ∧
    (∀ off : BitVec 8, nextMove (hosted (.regRead off) State.reset) = .host (.regRead off)) ∧
    (0x00 : BitVec 8).toNat % 4 = 0 ∧ (0x40 : BitVec 8).toNat % 4 = 0 :=
  ⟨rfl, fun _ => rfl, by decide, by decide⟩

theorem witness_ConstantWindowSlots :
    (0x44 ≤ (0x44 : BitVec 8).toNat ∧ (0x44 : BitVec 8).toNat % 4 = 0) ∧
    (0x44 ≤ (0xFC : BitVec 8).toNat ∧ (0xFC : BitVec 8).toNat % 4 = 0) ∧
    nextMove (hosted (.regRead 0xFC) State.reset) = .host (.regRead 0xFC) ∧
    nextMove (hosted (.regRead 0x04) (busy State.reset)) = .host (.regRead 0x04) := by decide

theorem witness_HostAccessRefusals :
    (0x02 : BitVec 8).toNat % 4 ≠ 0 ∧
    nextMove (hosted (.regWrite 0xFF 0) State.reset) = .host (.regWrite 0xFF 0) ∧
    (busy State.reset).busy = true ∧
    nextMove (hosted (.memRead 0) (busy State.reset)) = .host (.memRead 0) := by decide

theorem witness_HostMemoryWrites :
    State.reset.busy = false ∧ populated (small State.reset) 0xFF = true ∧
    nextMove { small State.reset with schedule := [.host (.memWrite 0xFF 7), .host (.memRead 0xFF)] } =
      .host (.memWrite 0xFF 7) ∧
    ∃ t, step { small State.reset with schedule := [.host (.memWrite 0xFF 7), .host (.memRead 0xFF)] } =
      .next t ∧ nextMove t = .host (.memRead 0xFF) :=
  ⟨rfl, by decide, rfl, _, rfl, rfl⟩

end Sys2Proof.Tests
end

section
/-! PROOFS. What a host access to the register window does, by the register its offset names
(10_state.md R33 to R54), and the statements about the window and the state after reset that rest on it. -/

namespace Sys2Proof.Machine

/-! ## The register at an offset -/

/-- R52: from 0x44 on every aligned offset is reserved. -/
theorem regAt_reserved {off : BitVec 8} (h : 0x44 ≤ off.toNat) (ha : off.toNat % 4 = 0) :
    regAt off = some .reserved := by
  obtain ⟨k, hk⟩ : ∃ k, off.toNat / 4 = k + 17 := Nat.exists_eq_add_of_le' (by omega)
  simp only [regAt, ha, hk, if_true]

/-- The registers no host write reaches: read-only or reserved (R34, R52). -/
def writeIgnoredRegs : List WindowReg :=
  [.id, .version, .result, .pacc, .uacc, .bitcntLo, .bitcntHi, .reserved]

/-- The registers a write reaches only while BUSY = 0: CMD (R40) and every RW register but CTRL (R53). -/
def idleWriteRegs : List WindowReg :=
  [.cmd, .data, .outPtr, .inPtr, .inEnd, .symPtr, .symRemain, .root]

theorem regAt_mem_idleWriteRegs :
    ∀ off ∈ ([0x10, 0x14, 0x1C, 0x20, 0x24, 0x28, 0x2C, 0x30] : List (BitVec 8)),
    ∃ r ∈ idleWriteRegs, regAt off = some r := by decide

theorem regAt_mem_writeIgnoredRegs :
    ∀ off ∈ ([0x00, 0x04, 0x18, 0x34, 0x38, 0x3C, 0x40] : List (BitVec 8)),
    ∃ r ∈ writeIgnoredRegs, regAt off = some r := by decide

/-! ## One window access -/

theorem writeCmd_idle {s : State} (hb : s.busy = false) (w : Word) :
    writeCmd w s = { s with pending := some w, busy := true, done := false } := by
  simp [writeCmd, hb]

theorem writeCmd_busy {s : State} (hb : s.busy = true) (w : Word) :
    writeCmd w s = { s with ovr := true } := if_pos hb

theorem storeWhenIdle_busy {s : State} (hb : s.busy = true) (stored : State) :
    storeWhenIdle s stored = { s with ovr := true } := if_pos hb

/-- R40, R53: while BUSY = 1 such a write is dropped and OVR set. -/
theorem writeReg_overrun {r : WindowReg} (h : r ∈ idleWriteRegs) {s : State} (hb : s.busy = true)
    (v : Word) : writeReg r v s = { s with ovr := true } := by
  simp only [idleWriteRegs, List.mem_cons, List.not_mem_nil, or_false] at h
  obtain rfl | hstored := h
  · exact writeCmd_busy hb v
  · rcases hstored with rfl | rfl | rfl | rfl | rfl | rfl | rfl <;> exact storeWhenIdle_busy hb _

theorem writeReg_ignored {r : WindowReg} (h : r ∈ writeIgnoredRegs) (v : Word) (s : State) :
    writeReg r v s = s := by
  simp only [writeIgnoredRegs, List.mem_cons, List.not_mem_nil, or_false] at h
  rcases h with rfl | rfl | rfl | rfl | rfl | rfl | rfl | rfl <;> rfl

/-- R54: only the registers a command may write read a free value. -/
theorem readReg_of_specified {r : WindowReg} (h : unspecifiedWhileBusy r = false) (s : State) :
    readReg r s = { s with readData := regValue s r } := by
  simp [readReg, h]

theorem step_regWrite {s : State} {off : BitVec 8} {v : Word} {r : WindowReg}
    (hm : nextMove s = .host (.regWrite off v)) (hr : regAt off = some r) :
    step s = .next (writeReg r v (popped s)) := by
  simp only [step_host hm, hostMove, hr]

theorem step_regRead {s : State} {off : BitVec 8} {r : WindowReg}
    (hm : nextMove s = .host (.regRead off)) (hr : regAt off = some r) :
    step s = .next (readReg r (popped s)) := by
  simp only [step_host hm, hostMove, hr]

theorem step_regRead_specified {s : State} {off : BitVec 8} {r : WindowReg}
    (hm : nextMove s = .host (.regRead off)) (hr : regAt off = some r)
    (hs : unspecifiedWhileBusy r = false) :
    step s = .next { popped s with readData := regValue (popped s) r } := by
  rw [step_regRead hm hr, readReg_of_specified hs]

/-- R34, R52: a write at a read-only or reserved offset changes nothing, BUSY or not. -/
theorem step_regWrite_ignored {s : State} {off : BitVec 8} {v : Word}
    (hm : nextMove s = .host (.regWrite off v))
    (h : off ∈ [0x00, 0x04, 0x18, 0x34, 0x38, 0x3C, 0x40] ∨ (0x44 ≤ off.toNat ∧ off.toNat % 4 = 0)) :
    step s = .next (popped s) := by
  obtain ⟨r, hmem, hr⟩ : ∃ r ∈ writeIgnoredRegs, regAt off = some r := by
    rcases h with hoff | ⟨hge, halign⟩
    · exact regAt_mem_writeIgnoredRegs off hoff
    · exact ⟨.reserved, by decide, regAt_reserved hge halign⟩
  rw [step_regWrite hm hr, writeReg_ignored hmem]

/-- R40, R53: a write at the offset of CMD or of a RW register but CTRL while BUSY = 1. -/
theorem step_regWrite_overrun {s : State} {off : BitVec 8} {v : Word} (hb : s.busy = true)
    (hm : nextMove s = .host (.regWrite off v))
    (h : off ∈ [0x10, 0x14, 0x1C, 0x20, 0x24, 0x28, 0x2C, 0x30]) :
    step s = .next { popped s with ovr := true } := by
  obtain ⟨r, hmem, hr⟩ := regAt_mem_idleWriteRegs off h
  rw [step_regWrite hm hr, writeReg_overrun hmem ((popped_busy s).trans hb)]

/-- R39: a write at the offset of STATUS, BUSY or not. -/
theorem step_statusWrite {s : State} {w : Word} (hm : nextMove s = .host (.regWrite 0x0C w)) :
    step s = .next { popped s with
      done := s.done && !w.getLsbD 1, ovr := s.ovr && !w.getLsbD 8 } :=
  step_regWrite hm (r := .status) (by decide)

/-- R40: a write at the offset of CMD while BUSY = 0. -/
theorem step_cmdWrite_idle {s : State} {w : Word} (hm : nextMove s = .host (.regWrite 0x10 w))
    (hb : s.busy = false) :
    step s = .next { popped s with pending := some w, busy := true, done := false } := by
  rw [step_regWrite hm (r := .cmd) (by decide), writeReg, writeCmd_idle ((popped_busy s).trans hb)]

/-! ## The tables after reset -/

theorem codeEntry_reset (sym : Sym) : codeEntry State.reset sym = CodeEntry.empty := by
  simp [codeEntry, State.reset, State.resetOf]

theorem codeWord_empty (k : BitVec 3) : codeWord CodeEntry.empty k = 0 := by
  simp [codeWord, CodeEntry.empty]

theorem tn_reset {i : Nat} (h : i < 511) : State.reset.tn[i]? = some 0 := by
  simp [State.reset, State.resetOf, h]

/-! ## The statements -/

/-- Settles O10: the three accesses at the offset of CMD; an accepted word is PENDING at the engine's turn. -/
theorem cmdWriteIssuesOrOverruns : Obligations.CmdWriteIssuesOrOverruns := by
  refine ⟨fun s w hm hb => ?_, fun s w hm hb => ?_, fun s hm => ?_⟩
  · exact ⟨_, step_cmdWrite_idle hm hb, rfl, fun hturn => step_engine ⟨hturn, rfl⟩⟩
  · exact step_regWrite_overrun hb hm (by decide)
  · exact step_regRead_specified hm (r := .cmd) (by decide) rfl

/-- Settles O50: the registers hold their reset values by definition, the tables by the lemmas above. -/
theorem resetValues : Obligations.ResetValues := by
  refine ⟨rfl, rfl, rfl, rfl, rfl, rfl, rfl, rfl, rfl, rfl, rfl, rfl, rfl, rfl, rfl, rfl, rfl, rfl,
    fun sym => ?_, fun _ => tn_reset, Memory.read_nil, rfl⟩
  rw [codeEntry_reset]
  exact ⟨rfl, codeWord_empty⟩

/-- Settles O52, by what a STATUS write leaves of the two flags. -/
theorem statusWriteClears : Obligations.StatusWriteClears := fun s w hm =>
  ⟨_, step_statusWrite hm, by simp, by simp, rfl⟩

/-- Settles O53, one clause for each kind of register: CTRL, STATUS, dropped with OVR, ignored. -/
theorem busyRegisterWrites : Obligations.BusyRegisterWrites := by
  intro s off v hb hm
  refine ⟨?_, ?_, step_regWrite_overrun hb hm, step_regWrite_ignored hm⟩
  · rintro rfl
    exact step_regWrite hm (r := .ctrl) (by decide)
  · rintro rfl
    exact step_statusWrite hm

/-- Settles O57: none of these slots reads a free value, and writes to reserved ones are ignored. -/
theorem constantWindowSlots : Obligations.ConstantWindowSlots := by
  refine ⟨fun s hm => ?_, fun s hm => ?_, fun s off hge halign => ⟨fun hm => ?_, fun v hm => ?_⟩⟩
  · exact step_regRead_specified hm (r := .id) (by decide) rfl
  · exact step_regRead_specified hm (r := .version) (by decide) rfl
  · exact step_regRead_specified hm (regAt_reserved hge halign) rfl
  · exact step_regWrite_ignored hm (.inr ⟨hge, halign⟩)

end Sys2Proof.Machine
end

section
/-! PROOFS. What a word that decodes must satisfy, by its opcode (30_encoding.md R101 to R111), and from it
the statements that the words which do not satisfy it raise ILLEGAL_CMD. -/

namespace Sys2Proof

/-- Each listed opcode (R109) with the lowest bit of its format's reserved field w[23:lo] (R101 to R107). -/
def reservedFields : List (BitVec 8 × Nat) :=
  [(0x00, 0), (0x01, 0), (0x02, 0), (0x03, 0), (0x10, 21), (0x11, 8), (0x12, 0), (0x20, 16), (0x21, 11),
   (0x22, 8), (0x23, 11), (0x28, 9), (0x29, 9), (0x30, 5), (0x31, 0), (0x32, 0)]

/-- The word meets the format of one of the listed opcodes: no reserved bit is 1. -/
def ReservedZero (w : Word) : Prop :=
  ∃ field ∈ reservedFields, opcodeOf w = field.1 ∧ w.extractLsb' field.2 (24 - field.2) = 0

theorem reservedZero_of_needZero {w : Word} {op : BitVec 8} {lo : Nat} {i j : Instr}
    (hop : opcodeOf w = op) (hfield : (op, lo) ∈ reservedFields) (h : needZero w lo i = .ok j) :
    ReservedZero w :=
  ⟨_, hfield, hop, (needZero_ok.1 h).1⟩

/-- A word that decodes has a listed opcode and reserved bits 0 (R110, R111). -/
theorem reservedZero_of_decode {w : Word} {i : Instr} (h : decode w = .ok i) : ReservedZero w := by
  unfold decode at h
  split at h
  case h_5 hop | h_14 hop => exact reservedZero_of_needZero hop (by decide) (needCount_ok.1 h).1
  case h_12 hop | h_13 hop => exact reservedZero_of_needZero hop (by decide) (needSlot_ok.1 h).1
  case h_17 => cases h
  all_goals exact reservedZero_of_needZero ‹_› (by decide) h

/-! ## The range checks (R111) -/

theorem legalCount_of_decode_putbits {w : Word} {i : Instr} (hop : opcodeOf w = 0x10)
    (h : decode w = .ok i) : legalCount (countFB w) = true := by
  simp only [decode, hop] at h
  exact (needCount_ok.1 h).2

theorem legalCount_of_decode_getbits {w : Word} {i : Instr} (hop : opcodeOf w = 0x30)
    (h : decode w = .ok i) : legalCount (countFN w) = true := by
  simp only [decode, hop] at h
  exact (needCount_ok.1 h).2

theorem legalSlot_of_decode {w : Word} {i : Instr} (hop : opcodeOf w = 0x28 ∨ opcodeOf w = 0x29)
    (h : decode w = .ok i) : legalSlot (idxOf w) = true := by
  rcases hop with hop | hop
  all_goals
    simp only [decode, hop] at h
    exact (needSlot_ok.1 h).2

theorem not_out_of_range_of_legalCount {n : BitVec 5} (h : legalCount n = true) :
    ¬ (n.toNat = 0 ∨ 16 < n.toNat) := by
  simp only [legalCount, Bool.and_eq_true, decide_eq_true_eq] at h
  omega

/-! ## Reserved bits as a mask -/

/-- The mask of the bits w[23:lo]. -/
def reservedMask (lo : Nat) : Word := (BitVec.allOnes (24 - lo)).setWidth 32 <<< lo

/-- Each listed opcode with the mask of its reserved bits. -/
def reservedMasks : List (BitVec 8 × Word) :=
  reservedFields.map fun field => (field.1, reservedMask field.2)

theorem and_reservedMask {w : Word} {lo : Nat} (h : w.extractLsb' lo (24 - lo) = 0) :
    w &&& reservedMask lo = 0 := by
  ext j hj
  by_cases hin : lo ≤ j ∧ j < 24
  · have hwidth : j - lo < 24 - lo := by omega
    have hbit : w.getLsbD j = false := by
      simpa [hwidth, Nat.add_sub_cancel' hin.1] using congrArg (·.getLsbD (j - lo)) h
    simp [← BitVec.getLsbD_eq_getElem, hbit]
  · simp [reservedMask]
    omega

theorem reservedFields_unique : ∀ field ∈ reservedFields, ∀ other ∈ reservedFields,
    field.1 = other.1 → field = other := by decide

theorem and_mask_of_decode {w : Word} {i : Instr} (h : decode w = .ok i) {row : BitVec 8 × Word}
    (hrow : row ∈ reservedMasks) (hop : opcodeOf w = row.1) : w &&& row.2 = 0 := by
  obtain ⟨field, hmem, hopf, hzero⟩ := reservedZero_of_decode h
  obtain ⟨listed, hlisted, rfl⟩ := List.mem_map.1 hrow
  obtain rfl := reservedFields_unique field hmem listed hlisted (hopf.symm.trans hop)
  exact and_reservedMask hzero

end Sys2Proof

namespace Sys2Proof.Machine

/-- With ERR = 0 a word that stands for no command raises ILLEGAL_CMD, for whatever reason it is rejected. -/
theorem raisesIllegal_of_no_command {w : Word} {s : State} (he : s.err = .none)
    (h : ∀ i, decode w ≠ .ok i) : RaisesIllegal w s := by
  cases hd : decode w with
  | ok i => exact absurd hd (h i)
  | error r => exact perform_illegal he hd

/-! ## The statements -/

/-- The ranges of R110 hold none of the listed opcodes. -/
theorem reservedFields_not_reservedOpcode : ∀ field ∈ reservedFields,
    ¬ ((0x04 ≤ field.1.toNat ∧ field.1.toNat ≤ 0x0F) ∨ (0x13 ≤ field.1.toNat ∧ field.1.toNat ≤ 0x1F) ∨
      (0x24 ≤ field.1.toNat ∧ field.1.toNat ≤ 0x27) ∨ (0x2A ≤ field.1.toNat ∧ field.1.toNat ≤ 0x2F) ∨
      0x33 ≤ field.1.toNat) := by decide

/-- Settles O5: a word that decodes has a listed opcode, and no listed opcode is in R110's ranges. -/
theorem reservedOpcodeRaisesIllegal : Obligations.ReservedOpcodeRaisesIllegal := by
  intro w s he hrange
  refine raisesIllegal_of_no_command he fun i hd => ?_
  obtain ⟨field, hmem, hop, -⟩ := reservedZero_of_decode hd
  rw [← opcodeOf, hop] at hrange
  exact reservedFields_not_reservedOpcode field hmem hrange

/-- Settles O6: a word that decodes meets each check that a clause of R111 says is violated. -/
theorem illegalFieldRaisesIllegal : Obligations.IllegalFieldRaisesIllegal := by
  intro w s he hillegal
  refine raisesIllegal_of_no_command he fun i hd => ?_
  rcases hillegal with ⟨row, hrow, hop, hbits⟩ | ⟨hop, hcount⟩ | ⟨hop, hcount⟩ | ⟨hop, hidx⟩
  · exact hbits (and_mask_of_decode hd (row := row) hrow hop)
  · exact not_out_of_range_of_legalCount (legalCount_of_decode_putbits hop hd) hcount
  · exact not_out_of_range_of_legalCount (legalCount_of_decode_getbits hop hd) hcount
  · have hlegal := legalSlot_of_decode hop hd
    rw [idxOf, hidx] at hlegal
    exact absurd hlegal (by decide)

end Sys2Proof.Machine
end

section
/-! PROOFS. How a command ends, and the control commands (40_control.md R132 to R136): the bits of CTRL and
STATUS the interrupt output is made of, which commands reach the Code Table, and an empty Tree Table. -/

namespace Sys2Proof.Machine

/-! ## Completion (R132) and the interrupt output -/

/-- Whatever the pending word was, what its step leaves is a completed state. -/
theorem engineTurn_completes {s t : State} {w : Word} (hturn : EngineTurn s w) (h : step s = .next t) :
    ∃ u, t = complete u := by
  rw [step_engine hturn] at h
  obtain ⟨u, -, ht⟩ := onNext_next h
  exact ⟨u, ht⟩

theorem ctrlWord_ieDone (s : State) : (ctrlWord s).getLsbD 0 = ieDone s :=
  BitVec.getLsbD_append

theorem ctrlWord_ieErr (s : State) : (ctrlWord s).getLsbD 1 = ieErr s :=
  BitVec.getLsbD_append

theorem statusWord_errf (s : State) : (statusWord s).getLsbD 2 = errf s := by
  rw [statusWord]
  repeat rw [BitVec.getLsbD_append]
  simp

/-! ## Illegal words -/

/-- R111: a listed opcode with a bit of its format's reserved field set stands for no command. -/
theorem raisesIllegal_of_reservedBits {w : Word} {s : State} {op : BitVec 8} {lo : Nat}
    (hfield : (op, lo) ∈ reservedFields) (he : s.err = .none) (hop : opcodeOf w = op)
    (hbits : w.extractLsb' lo (24 - lo) ≠ 0) : RaisesIllegal w s := by
  refine raisesIllegal_of_no_command he fun i hd => ?_
  obtain ⟨field, hmem, hopf, hzero⟩ := reservedZero_of_decode hd
  obtain rfl := reservedFields_unique field hmem _ hfield (hopf.symm.trans hop)
  exact hbits hzero

/-! ## The words the error gate does not tell apart (R133, R134) -/

/-- R133: a NOP word ends alike whether it is performed or discarded. -/
theorem perform_nopWord (s : State) : perform 0x00000000#32 s = .next (complete s) := by
  by_cases he : s.err = .none
  · exact perform_decoded he (i := .nop) rfl
  · exact perform_discarded he (by decide)

/-- R134: the CLR word is performed whether ERR is 0 or not. -/
theorem perform_clrWord (s : State) : perform clrWord s = .next (complete (clearStreams s)) := by
  by_cases he : s.err = .none
  · exact perform_decoded he (i := .clr) rfl
  · simp [perform, effect, he, execClr, onNext]

/-! ## The Code Table (R135) -/

theorem codeEntry_congr {s t : State} (h : t.ct = s.ct) (sym : Sym) : codeEntry t sym = codeEntry s sym := by
  rw [codeEntry, h, codeEntry]

theorem codeEntry_setCodeEntry (s : State) (sym : Sym) (e : CodeEntry) (y : Sym) :
    codeEntry (setCodeEntry s sym e) y = if sym = y then e else codeEntry s y := by
  simp [codeEntry, Vector.getElem_set, BitVec.toNat_inj]

theorem codeEntry_of_exec_ctclr {s t : State} (h : exec .ctclr s = .next t) (sym : Sym) :
    codeEntry t sym = CodeEntry.empty := by
  cases h
  simp [codeEntry]

theorem exec_putsym_absent {s : State} {sym : Sym} (h : (codeEntry s sym).len = 0) :
    exec (.putsym sym) s = .next (enterError .symNotInTable s) := by
  simp [exec, execPutsym, h, settle]

theorem appendBits_ct {s t : State} {bs : List Bool} (h : appendBits s bs = .ok t) : t.ct = s.ct := by
  rw [appendBits_frame h]

theorem OnlyUnpacker.ct {s t : State} (h : OnlyUnpacker s t) : t.ct = s.ct := by rw [h]

theorem decodeSymbol_ct {s t : State} (h : decodeSymbol s = .ok t) : t.ct = s.ct := by
  rw [(decodeSymbol_ok h).1]

theorem decodeRun_ct {n : Nat} {s t : State} (h : decodeRun n s = .next t) : t.ct = s.ct :=
  decodeRun_ind (P := fun s t => t.ct = s.ct) (fun _ => rfl) (fun _ _ _ _ => rfl)
    (fun _ _ _ _ hd ih => ih.trans (decodeSymbol_ct hd)) h

/-- The commands that reach the Code Table are CTCLR, CTLEN and CTWORD. -/
theorem exec_ct {i : Instr} {s t : State} (h : exec i s = .next t) :
    t.ct = s.ct ∨ i = .ctclr ∨ (∃ sym len, i = .ctlen sym len) ∨ ∃ sym k, i = .ctword sym k := by
  cases i with
  | ctclr => exact .inr (.inl rfl)
  | ctlen sym len => exact .inr (.inr (.inl ⟨sym, len, rfl⟩))
  | ctword sym k => exact .inr (.inr (.inr ⟨sym, k, rfl⟩))
  | nop | clr | tnclr | ctrdlen | ctrdword => cases h; exact .inl rfl
  | putbits n v =>
    obtain ⟨-, rfl⟩ | ⟨-, rfl | hok⟩ := putbits_next h
    · exact .inl rfl
    · exact .inl rfl
    · exact .inl (appendBits_ct hok)
  | putsym sym =>
    obtain ⟨-, rfl⟩ | ⟨-, rfl | hok⟩ := putsym_next h
    · exact .inl rfl
    · exact .inl rfl
    · exact .inl (appendBits_ct hok)
  | flush => obtain rfl | rfl | ⟨-, rfl⟩ := flush_next h <;> exact .inl rfl
  | tnw idx => obtain ⟨-, rfl⟩ | ⟨_, rfl⟩ := tnw_next h <;> exact .inl rfl
  | tnrd idx => obtain ⟨-, rfl⟩ | ⟨_, rfl⟩ := tnrd_next h <;> exact .inl rfl
  | getbits n =>
    obtain ⟨-, rfl⟩ | ⟨-, rfl | rfl | ⟨_, u, _, hread, rfl⟩⟩ := getbits_next h
    · exact .inl rfl
    · exact .inl rfl
    · exact .inl rfl
    · exact .inl (fetchMany_only hread).ct
  | dstep =>
    obtain hok | ⟨_, -, -, rfl⟩ := dstep_next h
    · exact .inl (decodeSymbol_ct hok)
    · exact .inl rfl
  | drun => exact .inl (decodeRun_ct h)

/-- R135: an empty Code Table stays empty under every command but a CTLEN with LEN ≠ 0. -/
theorem exec_keeps_lengths_zero {i : Instr} {s t : State} (h : exec i s = .next t)
    (hempty : ∀ sym, (codeEntry s sym).len = 0) (hctlen : ∀ sym len, i = .ctlen sym len → len = 0)
    (y : Sym) : (codeEntry t y).len = 0 := by
  obtain hct | rfl | ⟨sym, len, rfl⟩ | ⟨sym, k, rfl⟩ := exec_ct h
  · rw [codeEntry_congr hct]
    exact hempty y
  · rw [codeEntry_of_exec_ctclr h]
    rfl
  · cases h
    rw [codeEntry_setCodeEntry]
    split
    · exact hctlen sym len rfl
    · exact hempty y
  · cases h
    rw [codeEntry_setCodeEntry]
    split
    · exact hempty sym
    · exact hempty y

/-! ## An empty Tree Table (R136) -/

/-- R201: with every slot 0, VALID is 0 wherever load_node looks. -/
theorem loadNode_emptyTree {s : State} (h : ∀ i, i < 511 → s.tn[i]? = some 0) (i : Slot) :
    loadNode s i = .error (.raise .badTree) := by
  by_cases hi : i.toNat < 511
  · have hslot : s.tn[i.toNat] = 0 := Vector.getElem_eq_iff.2 (h _ hi)
    simp [loadNode, hi, hslot, nodeValid]
  · simp [loadNode, hi]

theorem decodeSymbol_emptyTree {s : State} (h : ∀ i, i < 511 → s.tn[i]? = some 0)
    (hleft : s.symRemain ≠ 0) : decodeSymbol s = .error (.raise .badTree) := by
  simp only [decodeSymbol, if_neg hleft, traverseTree, loadNode_emptyTree h]

/-! ## The statements -/

/-- Settles O13: CTCLR by what it leaves of each entry, the "until" clause by which commands reach the
Code Table. -/
theorem ctclrEmptiesCodeTable : Obligations.CtclrEmptiesCodeTable := by
  refine ⟨rfl, fun s => ⟨_, rfl, fun sym => ?_, rfl⟩, fun s sym => exec_putsym_absent,
    fun i s t h => exec_keeps_lengths_zero h,
    fun w s => raisesIllegal_of_reservedBits (lo := 0) (by decide)⟩
  rw [codeEntry_of_exec_ctclr (s := s) rfl]
  exact ⟨rfl, codeWord_empty⟩

/-- Settles O9: every step of the engine ends in a completed state; IRQ by the bits the two words show. -/
theorem completionIdlesEngine : Obligations.CompletionIdlesEngine := by
  intro s t w hturn hstep
  obtain ⟨u, rfl⟩ := engineTurn_completes hturn hstep
  refine ⟨rfl, rfl, rfl, ?_⟩
  rw [ctrlWord_ieDone, ctrlWord_ieErr, statusWord_errf, irq, complete_done, Bool.and_true]

/-- Settles O11, by what its word does on both sides of the error gate. -/
theorem nopDoesNothing : Obligations.NopDoesNothing :=
  ⟨rfl, fun _ => rfl, perform_nopWord, fun _ _ => raisesIllegal_of_reservedBits (lo := 0) (by decide)⟩

/-- Settles O12: CLR is clearStreams, and the error gate lets its word and no other through. -/
theorem clrStartsNewStream : Obligations.ClrStartsNewStream := by
  refine ⟨rfl, fun s => ⟨_, rfl, rfl, rfl, rfl, rfl, rfl, rfl, rfl, rfl⟩, fun s t h => ?_,
    fun w s => raisesIllegal_of_reservedBits (lo := 0) (by decide), fun w s => perform_discarded⟩
  cases h
  exact perform_clrWord s

/-- Settles O14: after TNCLR load_node fails at the root, whatever ROOT is. -/
theorem tnclrEmptiesTreeTable : Obligations.TnclrEmptiesTreeTable := by
  refine ⟨rfl, fun s => ⟨_, rfl, fun i hi => ?_, rfl⟩, fun s hempty hleft => ?_,
    fun w s => raisesIllegal_of_reservedBits (lo := 0) (by decide)⟩
  · simp [hi]
  · simp only [exec, execDstep, decodeSymbol_emptyTree hempty hleft, settle, enterError]

end Sys2Proof.Machine
end

section
/-! PROOFS. The Code Table and Tree Table commands (41_tables.md R150 to R155): their words as the fields of
their formats side by side, what a write leaves of a code word and of a slot, and what reads it back. -/

namespace Sys2Proof

/-! ## The words of formats FS, FL, FK and FI (R103 to R106) -/

/-- Two fields side by side, in a word: the upper one moved up by the width of the lower. -/
theorem setWidth_append_eq_or {m n : Nat} (a : BitVec m) (b : BitVec n) :
    (a ++ b).setWidth 32 = (a.setWidth 32 <<< n) ||| b.setWidth 32 := by
  ext j hj
  by_cases hlow : j < n
  · simp [BitVec.getLsbD_append, hlow]
  · simp [BitVec.getLsbD_append, hlow, BitVec.getLsbD_of_ge b j (by omega)]

theorem setWidth_zero_append {m n : Nat} (b : BitVec n) : (0#m ++ b).setWidth 32 = b.setWidth 32 := by
  simp [setWidth_append_eq_or]

theorem opcode_append_eq_or (op : BitVec 8) (x : BitVec 24) :
    (op ++ x : Word) = (op.setWidth 32 <<< 24) ||| x.setWidth 32 := by
  rw [← setWidth_append_eq_or, BitVec.setWidth_eq]

theorem wordFS_eq_or (op : BitVec 8) (sym : Sym) :
    wordFS op sym = (op.setWidth 32 <<< 24) ||| sym.setWidth 32 := by
  rw [wordFS, opcode_append_eq_or, setWidth_zero_append]

theorem wordFI_eq_or (op : BitVec 8) (idx : Slot) :
    wordFI op idx = (op.setWidth 32 <<< 24) ||| idx.setWidth 32 := by
  rw [wordFI, opcode_append_eq_or, setWidth_zero_append]

theorem wordFL_eq_or (op len : BitVec 8) (sym : Sym) :
    wordFL op len sym = (op.setWidth 32 <<< 24) ||| (len.setWidth 32 <<< 8) ||| sym.setWidth 32 := by
  rw [wordFL, opcode_append_eq_or, setWidth_zero_append, setWidth_append_eq_or, BitVec.or_assoc]

theorem wordFK_eq_or (op : BitVec 8) (k : BitVec 3) (sym : Sym) :
    wordFK op k sym = (op.setWidth 32 <<< 24) ||| (k.setWidth 32 <<< 8) ||| sym.setWidth 32 := by
  rw [wordFK, opcode_append_eq_or, setWidth_zero_append, setWidth_append_eq_or, BitVec.or_assoc]

end Sys2Proof

namespace Sys2Proof.Machine

/-! ## Illegal words of TNW and TNRD -/

/-- R111: IDX = 511 or a reserved bit of format FI set, in a word of TNW or TNRD. -/
theorem raisesIllegal_of_slotFields {w : Word} {s : State} {op : BitVec 8} (hcmd : op = 0x28 ∨ op = 0x29)
    (he : s.err = .none) (hop : opcodeOf w = op) (h : idxOf w = 511 ∨ w.extractLsb' 9 15 ≠ 0) :
    RaisesIllegal w s := by
  rcases h with hidx | hbits
  · refine raisesIllegal_of_no_command he fun i hd => ?_
    have hlegal := legalSlot_of_decode (hop ▸ hcmd) hd
    rw [hidx] at hlegal
    exact absurd hlegal (by decide)
  · have hfield : (op, 9) ∈ reservedFields := by rcases hcmd with rfl | rfl <;> decide
    exact raisesIllegal_of_reservedBits hfield he hop hbits

/-! ## Code Table entries -/

@[simp] theorem codeEntry_setCodeEntry_self (s : State) (sym : Sym) (e : CodeEntry) :
    codeEntry (setCodeEntry s sym e) sym = e := by
  rw [codeEntry_setCodeEntry, if_pos rfl]

theorem codeEntry_setCodeEntry_of_ne {sym y : Sym} (h : y ≠ sym) (s : State) (e : CodeEntry) :
    codeEntry (setCodeEntry s sym e) y = codeEntry s y := by
  rw [codeEntry_setCodeEntry, if_neg h.symm]

/-- The word last written to W[K] is read from it, and every other word is as before. -/
theorem codeWord_set (e : CodeEntry) (k : BitVec 3) (d : Word) (m : BitVec 3) :
    codeWord { e with w := e.w.set k.toNat d } m = if k = m then d else codeWord e m := by
  simp [codeWord, Vector.getElem_set, BitVec.toNat_inj]

/-- R151: CTWORD leaves DATA as it is, in W[K] too. -/
theorem codeWord_of_exec_ctword {sym : Sym} {k : BitVec 3} {s t : State}
    (h : exec (.ctword sym k) s = .next t) : codeWord (codeEntry t sym) k = t.data := by
  cases h
  rw [codeEntry_setCodeEntry_self, codeWord_set, if_pos rfl, setCodeEntry_data]

/-- R56: code bit j, read from the code word it lies in. -/
theorem codeBit_eq_codeWord {e : CodeEntry} {j : Fin 256} {k : BitVec 3} (h : j.val / 32 = k.toNat) :
    codeBit e j = (codeWord e k).getLsbD (31 - j.val % 32) := by
  simp only [codeBit, codeWord, h]

theorem codeBits_congr {e f : CodeEntry} (hlen : f.len = e.len)
    (h : ∀ j : Fin 256, j.val < e.len.toNat → codeBit f j = codeBit e j) : codeBits f = codeBits e := by
  rw [codeBits, codeBits, hlen]
  refine List.map_congr_left fun j hj => h _ ?_
  exact (Nat.mod_le _ _).trans_lt (List.mem_range.1 hj)

/-- R56: a word that agrees with the old one on the code positions below LEN leaves the code as it was. -/
theorem codeBits_set_of_agree {e : CodeEntry} {k : BitVec 3} {d : Word}
    (h : ∀ j, j < e.len.toNat → j / 32 = k.toNat →
      d.getLsbD (31 - j % 32) = (codeWord e k).getLsbD (31 - j % 32)) :
    codeBits { e with w := e.w.set k.toNat d } = codeBits e := by
  refine codeBits_congr rfl fun j hj => ?_
  obtain ⟨m, hm⟩ : ∃ m : BitVec 3, j.val / 32 = m.toNat := ⟨.ofNatLT (j.val / 32) (by omega), rfl⟩
  rw [codeBit_eq_codeWord hm, codeBit_eq_codeWord hm, codeWord_set]
  split
  case isTrue hkm =>
    subst hkm
    exact h j hj hm
  case isFalse => rfl

/-! ## Tree Table slots -/

/-- IDX from 0 to 510 names a slot (R106). -/
theorem slot_lt_of_ne {idx : Slot} (h : idx ≠ 511) : idx.toNat < 511 := by bv_omega

theorem exec_tnw {idx : Slot} (h : idx.toNat < 511) (s : State) :
    exec (.tnw idx) s = .next { s with tn := s.tn.set idx.toNat (storedNode s.data) } := by
  simp only [exec, execTnw, writeSlot, dif_pos h, settle]

theorem exec_tnrd {idx : Slot} (h : idx.toNat < 511) (s : State) :
    exec (.tnrd idx) s = .next { s with data := s.tn[idx.toNat] } := by
  simp only [exec, execTnrd, readSlot, dif_pos h, settle]

/-- R201: load_node of a slot that holds a given word, by the word's VALID bit. -/
theorem loadNode_of_slot {s : State} {idx : Slot} {nd : Word} (h : s.tn[idx.toNat]? = some nd) :
    loadNode s idx = if nodeValid nd then .ok nd else .error (.raise .badTree) := by
  obtain ⟨hidx, rfl⟩ := Vector.getElem?_eq_some_iff.1 h
  simp only [loadNode, dif_pos hidx]

/-- The mask of TNW keeps VALID. -/
theorem nodeValid_storedNode (d : Word) : nodeValid (storedNode d) = d.getLsbD 31 := by
  simp [nodeValid, storedNode]

/-! ## The statements -/

/-- Settles O16: one word of one entry is replaced; the code depends on the positions below LEN alone. -/
theorem ctwordWritesCodeWord : Obligations.CtwordWritesCodeWord := by
  refine ⟨fun sym k => wordFK_eq_or 0x21 k sym, fun sym k s => ⟨_, rfl, ?_⟩,
    fun w s => raisesIllegal_of_reservedBits (lo := 11) (by decide)⟩
  rw [codeEntry_setCodeEntry_self]
  refine ⟨rfl, ?_, fun m hm => ?_, fun y hy => codeEntry_setCodeEntry_of_ne hy s _, rfl,
    codeBits_set_of_agree⟩
  · rw [codeWord_set, if_pos rfl]
  · rw [codeWord_set, if_neg hm.symm]

/-- Settles O15: one entry is replaced by itself with another LEN; PUTSYM of an entry without a code. -/
theorem ctlenSetsLength : Obligations.CtlenSetsLength := by
  refine ⟨fun sym len => wordFL_eq_or 0x20 len sym, fun sym len s => ⟨_, rfl, ?_⟩,
    fun w s => raisesIllegal_of_reservedBits (lo := 16) (by decide)⟩
  rw [codeEntry_setCodeEntry_self]
  refine ⟨rfl, rfl, fun y hy => codeEntry_setCodeEntry_of_ne hy s _, rfl, fun hzero => ?_⟩
  exact exec_putsym_absent (by rw [codeEntry_setCodeEntry_self]; exact hzero)

/-- Settles O17: LEN fits into DATA, and the entries of the reset state are empty. -/
theorem ctrdlenReadsLength : Obligations.CtrdlenReadsLength := by
  refine ⟨wordFS_eq_or 0x22, fun sym s => ⟨_, rfl, ?_, rfl⟩, fun sym => ⟨_, rfl, ?_⟩,
    fun w s => raisesIllegal_of_reservedBits (lo := 8) (by decide)⟩
  · exact BitVec.toNat_setWidth_of_le (by decide)
  · rw [codeEntry_reset]
    rfl

/-- Settles O18: the read gives the word of the entry, which after CTWORD is the DATA it was given. -/
theorem ctrdwordReadsCodeWord : Obligations.CtrdwordReadsCodeWord := by
  refine ⟨fun sym k => wordFK_eq_or 0x23 k sym, fun sym k s => ⟨_, rfl, rfl, rfl⟩,
    fun sym k s t h d => ?_, fun w s => raisesIllegal_of_reservedBits (lo := 11) (by decide)⟩
  calc exec (.ctrdword sym k) { t with data := d }
      = .next { t with data := codeWord (codeEntry t sym) k } := rfl
    _ = .next t := by rw [codeWord_of_exec_ctword h]

/-- Settles O19: what is left in the slots, and load_node by VALID of the word stored. -/
theorem tnwWritesSlot : Obligations.TnwWritesSlot := by
  refine ⟨wordFI_eq_or 0x28, fun idx s hne => ?_, fun s => rfl,
    fun w s => raisesIllegal_of_slotFields (.inl rfl)⟩
  have hidx := slot_lt_of_ne hne
  have hslot : (s.tn.set idx.toNat (storedNode s.data))[idx.toNat]? = some (storedNode s.data) :=
    Vector.getElem?_set_self hidx
  refine ⟨_, exec_tnw hidx s, hslot, fun j hj => Vector.getElem?_set_ne hidx hj.symm, rfl,
    fun hvalid => ?_, fun hvalid => ?_⟩
  all_goals
    rw [loadNode_of_slot hslot, nodeValid_storedNode, hvalid]
    rfl

/-- Settles O20: the slot is read as it is, hence with the reserved bits the table has, or as TNW left it. -/
theorem tnrdReadsSlot : Obligations.TnrdReadsSlot := by
  refine ⟨wordFI_eq_or 0x29, fun idx s hne => ?_, fun idx s t d hne h => ?_, fun s => rfl,
    fun w s => raisesIllegal_of_slotFields (.inr rfl)⟩
  · have hidx := slot_lt_of_ne hne
    exact ⟨_, exec_tnrd hidx s, Vector.getElem?_eq_getElem hidx, rfl,
      fun hzero => hzero _ (Vector.getElem_mem hidx)⟩
  · have hidx := slot_lt_of_ne hne
    rw [exec_tnw hidx] at h
    cases h
    exact ⟨_, exec_tnrd hidx _, Vector.getElem_set_self hidx⟩

end Sys2Proof.Machine
end

section
/-! PROOFS. FLUSH (42_packer.md R183): what it does with an empty and with a partial byte. -/

namespace Sys2Proof.Machine

/-- R183: with no bit in ACC there is nothing to flush. -/
theorem exec_flush_of_empty {s : State} (h : s.accN = 0) : exec .flush s = .next s := by
  simp only [exec, execFlush, if_pos h, settle]

theorem exec_flush_of_populated {s : State} (h : s.accN ≠ 0) (hp : populated s s.outPtr = true) :
    exec .flush s = .next { s with
      mem := s.mem.write s.outPtr.toNat s.acc, outPtr := s.outPtr + 1, acc := 0, accN := 0 } := by
  simp only [exec, execFlush, if_neg h, writeOut_of_populated hp, settle]

theorem exec_flush_of_unpopulated {s : State} (h : s.accN ≠ 0) (hp : populated s s.outPtr = false) :
    exec .flush s = .next (enterError .busError s) := by
  simp only [exec, execFlush, if_neg h, writeOut_of_unpopulated hp, settle]

/-- Settles O24: the one byte written is ACC, whose padding bits are 0 where ACC is clean; it leaves ACC_N 0,
so that a second FLUSH meets an empty byte. -/
theorem flushWritesPartialByte : Obligations.FlushWritesPartialByte := by
  refine ⟨rfl, fun s => exec_flush_of_empty, fun s hne hp => ?_,
    fun s hne hp => exec_flush_of_unpopulated hne hp,
    fun w s => raisesIllegal_of_reservedBits (lo := 0) (by decide)⟩
  have hread : (s.mem.write s.outPtr.toNat s.acc).read s.outPtr.toNat = some s.acc :=
    Memory.read_write_same ..
  refine ⟨_, exec_flush_of_populated hne hp, hread, SameMemOutside.cons rfl (.refl _ _ 0), rfl, rfl, rfl,
    rfl, fun hclean v hv => ?_, exec_flush_of_empty rfl⟩
  obtain rfl : s.acc = v := Option.some.inj (hread.symm.trans hv)
  exact hclean

end Sys2Proof.Machine
end

section
/-! PROOFS. The error gate (60_exceptions.md R238) and the interrupt output (R243). -/

namespace Sys2Proof.Machine

/-- R38: bit 1 of the word STATUS reads, which lies in the two lowest fields. -/
theorem statusWord_done (s : State) : (statusWord s).getLsbD 1 = s.done := by
  rw [statusWord]
  repeat rw [BitVec.getLsbD_append]
  simp

/-- Settles O8: the gate stands around the command, so a word it discards meets completion alone and CLR
meets its own rule. -/
theorem errorGateDiscards : Obligations.ErrorGateDiscards := by
  intro s w hturn herr
  rw [step_engine hturn]
  refine ⟨fun hw => perform_discarded herr hw, fun hw => ?_⟩
  subst hw
  exact ⟨clearStreams (popped s), rfl, perform_clrWord (popped s)⟩

/-- Settles O60: the four bits of the formula are the enables and flags IRQ is made of. -/
theorem interruptOutput : Obligations.InterruptOutput := by
  intro s
  rw [ctrlWord_ieDone, ctrlWord_ieErr, statusWord_done, statusWord_errf, irq]

end Sys2Proof.Machine
end

section
/-! PROOFS. The decoder and the encoder undo each other, and the rows of the opcode map
(30_encoding.md R100 to R111). -/

namespace Sys2Proof

/-! ## Decoding a word by its opcode, its reserved bits and the range of its operand -/

theorem decode_putbits {w : Word} {n : BitVec 5} {v : BitVec 16} (hop : opcodeOf w = 0x10)
    (hz : w.extractLsb' 21 3 = 0) (hn : countFB w = n) (hv : bitsOf w = v) (hlegal : legalCount n = true) :
    decode w = .ok (.putbits n v) := by
  subst hn hv
  simp only [decode, hop]
  exact needCount_ok.2 ⟨needZero_ok.2 ⟨hz, rfl⟩, hlegal⟩

theorem decode_putsym {w : Word} {sym : Sym} (hop : opcodeOf w = 0x11) (hz : w.extractLsb' 8 16 = 0)
    (hsym : symOf w = sym) : decode w = .ok (.putsym sym) := by
  subst hsym
  simp only [decode, hop]
  exact needZero_ok.2 ⟨hz, rfl⟩

theorem decode_ctlen {w : Word} {sym : Sym} {len : BitVec 8} (hop : opcodeOf w = 0x20)
    (hz : w.extractLsb' 16 8 = 0) (hsym : symOf w = sym) (hlen : lenOf w = len) :
    decode w = .ok (.ctlen sym len) := by
  subst hsym hlen
  simp only [decode, hop]
  exact needZero_ok.2 ⟨hz, rfl⟩

theorem decode_ctword {w : Word} {sym : Sym} {k : BitVec 3} (hop : opcodeOf w = 0x21)
    (hz : w.extractLsb' 11 13 = 0) (hsym : symOf w = sym) (hk : kOf w = k) :
    decode w = .ok (.ctword sym k) := by
  subst hsym hk
  simp only [decode, hop]
  exact needZero_ok.2 ⟨hz, rfl⟩

theorem decode_ctrdlen {w : Word} {sym : Sym} (hop : opcodeOf w = 0x22) (hz : w.extractLsb' 8 16 = 0)
    (hsym : symOf w = sym) : decode w = .ok (.ctrdlen sym) := by
  subst hsym
  simp only [decode, hop]
  exact needZero_ok.2 ⟨hz, rfl⟩

theorem decode_ctrdword {w : Word} {sym : Sym} {k : BitVec 3} (hop : opcodeOf w = 0x23)
    (hz : w.extractLsb' 11 13 = 0) (hsym : symOf w = sym) (hk : kOf w = k) :
    decode w = .ok (.ctrdword sym k) := by
  subst hsym hk
  simp only [decode, hop]
  exact needZero_ok.2 ⟨hz, rfl⟩

theorem decode_tnw {w : Word} {idx : Slot} (hop : opcodeOf w = 0x28) (hz : w.extractLsb' 9 15 = 0)
    (hidx : idxOf w = idx) (hlegal : legalSlot idx = true) : decode w = .ok (.tnw idx) := by
  subst hidx
  simp only [decode, hop]
  exact needSlot_ok.2 ⟨needZero_ok.2 ⟨hz, rfl⟩, hlegal⟩

theorem decode_tnrd {w : Word} {idx : Slot} (hop : opcodeOf w = 0x29) (hz : w.extractLsb' 9 15 = 0)
    (hidx : idxOf w = idx) (hlegal : legalSlot idx = true) : decode w = .ok (.tnrd idx) := by
  subst hidx
  simp only [decode, hop]
  exact needSlot_ok.2 ⟨needZero_ok.2 ⟨hz, rfl⟩, hlegal⟩

theorem decode_getbits {w : Word} {n : BitVec 5} (hop : opcodeOf w = 0x30) (hz : w.extractLsb' 5 19 = 0)
    (hn : countFN w = n) (hlegal : legalCount n = true) : decode w = .ok (.getbits n) := by
  subst hn
  simp only [decode, hop]
  exact needCount_ok.2 ⟨needZero_ok.2 ⟨hz, rfl⟩, hlegal⟩

/-! ## Rows as a match and a mask -/

/-- A word that agrees with a row's match on its mask, which leaves out the operand bits w[lo-1:0] only, has
the row's opcode and its reserved bits 0. -/
theorem fields_of_row {w mask : Word} {op : BitVec 8} (lo : Nat)
    (hmask : ∀ j, j < 32 → mask.getLsbD j = decide (lo ≤ j)) (hlo : lo ≤ 24)
    (h : w &&& mask = op ++ 0#24) : opcodeOf w = op ∧ w.extractLsb' lo (24 - lo) = 0 := by
  have hbit : ∀ j, lo ≤ j → j < 32 → w.getLsbD j = if j < 24 then false else op.getLsbD (j - 24) := by
    intro j hj hlt
    have hrow : (op ++ 0#24 : Word).getLsbD j = if j < 24 then (0#24).getLsbD j else op.getLsbD (j - 24) :=
      BitVec.getLsbD_append
    rw [← h] at hrow
    simpa [hmask j hlt, hj] using hrow
  constructor
  · refine BitVec.eq_of_getLsbD_eq fun j hj => ?_
    simp [opcodeOf, hbit (24 + j) (by omega) (by omega), hj]
  · refine BitVec.eq_of_getLsbD_eq fun j hj => ?_
    have hlow : lo + j < 24 := by omega
    simp [hbit (lo + j) (by omega) (by omega), hlow]

theorem encodes_in_row (i : Instr) : Laws.EncodesInRow.Statement i := by
  cases i with
  | nop => exact Laws.EncodesInRow.nop
  | clr => exact Laws.EncodesInRow.clr
  | ctclr => exact Laws.EncodesInRow.ctclr
  | tnclr => exact Laws.EncodesInRow.tnclr
  | putbits n v => exact Laws.EncodesInRow.putbits n v
  | putsym sym => exact Laws.EncodesInRow.putsym sym
  | flush => exact Laws.EncodesInRow.flush
  | ctlen sym len => exact Laws.EncodesInRow.ctlen sym len
  | ctword sym k => exact Laws.EncodesInRow.ctword sym k
  | ctrdlen sym => exact Laws.EncodesInRow.ctrdlen sym
  | ctrdword sym k => exact Laws.EncodesInRow.ctrdword sym k
  | tnw idx => exact Laws.EncodesInRow.tnw idx
  | tnrd idx => exact Laws.EncodesInRow.tnrd idx
  | getbits n => exact Laws.EncodesInRow.getbits n
  | dstep => exact Laws.EncodesInRow.dstep
  | drun => exact Laws.EncodesInRow.drun

theorem legalCount_iff {n : BitVec 5} : legalCount n = true ↔ 1 ≤ n.toNat ∧ n.toNat ≤ 16 := by
  simp [legalCount]

theorem legalSlot_of_range {idx : Slot} (h : idx.toNat ≤ 510) : legalSlot idx = true := by
  simp only [legalSlot, decide_eq_true_eq]
  omega

/-! ## The statements -/

/-- Settles O2: each field of the word encode lays out is read back from it, so the checks pass. -/
theorem decodeUndoesEncode : Obligations.DecodeUndoesEncode := by
  intro i hi
  cases i with
  | nop | clr | ctclr | tnclr | flush | dstep | drun => rfl
  | putbits n v =>
    exact decode_putbits (wordFB_opcode ..) (wordFB_reserved ..) (wordFB_count ..) (wordFB_bits ..) hi
  | putsym sym => exact decode_putsym (wordFS_opcode ..) (wordFS_reserved ..) (wordFS_sym ..)
  | ctlen sym len =>
    exact decode_ctlen (wordFL_opcode ..) (wordFL_reserved ..) (wordFL_sym ..) (wordFL_len ..)
  | ctword sym k =>
    exact decode_ctword (wordFK_opcode ..) (wordFK_reserved ..) (wordFK_sym ..) (wordFK_k ..)
  | ctrdlen sym => exact decode_ctrdlen (wordFS_opcode ..) (wordFS_reserved ..) (wordFS_sym ..)
  | ctrdword sym k =>
    exact decode_ctrdword (wordFK_opcode ..) (wordFK_reserved ..) (wordFK_sym ..) (wordFK_k ..)
  | tnw idx => exact decode_tnw (wordFI_opcode ..) (wordFI_reserved ..) (wordFI_idx ..) hi
  | tnrd idx => exact decode_tnrd (wordFI_opcode ..) (wordFI_reserved ..) (wordFI_idx ..) hi
  | getbits n => exact decode_getbits (wordFN_opcode ..) (wordFN_reserved ..) (wordFN_count ..) hi

/-- Settles O3: the word is laid out from its fields by its opcode's format, the reserved bits being 0. -/
theorem encodeUndoesDecode : Obligations.EncodeUndoesDecode := by
  intro w i h
  unfold decode at h
  split at h
  case h_17 => cases h
  case h_5 hop =>
    obtain ⟨hword, hlegal⟩ := needCount_ok.1 h
    obtain ⟨hz, rfl⟩ := needZero_ok.1 hword
    exact ⟨hlegal, (congrArg (wordFB · _ _) hop.symm).trans (wordFB_of_fields w hz)⟩
  case h_14 hop =>
    obtain ⟨hword, hlegal⟩ := needCount_ok.1 h
    obtain ⟨hz, rfl⟩ := needZero_ok.1 hword
    exact ⟨hlegal, (congrArg (wordFN · _) hop.symm).trans (wordFN_of_fields w hz)⟩
  case h_12 hop | h_13 hop =>
    obtain ⟨hword, hlegal⟩ := needSlot_ok.1 h
    obtain ⟨hz, rfl⟩ := needZero_ok.1 hword
    exact ⟨hlegal, (congrArg (wordFI · _) hop.symm).trans (wordFI_of_fields w hz)⟩
  all_goals
    obtain ⟨hz, rfl⟩ := needZero_ok.1 h
    refine ⟨rfl, ?_⟩
  case h_1 hop | h_2 hop | h_3 hop | h_4 hop | h_7 hop | h_15 hop | h_16 hop =>
    exact (congrArg wordF0 hop.symm).trans (wordF0_of_fields w hz)
  case h_6 hop | h_10 hop => exact (congrArg (wordFS · _) hop.symm).trans (wordFS_of_fields w hz)
  case h_8 hop => exact (congrArg (wordFL · _ _) hop.symm).trans (wordFL_of_fields w hz)
  case h_9 hop | h_11 hop => exact (congrArg (wordFK · _ _) hop.symm).trans (wordFK_of_fields w hz)

/-- Settles O4: a row gives the word's opcode and reserved bits, hence its command; conversely a word that
decodes is the word of its command (EncodeUndoesDecode), which lies in the command's row. -/
theorem opcodeMapDecodes : Obligations.OpcodeMapDecodes := by
  refine ⟨?_, ?_, ?_, ?_, fun w h h1 h16 => ?_, fun w h => ?_, ?_, fun w h => ?_, fun w h => ?_, fun w h => ?_,
    fun w h => ?_, fun w h hi => ?_, fun w h hi => ?_, fun w h h1 h16 => ?_, ?_, ?_, fun w i h => ?_⟩
  case refine_5 =>
    obtain ⟨hop, hz⟩ := fields_of_row (op := 0x10) 21 (by decide) (by decide) h
    exact decode_putbits hop hz rfl rfl (legalCount_iff.2 ⟨h1, h16⟩)
  case refine_6 =>
    obtain ⟨hop, hz⟩ := fields_of_row (op := 0x11) 8 (by decide) (by decide) h
    exact decode_putsym hop hz rfl
  case refine_8 =>
    obtain ⟨hop, hz⟩ := fields_of_row (op := 0x20) 16 (by decide) (by decide) h
    exact decode_ctlen hop hz rfl rfl
  case refine_9 =>
    obtain ⟨hop, hz⟩ := fields_of_row (op := 0x21) 11 (by decide) (by decide) h
    exact decode_ctword hop hz rfl rfl
  case refine_10 =>
    obtain ⟨hop, hz⟩ := fields_of_row (op := 0x22) 8 (by decide) (by decide) h
    exact decode_ctrdlen hop hz rfl
  case refine_11 =>
    obtain ⟨hop, hz⟩ := fields_of_row (op := 0x23) 11 (by decide) (by decide) h
    exact decode_ctrdword hop hz rfl rfl
  case refine_12 =>
    obtain ⟨hop, hz⟩ := fields_of_row (op := 0x28) 9 (by decide) (by decide) h
    exact decode_tnw hop hz rfl (legalSlot_of_range hi)
  case refine_13 =>
    obtain ⟨hop, hz⟩ := fields_of_row (op := 0x29) 9 (by decide) (by decide) h
    exact decode_tnrd hop hz rfl (legalSlot_of_range hi)
  case refine_14 =>
    obtain ⟨hop, hz⟩ := fields_of_row (op := 0x30) 5 (by decide) (by decide) h
    exact decode_getbits hop hz rfl (legalCount_iff.2 ⟨h1, h16⟩)
  case refine_17 =>
    have hrow := encodes_in_row i
    rw [Laws.EncodesInRow.Statement, (encodeUndoesDecode w i h).2] at hrow
    exact ⟨Laws.EncodesInRow.row i, by cases i <;> simp [Laws.EncodesInRow.row], hrow⟩
  all_goals
    rintro w rfl
    rfl

/-- Settles O1: each word is evaluated. -/
theorem commandWordsDecode : Obligations.CommandWordsDecode :=
  ⟨rfl, rfl, rfl, rfl, rfl, rfl, rfl, rfl, rfl⟩

end Sys2Proof
end

section
/-! PROOFS. What every command may change and which error codes it can raise, said once
(the "State written" lines of 40_control.md to 43_unpacker.md, 60_exceptions.md R230, R237), and the
statements that are read off it. -/

namespace Sys2Proof.Machine

/-! ## The table of what commands change and raise -/

/-- t is s but for ERR and the fields the rule of a command writes. -/
def Frame (s t : State) : Instr → Prop
  | .nop => t = { s with err := t.err }
  | .clr => t = { s with acc := t.acc, accN := t.accN, ubuf := t.ubuf, ubufN := t.ubufN,
                         bitcnt := t.bitcnt, ovr := t.ovr, err := t.err }
  | .ctclr | .ctlen _ _ | .ctword _ _ => t = { s with ct := t.ct, err := t.err }
  | .tnclr | .tnw _ => t = { s with tn := t.tn, err := t.err }
  | .putbits _ _ | .putsym _ => t = { s with acc := t.acc, accN := t.accN, outPtr := t.outPtr,
                                             bitcnt := t.bitcnt, mem := t.mem, err := t.err }
  | .flush => t = { s with acc := t.acc, accN := t.accN, outPtr := t.outPtr, mem := t.mem, err := t.err }
  | .ctrdlen _ | .ctrdword _ _ | .tnrd _ => t = { s with data := t.data, err := t.err }
  | .getbits _ => t = { s with result := t.result, ubuf := t.ubuf, ubufN := t.ubufN, inPtr := t.inPtr,
                               err := t.err }
  | .dstep | .drun => t = { s with mem := t.mem, symPtr := t.symPtr, symRemain := t.symRemain,
                                   result := t.result, ubuf := t.ubuf, ubufN := t.ubufN,
                                   inPtr := t.inPtr, err := t.err }

/-- The error codes of the unpacker's traversal (R230). -/
def TraversalError (e : ErrCode) : Prop := e = .truncated ∨ e = .busError ∨ e = .badTree ∨ e = .badCode

/-- The error codes a command can raise in a state (R230). -/
inductive Raises : Instr → State → ErrCode → Prop
  | illegal {i : Instr} {s : State} (h : i.wellFormed = false) : Raises i s .illegalCmd
  | noCode {sym : Sym} {s : State} (h : (codeEntry s sym).len = 0) : Raises (.putsym sym) s .symNotInTable
  | putbitsBus {n : BitVec 5} {v : BitVec 16} {s : State} : Raises (.putbits n v) s .busError
  | putsymBus {sym : Sym} {s : State} : Raises (.putsym sym) s .busError
  | flushBus {s : State} : Raises .flush s .busError
  | getbitsBus {n : BitVec 5} {s : State} : Raises (.getbits n) s .busError
  | getbitsTruncated {n : BitVec 5} {s : State} : Raises (.getbits n) s .truncated
  | dstep {s : State} {e : ErrCode} (h : TraversalError e) : Raises .dstep s e
  | drun {s : State} {e : ErrCode} (h : TraversalError e) : Raises .drun s e

/-- What is said of a command that answers a next state: its frame; and ERR is as it was, or cleared by CLR, or
raised, which leaves all else as it was, but for DRUN's symbols before the failing one (R237). -/
structure Answers (i : Instr) (s t : State) : Prop where
  frame : Frame s t i
  err : t.err = s.err ∨ (i = .clr ∧ t.err = .none) ∨ (Raises i s t.err ∧ (i ≠ .drun → t = enterError t.err s))

theorem TraversalError.ne_none {e : ErrCode} (h : TraversalError e) : e ≠ .none := by
  rcases h with rfl | rfl | rfl | rfl <;> exact nofun

theorem Raises.ne_none {i : Instr} {s : State} {e : ErrCode} (h : Raises i s e) : e ≠ .none := by
  cases h with
  | illegal | noCode | putbitsBus | putsymBus | flushBus | getbitsBus | getbitsTruncated => exact nofun
  | dstep he | drun he => exact he.ne_none

theorem frame_enterError (i : Instr) (e : ErrCode) (s : State) : Frame s (enterError e s) i := by
  cases i <;> rfl

theorem Answers.raised {i : Instr} {s : State} {e : ErrCode} (h : Raises i s e) :
    Answers i s (enterError e s) where
  frame := frame_enterError i e s
  err := .inr (.inr ⟨h, fun _ => rfl⟩)

theorem Answers.committed {i : Instr} {s t : State} (hf : Frame s t i) (he : t.err = s.err) :
    Answers i s t where
  frame := hf
  err := .inl he

theorem appendBits_err {s t : State} {bs : List Bool} (h : appendBits s bs = .ok t) : t.err = s.err := by
  rw [appendBits_frame h]

theorem appendBits_frame_err {s t : State} {bs : List Bool} (h : appendBits s bs = .ok t) :
    t = { s with acc := t.acc, accN := t.accN, outPtr := t.outPtr, bitcnt := t.bitcnt, mem := t.mem,
                 err := t.err } := by
  rw [appendBits_err h]
  exact appendBits_frame h

theorem OnlyUnpacker.err {s t : State} (h : OnlyUnpacker s t) : t.err = s.err := by rw [h]

theorem decodeSymbol_err {s t : State} (h : decodeSymbol s = .ok t) : t.err = s.err := by
  rw [(decodeSymbol_ok h).1]

theorem decodeSymbol_traversalError {s : State} {e : ErrCode} (h : decodeSymbol s = .error (.raise e)) :
    TraversalError e := by
  rcases decodeSymbol_raises h with h | h | h | h | h <;> cases h <;> simp [TraversalError]

theorem decodeSymbol_answers {s t : State} (h : decodeSymbol s = .ok t) : Answers .dstep s t :=
  .committed (by rw [Frame, decodeSymbol_err h]; exact (decodeSymbol_ok h).1) (decodeSymbol_err h)

theorem dstep_frame_trans {s t u : State} (h1 : Frame s t .dstep) (h2 : Frame t u .dstep) :
    Frame s u .dstep := by
  simp only [Frame] at *
  rw [h2, h1]

/-- A run of symbols: the frame of one, and ERR as it was or raised by the failing symbol. -/
theorem decodeRun_answers {n : Nat} {s t : State} (h : decodeRun n s = .next t) :
    Frame s t .dstep ∧ (t.err = s.err ∨ TraversalError t.err) :=
  decodeRun_ind (P := fun s t => Frame s t .dstep ∧ (t.err = s.err ∨ TraversalError t.err))
    (fun _ => ⟨rfl, .inl rfl⟩)
    (fun _ _ _ hd => ⟨rfl, .inr (decodeSymbol_traversalError hd)⟩)
    (fun _ _ _ _ hd ⟨hf, he⟩ =>
      ⟨dstep_frame_trans (decodeSymbol_answers hd).frame hf, decodeSymbol_err hd ▸ he⟩) h

theorem exec_answers {i : Instr} {s t : State} (h : exec i s = .next t) : Answers i s t := by
  cases i with
  | nop | ctclr | tnclr | ctlen | ctword | ctrdlen | ctrdword => cases h; exact .committed rfl rfl
  | clr => cases h; exact ⟨rfl, .inr (.inl ⟨rfl, rfl⟩)⟩
  | putbits n v =>
    obtain ⟨hl, rfl⟩ | ⟨-, rfl | hok⟩ := putbits_next h
    · exact .raised (.illegal hl)
    · exact .raised .putbitsBus
    · exact .committed (appendBits_frame_err hok) (appendBits_err hok)
  | putsym sym =>
    obtain ⟨hl, rfl⟩ | ⟨-, rfl | hok⟩ := putsym_next h
    · exact .raised (.noCode hl)
    · exact .raised .putsymBus
    · exact .committed (appendBits_frame_err hok) (appendBits_err hok)
  | flush =>
    obtain rfl | rfl | ⟨-, rfl⟩ := flush_next h
    · exact .committed rfl rfl
    · exact .raised .flushBus
    · exact .committed rfl rfl
  | tnw idx =>
    obtain ⟨hl, rfl⟩ | ⟨_, rfl⟩ := tnw_next h
    · exact .raised (.illegal hl)
    · exact .committed rfl rfl
  | tnrd idx =>
    obtain ⟨hl, rfl⟩ | ⟨_, rfl⟩ := tnrd_next h
    · exact .raised (.illegal hl)
    · exact .committed rfl rfl
  | getbits n =>
    obtain ⟨hl, rfl⟩ | ⟨-, rfl | rfl | ⟨_, u, _, hread, rfl⟩⟩ := getbits_next h
    · exact .raised (.illegal hl)
    · exact .raised .getbitsBus
    · exact .raised .getbitsTruncated
    · have ho := fetchMany_only hread
      refine .committed ?_ ho.err
      simp only [Frame]
      rw [show u = _ from ho]
  | dstep =>
    obtain hok | ⟨e, -, he, rfl⟩ := dstep_next h
    · exact decodeSymbol_answers hok
    · exact .raised (.dstep he)
  | drun =>
    obtain ⟨hf, he⟩ := decodeRun_answers h
    exact ⟨hf, he.imp id fun he => .inr ⟨.drun he, fun hne => absurd rfl hne⟩⟩

/-! ## ERR over commands in a row -/

/-- No command but CLR lowers ERR. -/
theorem exec_err_ne_none {i : Instr} {s t : State} (hi : i ≠ .clr) (he : s.err ≠ .none)
    (h : exec i s = .next t) : t.err ≠ .none := by
  obtain hsame | ⟨hclr, -⟩ | ⟨hraise, -⟩ := (exec_answers h).err
  · rwa [hsame]
  · exact absurd hclr hi
  · exact hraise.ne_none

theorem execAll_err_ne_none {is : List Instr} {s t : State} (his : .clr ∉ is) (he : s.err ≠ .none)
    (h : execAll is s = .next t) : t.err ≠ .none := by
  induction is generalizing s with
  | nil => cases h; exact he
  | cons i is ih =>
    rw [List.mem_cons, not_or] at his
    obtain ⟨hi, his⟩ := his
    simp only [execAll] at h
    split at h
    · exact ih his (exec_err_ne_none (Ne.symm hi) he ‹_›) h
    · cases h
    · cases h

/-- The first of commands that end with ERR = 0, no CLR among them, ended with ERR = 0. -/
theorem execAll_cons_next {i : Instr} {is : List Instr} {s t : State} (his : .clr ∉ is)
    (h : execAll (i :: is) s = .next t) (ht : t.err = .none) :
    ∃ u, exec i s = .next u ∧ u.err = .none ∧ execAll is u = .next t := by
  simp only [execAll] at h
  split at h
  · rename_i u hu
    exact ⟨u, hu, not_not.1 fun he => execAll_err_ne_none his he h ht, h⟩
  · cases h
  · cases h

/-! ## The statements read off the table -/

/-- Settles O41: with ERR 0 before, an ERR that is not 0 was raised. -/
theorem errorLeavesStateUntouched : Obligations.ErrorLeavesStateUntouched := by
  intro i s t hi hs h ht
  obtain he | ⟨-, he⟩ | ⟨-, he⟩ := (exec_answers h).err
  · exact absurd (he.trans hs) ht
  · exact absurd he ht
  · exact he hi

/-- Settles O42: with ERR 0 before, a code in ERR was raised, by one of the table's sources. -/
theorem errorSources : Obligations.ErrorSources := by
  intro i s t hs h
  have herr : t.err = .none ∨ Raises i s t.err := by
    obtain he | ⟨-, he⟩ | ⟨he, -⟩ := (exec_answers h).err
    · exact .inl (he.trans hs)
    · exact .inl he
    · exact .inr he
  generalize t.err = e at herr
  obtain rfl | hraise := herr
  · simp
  · cases hraise with
    | illegal hwf => simp [hwf]
    | noCode hlen => simp [hlen]
    | putbitsBus | putsymBus | flushBus | getbitsBus | getbitsTruncated => simp
    | dstep he | drun he => rcases he with rfl | rfl | rfl | rfl <;> simp

/-- Settles O45: no command's frame holds one of these fields. -/
theorem commandsKeepHostRegisters : Obligations.CommandsKeepHostRegisters := by
  intro i s t h
  have hf := (exec_answers h).frame
  cases i <;> rw [show t = _ from hf] <;> exact ⟨rfl, rfl, rfl, rfl, rfl, rfl, rfl, rfl, rfl, rfl⟩

/-- Settles O46: a command that is no listed writer of a field has it not in its frame. -/
theorem registerWriters : Obligations.RegisterWriters := by
  intro i s t h
  have hf := (exec_answers h).frame
  cases i <;> rw [show t = _ from hf] <;> simp

end Sys2Proof.Machine
end

section
/-! PROOFS. The invariant of the machine: every operation, command and move keeps it. -/

namespace Sys2Proof.Machine

/-! ## The byte writes -/

/-- R73: a write at a populated address leaves written bytes where bytes exist. -/
theorem MemPopulated.write {s : State} (h : MemPopulated s) {a : Addr} (hp : populated s a = true)
    (v : Byte) : ∀ c ∈ s.mem.write a.toNat v, c.1 < s.cfg.dmemSize := by
  intro c hc
  obtain rfl | hold := Memory.mem_write hc
  · simpa [populated] using hp
  · exact h c hold

theorem appendBit_keeps_inv {s t : State} {b : Bool} (h : StateInv s) (ht : appendBit s b = .ok t) :
    StateInv t := by
  have hclean := appendBit_accClean h.accClean ht
  obtain ⟨_, h'⟩ | ⟨-, hp, h'⟩ | ⟨-, -, h'⟩ := appendBit_cases s b <;> rw [h'] at ht <;> cases ht
  · exact { h with accClean := hclean }
  · exact { h with
      accClean := hclean, memWf := Memory.wf_write h.memWf .., memPopulated := h.memPopulated.write hp _ }

theorem appendBits_keeps_inv {s t : State} {bs : List Bool} (h : StateInv s)
    (ht : appendBits s bs = .ok t) : StateInv t := by
  induction bs generalizing s with
  | nil => cases ht; exact h
  | cons b bs ih =>
    simp only [appendBits] at ht
    split at ht
    · rename_i u hu
      exact ih (appendBit_keeps_inv h hu) ht
    · cases ht

/-! ## The unpacker -/

/-- R200: the rest of UBUF moves up and a 0 moves in below it. -/
theorem UbufClean.takeBit {s : State} (h : UbufClean s) : UbufClean (takeBit s).2 := by
  intro j hj
  have hj' : j < 8 - (s.ubufN.val - 1) := hj
  show (s.ubuf <<< 1).getLsbD j = false
  rw [BitVec.getLsbD_shiftLeft]
  rcases j with _ | j
  · simp
  · simp [h j (by omega)]

theorem refill_keeps_inv {s t : State} (h : StateInv s) (ht : refill s = .ok t) : StateInv t := by
  simp only [refill] at ht
  split at ht
  · split at ht
    · cases ht
    · split at ht <;> cases ht
      exact { h with ubufClean := fun j hj => absurd hj (Nat.not_lt_zero j) }
  · cases ht
    exact h

theorem fetchBit_keeps_inv {s t : State} {b : Bool} (h : StateInv s) (ht : fetchBit s = .ok (b, t)) :
    StateInv t := by
  simp only [fetchBit] at ht
  split at ht <;> cases ht
  rename_i u hu
  have hinv := refill_keeps_inv h hu
  exact { hinv with ubufClean := hinv.ubufClean.takeBit }

theorem fetchMany_keeps_inv {n : Nat} {s t : State} {bs : List Bool} (h : StateInv s)
    (ht : fetchMany n s = .ok (bs, t)) : StateInv t := by
  induction n generalizing s bs with
  | zero => cases ht; exact h
  | succ n ih =>
    simp only [fetchMany] at ht
    split at ht
    · cases ht
    · rename_i b u hu
      split at ht <;> cases ht
      rename_i hmany
      exact ih (fetchBit_keeps_inv h hu) hmany

theorem fetchMany_succ_ok {n : Nat} {s t u : State} {b : Bool} {bs : List Bool}
    (h1 : fetchBit s = .ok (b, t)) (h2 : fetchMany n t = .ok (bs, u)) :
    fetchMany (n + 1) s = .ok (b :: bs, u) := by
  simp only [fetchMany, h1, h2]

/-- A walk takes a number of bits and nothing else. -/
theorem walk_fetchMany {n : Nat} {nd : Word} {s t : State} {sym : Sym} (h : walk n nd s = .ok (sym, t)) :
    ∃ m bs, fetchMany m s = .ok (bs, t) := by
  induction n generalizing nd s with
  | zero => cases h
  | succ n ih =>
    simp only [walk] at h
    split at h
    · cases h
    · rename_i b u hu
      split at h
      · cases h
      · split at h
        · cases h
          exact ⟨1, [b], fetchMany_succ_ok hu rfl⟩
        · obtain ⟨m, bs, hmany⟩ := ih h
          exact ⟨m + 1, b :: bs, fetchMany_succ_ok hu hmany⟩

/-- A traversal takes a number of bits and nothing else. -/
theorem traverseTree_fetchMany {s t : State} {sym : Sym} (h : traverseTree s = .ok (sym, t)) :
    ∃ m bs, fetchMany m s = .ok (bs, t) := by
  simp only [traverseTree] at h
  split at h
  · cases h
  · split at h
    · simp only [loneLeaf] at h
      split at h
      · cases h
      · rename_i b u hu
        split at h <;> cases h
        exact ⟨1, [b], fetchMany_succ_ok hu rfl⟩
    · exact walk_fetchMany h

/-- R203: with no symbol left there is nothing to do. -/
theorem decodeSymbol_done {s : State} (h : s.symRemain = 0) : decodeSymbol s = .ok s := if_pos h

theorem decodeSymbol_keeps_inv {s t : State} (h : StateInv s) (ht : decodeSymbol s = .ok t) :
    StateInv t := by
  by_cases hz : s.symRemain = 0
  · rw [decodeSymbol_done hz] at ht
    cases ht
    exact h
  · obtain ⟨_, -, h'⟩ | ⟨sym, u, hu, ho, ⟨-, h'⟩ | ⟨hp, h'⟩⟩ := decodeSymbol_cases s hz <;>
      rw [h'] at ht <;> cases ht
    obtain ⟨m, bs, hmany⟩ := traverseTree_fetchMany hu
    exact { fetchMany_keeps_inv h hmany with
      memWf := Memory.wf_write h.memWf ..
      memPopulated := by
        have hwrite := h.memPopulated.write hp sym
        rwa [← ho.cfg] at hwrite }

/-! ## The commands -/

theorem enterError_keeps_inv {s : State} (h : StateInv s) (e : ErrCode) : StateInv (enterError e s) :=
  { h with }

theorem clearStreams_keeps_inv {s : State} (h : StateInv s) : StateInv (clearStreams s) :=
  { h with accClean := accClean_of_empty rfl, ubufClean := fun _ _ => BitVec.getLsbD_zero }

theorem decodeRun_keeps_inv {n : Nat} {s t : State} (h : StateInv s) (ht : decodeRun n s = .next t) :
    StateInv t :=
  decodeRun_ind (P := fun s t => StateInv s → StateInv t) (fun _ h => h)
    (fun _ e _ _ h => enterError_keeps_inv h e)
    (fun _ _ _ _ hd ih h => ih (decodeSymbol_keeps_inv h hd)) ht h

/-- R57, R154: the mask of TNW. -/
theorem nodeReservedZero_storedNode (d : Word) : NodeReservedZero (storedNode d) := by
  intro j h26 h30
  have hmask : ∀ j, 26 ≤ j → j < 30 → (0xC3FFFFFF#32).getLsbD j = false := by decide
  simp [storedNode, hmask j h26 h30]

theorem nodeReservedZero_zero : NodeReservedZero 0 := fun _ _ _ => BitVec.getLsbD_zero

theorem nodeReservedZero_replicate : ∀ nd ∈ Vector.replicate 511 (0 : Word), NodeReservedZero nd := by
  intro nd hnd
  rw [(Vector.mem_replicate.1 hnd).2]
  exact nodeReservedZero_zero

theorem TreeReservedZero.set {s : State} (h : TreeReservedZero s) {idx : Nat} (hi : idx < 511) (d : Word) :
    ∀ nd ∈ s.tn.set idx (storedNode d), NodeReservedZero nd := by
  intro nd hnd
  obtain hold | rfl := Vector.mem_or_eq_of_mem_set hnd
  · exact h nd hold
  · exact nodeReservedZero_storedNode d

theorem exec_keeps_inv {i : Instr} {s t : State} (h : StateInv s) (ht : exec i s = .next t) :
    StateInv t := by
  cases i with
  | nop => cases ht; exact h
  | clr => cases ht; exact clearStreams_keeps_inv h
  | ctclr | ctlen | ctword | ctrdlen | ctrdword => cases ht; exact { h with }
  | tnclr =>
    cases ht
    exact { h with treeReservedZero := nodeReservedZero_replicate }
  | putbits n v =>
    obtain ⟨-, rfl⟩ | ⟨-, rfl | hok⟩ := putbits_next ht
    · exact enterError_keeps_inv h _
    · exact enterError_keeps_inv h _
    · exact appendBits_keeps_inv h hok
  | putsym sym =>
    obtain ⟨-, rfl⟩ | ⟨-, rfl | hok⟩ := putsym_next ht
    · exact enterError_keeps_inv h _
    · exact enterError_keeps_inv h _
    · exact appendBits_keeps_inv h hok
  | flush =>
    obtain rfl | rfl | ⟨hp, rfl⟩ := flush_next ht
    · exact h
    · exact enterError_keeps_inv h _
    · exact { h with
        accClean := accClean_of_empty rfl
        memWf := Memory.wf_write h.memWf ..
        memPopulated := h.memPopulated.write hp _ }
  | tnw idx =>
    obtain ⟨-, rfl⟩ | ⟨hidx, rfl⟩ := tnw_next ht
    · exact enterError_keeps_inv h _
    · exact { h with treeReservedZero := h.treeReservedZero.set hidx _ }
  | tnrd idx =>
    obtain ⟨-, rfl⟩ | ⟨_, rfl⟩ := tnrd_next ht
    · exact enterError_keeps_inv h _
    · exact { h with }
  | getbits n =>
    obtain ⟨-, rfl⟩ | ⟨-, rfl | rfl | ⟨_, u, _, hread, rfl⟩⟩ := getbits_next ht
    · exact enterError_keeps_inv h _
    · exact enterError_keeps_inv h _
    · exact enterError_keeps_inv h _
    · exact { fetchMany_keeps_inv h hread with }
  | dstep =>
    obtain hok | ⟨e, -, -, rfl⟩ := dstep_next ht
    · exact decodeSymbol_keeps_inv h hok
    · exact enterError_keeps_inv h e
  | drun => exact decodeRun_keeps_inv h ht

/-! ## The moves -/

/-- What the engine makes of a word before completion (R131): a discarded word, CLR behind the error gate, an
illegal word, a command. -/
theorem effect_next {w : Word} {s t : State} (h : effect w s = .next t) :
    (s.err ≠ .none ∧ w ≠ clrWord ∧ t = s) ∨ (s.err ≠ .none ∧ w = clrWord ∧ t = clearStreams s) ∨
    (s.err = .none ∧ t = enterError .illegalCmd s) ∨ (s.err = .none ∧ ∃ i, exec i s = .next t) := by
  simp only [effect] at h
  split at h
  · rename_i he
    split at h
    · exact .inr (.inr (.inr ⟨he, _, h⟩))
    · cases h
      exact .inr (.inr (.inl ⟨he, rfl⟩))
  · rename_i he
    split at h <;> cases h
    · exact .inr (.inl ⟨he, ‹_›, rfl⟩)
    · exact .inl ⟨he, ‹_›, rfl⟩

theorem perform_keeps_inv {w : Word} {s t : State} (h : StateInv s) (ht : perform w s = .next t) :
    StateInv t := by
  obtain ⟨u, hu, rfl⟩ := onNext_next ht
  have hinv : StateInv u := by
    obtain ⟨-, -, rfl⟩ | ⟨-, -, rfl⟩ | ⟨-, rfl⟩ | ⟨-, i, hi⟩ := effect_next hu
    · exact h
    · exact clearStreams_keeps_inv h
    · exact enterError_keeps_inv h _
    · exact exec_keeps_inv h hi
  exact { hinv with busyPending := rfl, doneIdle := fun hb => absurd hb Bool.false_ne_true }

theorem writeReg_keeps_inv {s : State} (h : StateInv s) (r : WindowReg) (v : Word) :
    StateInv (writeReg r v s) := by
  have hstore : ∀ stored, StateInv stored → StateInv (storeWhenIdle s stored) := by
    intro stored hs
    unfold storeWhenIdle
    split
    · exact { h with }
    · exact hs
  cases r with
  | id | version | result | pacc | uacc | bitcntLo | bitcntHi | reserved => exact h
  | ctrl => exact { h with }
  | status => exact { h with doneIdle := fun hb => by simp [writeReg, writeStatus, h.doneIdle hb] }
  | cmd =>
    simp only [writeReg, writeCmd]
    split
    · exact { h with }
    · exact { h with busyPending := rfl, doneIdle := fun _ => rfl }
  | data | outPtr | inPtr | inEnd | symPtr | symRemain | root => exact hstore _ { h with }

theorem readReg_keeps_inv {s : State} (h : StateInv s) (r : WindowReg) : StateInv (readReg r s) := by
  unfold readReg
  split <;> exact { h with }

theorem hostMemRead_keeps_inv {s : State} (h : StateInv s) (a : Addr) : StateInv (hostMemRead a s) := by
  unfold hostMemRead
  split <;> exact { h with }

/-- A host DMEM access that is made meets a populated byte, BUSY being 0 (R71, R83 (d)). -/
theorem hostDmem_next {s t u : State} {a : Addr} (h : hostDmem s a t = .next u) :
    s.busy = false ∧ populated s a = true ∧ u = t := by
  simp only [hostDmem] at h
  split at h
  · cases h
  · split at h <;> cases h
    exact ⟨Bool.eq_false_iff.2 ‹_›, ‹_›, rfl⟩

theorem hostMove_keeps_inv {a : HostAction} {s t : State} (h : StateInv s) (ht : hostMove a s = .next t) :
    StateInv t := by
  cases a with
  | regWrite off v =>
    simp only [hostMove] at ht
    split at ht <;> cases ht
    exact writeReg_keeps_inv h _ v
  | regRead off =>
    simp only [hostMove] at ht
    split at ht <;> cases ht
    exact readReg_keeps_inv h _
  | memWrite b v =>
    obtain ⟨-, hp, rfl⟩ := hostDmem_next ht
    exact { h with memWf := Memory.wf_write h.memWf .., memPopulated := h.memPopulated.write hp v }
  | memRead b =>
    obtain ⟨-, -, rfl⟩ := hostDmem_next ht
    exact hostMemRead_keeps_inv h b

/-- The commits before a reset (R262): none, those of a command, or the first ones of a run. -/
theorem someCommits_next {n : Nat} {s t : State} (h : someCommits n s = .next t) :
    t = s ∨ (∃ i, exec i s = .next t) ∨ decodeRun n s = .next t := by
  simp only [someCommits] at h
  split at h
  · cases h; exact .inl rfl
  · split at h
    · split at h
      · cases h; exact .inl rfl
      · split at h
        · exact .inr (.inr h)
        · exact .inr (.inl ⟨_, h⟩)
    · cases h; exact .inl rfl

/-- R61: every register and table at its reset value, with a DMEM in canonical form. -/
theorem resetOf_inv {cfg : Config} {mem : Memory} (hwf : mem.wf = true)
    (hpop : ∀ c ∈ mem, c.1 < cfg.dmemSize) : StateInv (State.resetOf cfg mem) where
  memWf := hwf
  memPopulated := hpop
  accClean := accClean_of_empty rfl
  ubufClean := fun _ _ => BitVec.getLsbD_zero
  treeReservedZero := nodeReservedZero_replicate
  busyPending := rfl
  doneIdle := fun _ => rfl

theorem exec_cfg {i : Instr} {s t : State} (h : exec i s = .next t) : t.cfg = s.cfg :=
  (commandsKeepHostRegisters i s t h).1

theorem decodeRun_cfg {n : Nat} {s t : State} (h : decodeRun n s = .next t) : t.cfg = s.cfg := by
  rw [show t = _ from (decodeRun_answers h).1]

/-- The commits before a reset keep the invariant and the open parameters. -/
theorem someCommits_keeps_inv {n : Nat} {s t : State} (h : StateInv s) (ht : someCommits n s = .next t) :
    StateInv t ∧ t.cfg = s.cfg := by
  obtain rfl | ⟨i, hi⟩ | hrun := someCommits_next ht
  · exact ⟨h, rfl⟩
  · exact ⟨exec_keeps_inv h hi, exec_cfg hi⟩
  · exact ⟨decodeRun_keeps_inv h hrun, decodeRun_cfg hrun⟩

/-- R262, R263: DMEM after a reset holds only bytes it held before it. -/
theorem dmemAfterReset_sublist (s t : State) : (dmemAfterReset s t).Sublist t.mem := by
  unfold dmemAfterReset
  split
  · exact .refl _
  · exact List.filter_sublist

theorem hardwareReset_keeps_inv {k : Nat} {s t : State} (h : StateInv s)
    (ht : hardwareReset k s = .next t) : StateInv t := by
  obtain ⟨u, hu, rfl⟩ := onNext_next ht
  obtain ⟨hinv, hcfg⟩ := someCommits_keeps_inv h hu
  have hsub := dmemAfterReset_sublist s u
  have hwf : (dmemAfterReset s u).wf = true :=
    (Memory.wf_iff _).2 (((Memory.wf_iff _).1 hinv.memWf).sublist hsub)
  have hpop : ∀ c ∈ dmemAfterReset s u, c.1 < s.cfg.dmemSize := fun c hc =>
    hcfg ▸ hinv.memPopulated c (hsub.subset hc)
  exact { resetOf_inv hwf hpop with }

/-! ## The statements -/

/-- Settles O48: by the agent that moves; the schedule is no part of the invariant. -/
theorem stepKeepsInvariant : Obligations.StepKeepsInvariant := by
  intro s t h ht
  have hpop : StateInv (popped s) := { h with }
  cases hm : nextMove s with
  | engine =>
    cases hp : s.pending with
    | none =>
      rw [step_idle hm hp] at ht
      cases ht
      exact hpop
    | some w =>
      rw [step_engine ⟨hm, hp⟩] at ht
      exact perform_keeps_inv hpop ht
  | host a =>
    rw [step_host hm] at ht
    exact hostMove_keeps_inv hpop ht
  | reset k =>
    rw [step_reset hm] at ht
    exact hardwareReset_keeps_inv hpop ht

/-- Settles O49: a reset with no byte written. -/
theorem resetMeetsInvariant : Obligations.ResetMeetsInvariant :=
  resetOf_inv Memory.wf_nil (fun _ hc => absurd hc List.not_mem_nil)

/-- Settles O43: the engine discards every word but CLR, the host writes no ERR, and a reset clears it. -/
theorem errorIsSticky : Obligations.ErrorIsSticky := by
  intro s t he ht hne
  cases hm : nextMove s with
  | engine =>
    cases hp : s.pending with
    | none =>
      rw [step_idle hm hp] at ht
      cases ht
      exact absurd rfl hne
    | some w =>
      rw [step_engine ⟨hm, hp⟩] at ht
      obtain ⟨u, hu, rfl⟩ := onNext_next ht
      obtain ⟨-, -, rfl⟩ | ⟨-, rfl, rfl⟩ | ⟨hnone, -⟩ | ⟨hnone, -⟩ := effect_next hu
      · exact absurd rfl hne
      · exact ⟨rfl, .inl ⟨hm, hp⟩⟩
      · exact absurd hnone he
      · exact absurd hnone he
  | host a =>
    rw [step_host hm] at ht
    exact absurd (hostMove_keeps ht).1 hne
  | reset k =>
    rw [step_reset hm] at ht
    obtain ⟨u, -, rfl⟩ := onNext_next ht
    exact ⟨rfl, .inr ⟨k, rfl⟩⟩

end Sys2Proof.Machine
end

section
/-! PROOFS. Where a command can stop: at the end of the stream (43_unpacker.md R203) and at a byte never written
(20_memory.md R71). -/

namespace Sys2Proof.Machine

/-! ## The end of the stream -/

theorem fetchBit_bitsLeft {s t : State} {b : Bool} (h : fetchBit s = .ok (b, t)) :
    bitsLeft t + 1 = bitsLeft s := by
  obtain ⟨-, ⟨hleft, -⟩, -⟩ := fetchBit_ok h
  exact hleft

theorem walk_truncated {s : State} (h : bitsLeft s = 0) (n : Nat) (nd : Word) :
    walk n nd s = .error (.raise .truncated) := by
  cases n with
  | zero => rfl
  | succ n => simp only [walk, fetchBit_truncated h]

/-- Settles O33, by induction on the turns: each takes one bit, so both walks run out of bits together. -/
theorem walkEndsWithStream : Obligations.WalkEndsWithStream := by
  intro n
  induction n with
  | zero =>
    intro nd s hn
    rw [Nat.le_zero.1 hn]
  | succ n ih =>
    intro nd s hn
    cases hl : bitsLeft s with
    | zero => exact walk_truncated hl _ nd
    | succ m =>
      simp only [walk]
      cases hf : fetchBit s with
      | error e => rfl
      | ok p =>
        obtain ⟨b, t⟩ := p
        have hleft : bitsLeft t = m := by
          have := fetchBit_bitsLeft hf
          omega
        simp only
        cases loadNode t (nodeChild nd b) with
        | error e => rfl
        | ok child => simp only [ih child t (by omega), hleft]

/-! ## Bytes never written -/

/-- Some populated byte was never written. -/
def HasUnwritten (s : State) : Prop := ∃ a : Addr, populated s a = true ∧ s.mem.read a.toNat = none

theorem HasUnwritten.of_eq {s t : State} (hcfg : t.cfg = s.cfg) (hmem : t.mem = s.mem)
    (h : HasUnwritten t) : HasUnwritten s := by
  obtain ⟨a, hp, hr⟩ := h
  exact ⟨a, by rwa [populated, ← hcfg], by rwa [← hmem]⟩

theorem HasUnwritten.of_only {s t : State} (ho : OnlyUnpacker s t) (h : HasUnwritten t) :
    HasUnwritten s := h.of_eq ho.cfg ho.mem

theorem dmemRead_fault {s : State} {a : Addr} {f : Fault} (h : dmemRead s a = .error (.fault f)) :
    f = .unwrittenDmemByte ∧ HasUnwritten s := by
  simp only [dmemRead] at h
  split at h
  · rename_i hp
    split at h <;> cases h
    exact ⟨rfl, a, hp, ‹_›⟩
  · cases h

theorem fetchBit_fault {s : State} {f : Fault} (h : fetchBit s = .error (.fault f)) :
    f = .unwrittenDmemByte ∧ HasUnwritten s := by
  simp only [fetchBit, refill] at h
  split at h <;> cases h
  rename_i hr
  split at hr
  · split at hr
    · cases hr
    · split at hr <;> cases hr
      exact dmemRead_fault ‹_›
  · cases hr

theorem fetchMany_fault {n : Nat} {s : State} {f : Fault} (h : fetchMany n s = .error (.fault f)) :
    f = .unwrittenDmemByte ∧ HasUnwritten s := by
  induction n generalizing s with
  | zero => cases h
  | succ n ih =>
    simp only [fetchMany] at h
    split at h
    · cases h
      exact fetchBit_fault ‹_›
    · rename_i hu
      split at h <;> cases h
      exact (ih ‹_›).imp_right (.of_only (fetchBit_only hu))

theorem walk_fault {n : Nat} {nd : Word} {s : State} {f : Fault} (h : walk n nd s = .error (.fault f)) :
    f = .unwrittenDmemByte ∧ HasUnwritten s := by
  induction n generalizing nd s with
  | zero => cases h
  | succ n ih =>
    simp only [walk] at h
    split at h
    · cases h
      exact fetchBit_fault ‹_›
    · rename_i hu
      split at h
      · rename_i hload
        cases h
        cases loadNode_raises hload
      · split at h
        · cases h
        · exact (ih h).imp_right (.of_only (fetchBit_only hu))

theorem traverseTree_fault {s : State} {f : Fault} (h : traverseTree s = .error (.fault f)) :
    f = .unwrittenDmemByte ∧ HasUnwritten s := by
  simp only [traverseTree] at h
  split at h
  · rename_i hload
    cases h
    cases loadNode_raises hload
  · split at h
    · simp only [loneLeaf] at h
      split at h
      · cases h
        exact fetchBit_fault ‹_›
      · split at h <;> cases h
    · exact walk_fault h

theorem decodeSymbol_fault {s : State} {f : Fault} (h : decodeSymbol s = .error (.fault f)) :
    f = .unwrittenDmemByte ∧ HasUnwritten s := by
  by_cases hz : s.symRemain = 0
  · rw [decodeSymbol_done hz] at h
    cases h
  · obtain ⟨_, htree, h'⟩ | ⟨_, _, -, -, ⟨-, h'⟩ | ⟨-, h'⟩⟩ := decodeSymbol_cases s hz <;>
      rw [h'] at h <;> cases h
    exact traverseTree_fault htree

/-- A byte unwritten after a symbol was decoded was unwritten before it. -/
theorem HasUnwritten.of_decodeSymbol {s t : State} (hd : decodeSymbol s = .ok t) (h : HasUnwritten t) :
    HasUnwritten s := by
  obtain ⟨hframe, hcount⟩ := decodeSymbol_ok hd
  have hcfg : t.cfg = s.cfg := by rw [hframe]
  by_cases hz : s.symRemain = 0
  · rw [decodeSymbol_done hz] at hd
    cases hd
    exact h
  · obtain ⟨-, -, y, hmem⟩ := hcount hz
    obtain ⟨a, hp, hr⟩ := h
    rw [hmem] at hr
    exact ⟨a, by rwa [populated, ← hcfg], Memory.read_none_of_write hr⟩

theorem decodeRun_hasUnwritten {n : Nat} {s : State} {f : Fault} (h : decodeRun n s = .fault f) :
    HasUnwritten s := by
  induction n generalizing s with
  | zero => cases h
  | succ n ih =>
    simp only [decodeRun] at h
    split at h
    · cases h
    · split at h
      · exact (ih h).of_decodeSymbol ‹_›
      · have hfault := settle_fault h
        cases hfault
        exact (decodeSymbol_fault ‹_›).2

theorem readBits_fault {n : Nat} {s : State} {f : Fault} (h : readBits n s = .error (.fault f)) :
    f = .unwrittenDmemByte ∧ HasUnwritten s := by
  simp only [readBits, fetchBits_eq] at h
  cases hm : fetchMany n s with
  | ok p => rw [hm] at h; cases h
  | error e =>
    rw [hm] at h
    cases h
    exact fetchMany_fault hm

/-! ## The commands -/

theorem exec_not_refused (i : Instr) (s : State) (r : Refusal) : exec i s ≠ .refused r := by
  cases i with
  | nop | clr | ctclr | tnclr | ctlen | ctword | ctrdlen | ctrdword => exact nofun
  | putbits | putsym | flush | tnw | tnrd | getbits | dstep => exact settle_not_refused
  | drun => exact decodeRun_not_refused

theorem appendBits_no_fault {s : State} {bs : List Bool} {f : Fault} :
    appendBits s bs ≠ .error (.fault f) := by
  intro h
  cases appendBits_raises h

/-- A fault is met where DMEM is read, so by the unpacker's commands alone. -/
theorem exec_fault {i : Instr} {s : State} {f : Fault} (h : exec i s = .fault f) :
    f = .unwrittenDmemByte ∧ ((∃ n, i = .getbits n) ∨ i = .dstep ∨ i = .drun) ∧ HasUnwritten s := by
  cases i with
  | nop | clr | ctclr | tnclr | ctlen | ctword | ctrdlen | ctrdword => cases h
  | putbits n v =>
    have hw := settle_fault h
    split at hw
    · exact absurd hw appendBits_no_fault
    · cases hw
  | putsym sym =>
    have hw := settle_fault h
    split at hw
    · cases hw
    · exact absurd hw appendBits_no_fault
  | flush =>
    have hw := settle_fault h
    simp only [writeOut, dmemWrite] at hw
    split at hw
    · cases hw
    · cases hp : populated s s.outPtr <;> simp [hp] at hw
  | tnw idx =>
    have hw := settle_fault h
    simp only [writeSlot] at hw
    split at hw <;> cases hw
  | tnrd idx =>
    have hw := settle_fault h
    simp only [readSlot] at hw
    split at hw <;> cases hw
  | getbits n =>
    have hw := settle_fault h
    split at hw
    · obtain ⟨hf, hu⟩ := readBits_fault hw
      exact ⟨hf, .inl ⟨n, rfl⟩, hu⟩
    · cases hw
  | dstep =>
    obtain ⟨hf, hu⟩ := decodeSymbol_fault (settle_fault h)
    exact ⟨hf, .inr (.inl rfl), hu⟩
  | drun => exact ⟨decodeRun_fault h, .inr (.inr rfl), decodeRun_hasUnwritten h⟩

/-- Settles O44, by the stops of each command's work. -/
theorem commandsStopOnlyOnUnwrittenBytes : Obligations.CommandsStopOnlyOnUnwrittenBytes :=
  fun i s => ⟨exec_not_refused i s, fun _ => exec_fault⟩

end Sys2Proof.Machine
end

section
/-! PROOFS. No command reads DONE, OVR or the interrupt enables (10_state.md R59): every operation answers the
same whatever they are, and leaves them as they are. -/

namespace Sys2Proof.Machine

/-- A state with other values of DONE, OVR and CTRL. -/
def withFlags (d o : Bool) (c : BitVec 2) (s : State) : State := { s with done := d, ovr := o, ctrl := c }

section Flags
variable (d o : Bool) (c : BitVec 2)

/-! ## The shared operations -/

theorem settle_withFlags (s : State) (work : Except Stop State) :
    settle (withFlags d o c s) (work.map (withFlags d o c)) = onNext (withFlags d o c) (settle s work) := by
  match work with
  | .ok _ => rfl
  | .error (.raise _) => rfl
  | .error (.fault _) => rfl

theorem whenLegal_withFlags (ok : Bool) (s : State) (work : Except Stop State) :
    whenLegal ok (withFlags d o c s) (work.map (withFlags d o c)) =
      onNext (withFlags d o c) (whenLegal ok s work) := by
  cases ok
  · rfl
  · exact settle_withFlags d o c s work

theorem writeOut_withFlags (s : State) (v : Byte) :
    writeOut (withFlags d o c s) v = (writeOut s v).map (withFlags d o c) := by
  cases hp : populated s s.outPtr
  · rw [writeOut_of_unpopulated hp, writeOut_of_unpopulated (s := withFlags d o c s) hp]
    rfl
  · rw [writeOut_of_populated hp, writeOut_of_populated (s := withFlags d o c s) hp]
    rfl

theorem appendBit_withFlags (s : State) (b : Bool) :
    appendBit (withFlags d o c s) b = (appendBit s b).map (withFlags d o c) := by
  by_cases h : s.accN.val + 1 < 8
  · rw [appendBit_partial s b h, appendBit_partial (withFlags d o c s) b h]
    rfl
  · rw [appendBit, appendBit, dif_neg h, dif_neg (show ¬ (withFlags d o c s).accN.val + 1 < 8 from h)]
    exact writeOut_withFlags d o c { s with bitcnt := s.bitcnt + 1 } (accWith s b)

theorem appendBits_withFlags (s : State) (bs : List Bool) :
    appendBits (withFlags d o c s) bs = (appendBits s bs).map (withFlags d o c) := by
  induction bs generalizing s with
  | nil => rfl
  | cons b bs ih =>
    simp only [appendBits, appendBit_withFlags]
    cases appendBit s b with
    | ok t => exact ih t
    | error e => rfl

theorem refill_withFlags (s : State) :
    refill (withFlags d o c s) = (refill s).map (withFlags d o c) := by
  by_cases h0 : s.ubufN = 0
  · have h0' : (withFlags d o c s).ubufN = 0 := h0
    rw [refill, refill, if_pos h0, if_pos h0']
    by_cases hw : s.inPtr = s.inEnd
    · have hw' : (withFlags d o c s).inPtr = (withFlags d o c s).inEnd := hw
      rw [if_pos hw, if_pos hw']
      rfl
    · have hw' : (withFlags d o c s).inPtr ≠ (withFlags d o c s).inEnd := hw
      have hread : dmemRead (withFlags d o c s) (withFlags d o c s).inPtr = dmemRead s s.inPtr := rfl
      rw [if_neg hw, if_neg hw', hread]
      cases dmemRead s s.inPtr <;> rfl
  · have h0' : (withFlags d o c s).ubufN ≠ 0 := h0
    rw [refill, refill, if_neg h0, if_neg h0']
    rfl

theorem fetchBit_withFlags (s : State) :
    fetchBit (withFlags d o c s) = (fetchBit s).map (Prod.map id (withFlags d o c)) := by
  simp only [fetchBit, refill_withFlags]
  cases refill s <;> rfl

theorem fetchBits_withFlags (n : Nat) (v : Word) (s : State) :
    fetchBits n v (withFlags d o c s) = (fetchBits n v s).map (Prod.map id (withFlags d o c)) := by
  induction n generalizing v s with
  | zero => rfl
  | succ n ih =>
    simp only [fetchBits, fetchBit_withFlags]
    cases fetchBit s with
    | ok p => exact ih _ p.2
    | error e => rfl

theorem readBits_withFlags (n : Nat) (s : State) :
    readBits n (withFlags d o c s) = (readBits n s).map (withFlags d o c) := by
  simp only [readBits, fetchBits_withFlags]
  cases fetchBits n 0 s <;> rfl

theorem walk_withFlags (n : Nat) (nd : Word) (s : State) :
    walk n nd (withFlags d o c s) = (walk n nd s).map (Prod.map id (withFlags d o c)) := by
  induction n generalizing nd s with
  | zero => rfl
  | succ n ih =>
    simp only [walk, fetchBit_withFlags]
    cases fetchBit s with
    | error e => rfl
    | ok p =>
      obtain ⟨b, t⟩ := p
      have hload : loadNode (withFlags d o c t) (nodeChild nd b) = loadNode t (nodeChild nd b) := rfl
      simp only [Except.map, Prod.map, id, hload]
      cases loadNode t (nodeChild nd b) with
      | error e => rfl
      | ok child =>
        simp only
        split
        · rfl
        · exact ih child t

theorem traverseTree_withFlags (s : State) :
    traverseTree (withFlags d o c s) = (traverseTree s).map (Prod.map id (withFlags d o c)) := by
  have hload : loadNode (withFlags d o c s) (withFlags d o c s).root = loadNode s s.root := rfl
  simp only [traverseTree, hload]
  cases loadNode s s.root with
  | error e => rfl
  | ok nd =>
    simp only
    split
    · simp only [loneLeaf, fetchBit_withFlags]
      cases fetchBit s with
      | error e => rfl
      | ok p =>
        obtain ⟨b, t⟩ := p
        cases b <;> rfl
    · exact walk_withFlags d o c (bitsLeft s) nd s

theorem emitSymbol_withFlags (sym : Sym) (s : State) :
    emitSymbol sym (withFlags d o c s) = (emitSymbol sym s).map (withFlags d o c) := by
  cases hp : populated s s.symPtr
  · rw [emitSymbol_of_unpopulated hp, emitSymbol_of_unpopulated (s := withFlags d o c s) hp]
    rfl
  · rw [emitSymbol_of_populated hp, emitSymbol_of_populated (s := withFlags d o c s) hp]
    rfl

theorem decodeSymbol_withFlags (s : State) :
    decodeSymbol (withFlags d o c s) = (decodeSymbol s).map (withFlags d o c) := by
  by_cases hz : s.symRemain = 0
  · rw [decodeSymbol, decodeSymbol, if_pos hz, if_pos (show (withFlags d o c s).symRemain = 0 from hz)]
    rfl
  · rw [decodeSymbol, decodeSymbol, if_neg hz, if_neg (show (withFlags d o c s).symRemain ≠ 0 from hz),
      traverseTree_withFlags]
    cases traverseTree s with
    | error e => rfl
    | ok p => exact emitSymbol_withFlags d o c p.1 p.2

theorem decodeRun_withFlags (n : Nat) (s : State) :
    decodeRun n (withFlags d o c s) = onNext (withFlags d o c) (decodeRun n s) := by
  induction n generalizing s with
  | zero => rfl
  | succ n ih =>
    by_cases hz : s.symRemain = 0
    · rw [decodeRun, decodeRun, if_pos hz, if_pos (show (withFlags d o c s).symRemain = 0 from hz)]
      rfl
    · rw [decodeRun, decodeRun, if_neg hz, if_neg (show (withFlags d o c s).symRemain ≠ 0 from hz),
        decodeSymbol_withFlags]
      cases decodeSymbol s with
      | ok t => exact ih t
      | error e => exact settle_withFlags d o c s (.error e)

/-! ## The commands -/

theorem exec_withFlags {i : Instr} (hi : i ≠ .clr) (s : State) :
    exec i (withFlags d o c s) = onNext (withFlags d o c) (exec i s) := by
  cases i with
  | nop | ctclr | tnclr | ctlen | ctword | ctrdlen | ctrdword => rfl
  | clr => exact absurd rfl hi
  | putbits n v =>
    simp only [exec, execPutbits, appendBits_withFlags, whenLegal_withFlags]
  | putsym sym =>
    have hentry : codeEntry (withFlags d o c s) sym = codeEntry s sym := rfl
    simp only [exec, execPutsym, hentry, appendBits_withFlags, ← settle_withFlags]
    split <;> rfl
  | flush =>
    by_cases h0 : s.accN = 0
    · rw [exec_flush_of_empty h0, exec_flush_of_empty (s := withFlags d o c s) h0]
      rfl
    · rw [exec, exec, execFlush, execFlush, if_neg h0, if_neg (show (withFlags d o c s).accN ≠ 0 from h0),
        ← settle_withFlags, ← writeOut_withFlags]
      rfl
  | tnw idx =>
    simp only [exec, execTnw, ← settle_withFlags, writeSlot]
    split <;> rfl
  | tnrd idx =>
    simp only [exec, execTnrd, ← settle_withFlags, readSlot]
    split <;> rfl
  | getbits n => simp only [exec, execGetbits, readBits_withFlags, whenLegal_withFlags]
  | dstep => simp only [exec, execDstep, decodeSymbol_withFlags, settle_withFlags]
  | drun => exact decodeRun_withFlags d o c s.symRemain.toNat s

end Flags

/-- Settles O47: CLR writes OVR and reads no flag; of every other command the work is the same. -/
theorem commandsReadNoFlags : Obligations.CommandsReadNoFlags := by
  intro i s d o c
  by_cases hi : i = .clr
  · subst hi
    rfl
  · simp only [ne_eq, hi, not_false_eq_true, decide_true, Bool.true_and]
    exact exec_withFlags d o c hi s

end Sys2Proof.Machine
end

section
/-! PROOFS. The words the register window shows, register by register (10_state.md R34 to R54), and the host's
side of DMEM (20_memory.md R71, R83). -/

namespace Sys2Proof.Machine

/-! ## The words of packed fields as sums -/

theorem toNat_append_eq_add {m n : Nat} (x : BitVec m) (y : BitVec n) :
    (x ++ y).toNat = x.toNat * 2 ^ n + y.toNat := by
  rw [BitVec.toNat_append, ← Nat.shiftLeft_add_eq_or_of_lt y.isLt, Nat.shiftLeft_eq]

/-- R38: ERRF is 1 exactly when ERR ≠ 0. -/
theorem errf_eq (s : State) : errf s = decide (s.err ≠ .none) := by
  cases h : s.err <;> simp [errf, h, ErrCode.code]

/-- R38: STATUS field by field, bit 0 first. -/
theorem statusWord_toNat (s : State) : (statusWord s).toNat = s.busy.toNat + 2 * s.done.toNat +
    4 * (decide (s.err ≠ .none)).toNat + 8 * (decide (s.symRemain = 0)).toNat +
    16 * s.err.code.toNat + 256 * s.ovr.toNat := by
  have hsz : sz s = decide (s.symRemain = 0) := rfl
  simp only [statusWord, toNat_append_eq_add, BitVec.toNat_ofBool, errf_eq, hsz, BitVec.toNat_zero]
  omega

theorem ctrlWord_eq (s : State) : ctrlWord s = s.ctrl.setWidth 32 :=
  (BitVec.setWidth_eq _).symm.trans (setWidth_zero_append s.ctrl)

theorem rootWord_eq (s : State) : rootWord s = s.root.setWidth 32 :=
  (BitVec.setWidth_eq _).symm.trans (setWidth_zero_append s.root)

theorem paccWord_toNat (s : State) : (paccWord s).toNat = s.acc.toNat + 256 * s.accN.val := by
  have hN := s.accN.isLt
  simp only [paccWord, toNat_append_eq_add, BitVec.toNat_ofNat]
  omega

theorem uaccWord_toNat (s : State) : (uaccWord s).toNat = s.ubuf.toNat + 256 * s.ubufN.val := by
  have hN := s.ubufN.isLt
  simp only [uaccWord, toNat_append_eq_add, BitVec.toNat_ofNat]
  omega

/-- R51: the low and the high half of BITCNT. -/
theorem regValue_bitcntLo_toNat (s : State) :
    (regValue s .bitcntLo).toNat = s.bitcnt.toNat % 2 ^ 32 := by
  simp [regValue]

theorem regValue_bitcntHi_toNat (s : State) :
    (regValue s .bitcntHi).toNat = s.bitcnt.toNat / 2 ^ 32 := by
  have hlt : s.bitcnt.toNat / 2 ^ 32 < 2 ^ 32 := by omega
  simp only [regValue, BitVec.extractLsb'_toNat, Nat.shiftRight_eq_div_pow, Nat.mod_eq_of_lt hlt]

/-! ## Window accesses at aligned offsets -/

theorem regAt_aligned {off : BitVec 8} (h : off.toNat % 4 = 0) : ∃ r, regAt off = some r :=
  ⟨_, if_pos h⟩

theorem regAt_unaligned {off : BitVec 8} (h : off.toNat % 4 ≠ 0) : regAt off = none := if_neg h

theorem storeWhenIdle_idle {s : State} (hb : s.busy = false) (stored : State) :
    storeWhenIdle s stored = stored := by
  simp [storeWhenIdle, hb]

theorem readReg_idle {s : State} (hb : s.busy = false) (r : WindowReg) :
    readReg r s = { s with readData := regValue s r } := by
  simp [readReg, hb]

/-- R54: a register a command may write reads a free value in its bits that are not reserved. -/
theorem readReg_busy_unspecified {s : State} (hb : s.busy = true) {r : WindowReg}
    (hr : unspecifiedWhileBusy r = true) : readReg r s =
      { s with readData := Config.freeWord s.draws &&& drawnBits r, draws := s.draws + 1 } := by
  simp [readReg, hb, hr]

/-- R79: a read changes nothing of the HBPU. -/
theorem readReg_frame (r : WindowReg) (s : State) :
    readReg r s = { s with readData := (readReg r s).readData, draws := (readReg r s).draws } := by
  unfold readReg
  split <;> rfl

theorem toNat_and_lt {x m : Word} {n : Nat} (h : m.toNat < 2 ^ n) : (x &&& m).toNat < 2 ^ n := by
  rw [BitVec.toNat_and]
  exact Nat.and_lt_two_pow _ h

/-- Settles O54: an idle store of each RW register; the other offsets take nothing. -/
theorem idleRegisterWrites : Obligations.IdleRegisterWrites := by
  intro s off v hb hm
  have hstore : ∀ {r : WindowReg} {stored : State}, regAt off = some r →
      writeReg r v (popped s) = storeWhenIdle (popped s) stored → step s = .next stored := by
    intro r stored hr hw
    rw [step_regWrite hm hr, hw, storeWhenIdle_idle ((popped_busy s).trans hb)]
  refine ⟨?_, ?_, ?_, ?_, ?_, ?_, ?_, ?_, step_regWrite_ignored hm⟩ <;> rintro rfl
  · exact step_regWrite hm (r := .ctrl) (by decide)
  · exact hstore (r := .data) (by decide) rfl
  · exact hstore (r := .outPtr) (by decide) rfl
  · exact hstore (r := .inPtr) (by decide) rfl
  · exact hstore (r := .inEnd) (by decide) rfl
  · exact hstore (r := .symPtr) (by decide) rfl
  · exact hstore (r := .symRemain) (by decide) rfl
  · exact hstore (r := .root) (by decide) rfl

/-- Settles O56: an idle read shows the register's value, the packed ones field by field. -/
theorem idleRegisterReads : Obligations.IdleRegisterReads := by
  intro s off hb hm halign
  obtain ⟨r, hr⟩ := regAt_aligned halign
  have hread : readReg r (popped s) = { popped s with readData := regValue s r } :=
    readReg_idle ((popped_busy s).trans hb) r
  have hval : ∀ {off' : BitVec 8} {r' : WindowReg}, regAt off' = some r' → off = off' →
      regValue s r = regValue s r' := by
    intro off' r' hr' hoff
    subst hoff
    rw [Option.some.inj (hr.symm.trans hr')]
  refine ⟨_, (step_regRead hm hr).trans (congrArg _ hread), rfl, hval (r' := .id) (by decide),
    hval (r' := .version) (by decide), fun h => ?_, fun h => ?_, hval (r' := .cmd) (by decide),
    hval (r' := .data) (by decide), hval (r' := .result) (by decide), hval (r' := .outPtr) (by decide),
    hval (r' := .inPtr) (by decide), hval (r' := .inEnd) (by decide), hval (r' := .symPtr) (by decide),
    hval (r' := .symRemain) (by decide), fun h => ?_, fun h => ?_, fun h => ?_, fun h => ?_, fun h => ?_⟩
  · exact (hval (r' := .ctrl) (by decide) h).trans (ctrlWord_eq s)
  · refine ((congrArg _ (hval (r' := .status) (by decide) h)).trans (statusWord_toNat s)).trans ?_
    rw [hb, Bool.toNat_false, Nat.zero_add]
  · exact (hval (r' := .root) (by decide) h).trans (rootWord_eq s)
  · exact (congrArg _ (hval (r' := .pacc) (by decide) h)).trans (paccWord_toNat s)
  · exact (congrArg _ (hval (r' := .uacc) (by decide) h)).trans (uaccWord_toNat s)
  · exact (congrArg _ (hval (r' := .bitcntLo) (by decide) h)).trans (regValue_bitcntLo_toNat s)
  · exact (congrArg _ (hval (r' := .bitcntHi) (by decide) h)).trans (regValue_bitcntHi_toNat s)

/-- Settles O55: the registers no command writes show their value, PACC and UACC a masked one. -/
theorem busyRegisterReads : Obligations.BusyRegisterReads := by
  intro s off hb hm halign
  obtain ⟨r, hr⟩ := regAt_aligned halign
  have hspec : ∀ {off' : BitVec 8} {r' : WindowReg}, regAt off' = some r' →
      unspecifiedWhileBusy r' = false → off = off' → (readReg r (popped s)).readData = regValue s r' := by
    intro off' r' hr' hs hoff
    subst hoff
    obtain rfl := Option.some.inj (hr.symm.trans hr')
    rw [readReg_of_specified hs]
    rfl
  have hfree : ∀ {off' : BitVec 8} {r' : WindowReg} {n : Nat}, regAt off' = some r' →
      unspecifiedWhileBusy r' = true → (drawnBits r').toNat < 2 ^ n → off = off' →
      (readReg r (popped s)).readData.toNat < 2 ^ n := by
    intro off' r' n hr' hu hbits hoff
    subst hoff
    obtain rfl := Option.some.inj (hr.symm.trans hr')
    rw [readReg_busy_unspecified ((popped_busy s).trans hb) hu]
    exact toNat_and_lt hbits
  refine ⟨_, step_regRead hm hr, readReg_frame r (popped s), hspec (r' := .id) (by decide) rfl,
    hspec (r' := .version) (by decide) rfl, fun h => ?_, fun h => ?_, hspec (r' := .cmd) (by decide) rfl,
    hspec (r' := .inEnd) (by decide) rfl, fun h => ?_,
    hfree (r' := .pacc) (by decide) rfl (by decide), hfree (r' := .uacc) (by decide) rfl (by decide)⟩
  · exact (hspec (r' := .ctrl) (by decide) rfl h).trans (ctrlWord_eq s)
  · rw [hspec (r' := .status) (by decide) rfl h, regValue, statusWord_toNat, hb, Bool.toNat_true]
  · exact (hspec (r' := .root) (by decide) rfl h).trans (rootWord_eq s)

/-! ## What the spec tells a model to refuse -/

/-- Settles O58: no register at an unaligned offset, no host access to DMEM while BUSY = 1. -/
theorem hostAccessRefusals : Obligations.HostAccessRefusals := by
  constructor
  · rintro s off ha (hm | ⟨v, hm⟩) <;> simp only [step_host hm, hostMove, regAt_unaligned ha]
  · rintro s a hb (hm | ⟨v, hm⟩) <;> simp only [step_host hm, hostMove, hostDmem, popped_busy, hb, if_true]

/-! ## The host's side of DMEM -/

theorem hostDmem_idle {s : State} {a : Addr} (hb : s.busy = false) (hp : populated s a = true) (t : State) :
    hostDmem s a t = .next t := by
  simp [hostDmem, hb, hp]

theorem hostMemRead_written {s : State} {a : Addr} {v : Byte} (h : s.mem.read a.toNat = some v) :
    hostMemRead a s = { s with readData := v.setWidth 32 } := by
  simp only [hostMemRead, h]

/-- Settles O59: the byte written is what the engine and the next host access read at its address. -/
theorem hostMemoryWrites : Obligations.HostMemoryWrites := by
  intro s a v hb hp hm
  let t : State := { popped s with mem := s.mem.write a.toNat v }
  have hread : t.mem.read a.toNat = some v := Memory.read_write_same ..
  have hpop : populated t a = true := hp
  refine ⟨t, (step_host hm).trans (hostDmem_idle (s := popped s) hb hp t), hread,
    SameMemOutside.cons rfl (.refl t _ 0), ?_, rfl, fun hm' => ?_⟩
  · simp only [dmemRead, hpop, hread, if_true]
  · rw [step_host hm', hostMove, hostDmem_idle (s := popped t) hb hpop,
      hostMemRead_written (s := popped t) hread]

end Sys2Proof.Machine
end

section
/-! PROOFS. The engine's turn with a command (40_control.md R131), and a decoder with nothing to decode
(43_unpacker.md R203, R204). -/

namespace Sys2Proof.Machine

/-- Settles O7: in the engine's turn the pending word is performed, which is its rule and then completion. -/
theorem stepPerformsDecodedCommand : Obligations.StepPerformsDecodedCommand := by
  refine ⟨fun s w i hturn he hd => ?_, fun s => step_idle⟩
  have hstep : step s = onNext complete (exec i (popped s)) :=
    (step_engine hturn).trans (perform_decoded ((popped_err s).trans he) hd)
  refine ⟨fun t ht => ?_, fun f hf => ?_⟩
  · rw [hstep, ht]
    rfl
  · rw [hstep, hf]
    rfl

theorem decodeRun_done {s : State} (h : s.symRemain = 0) (n : Nat) : decodeRun n s = .next s := by
  cases n with
  | zero => rfl
  | succ n => simp only [decodeRun, if_pos h]

/-- Settles O28: both look at SYM_REMAIN before the tree. -/
theorem nothingLeftToDecode : Obligations.NothingLeftToDecode := by
  intro s h
  refine ⟨?_, decodeRun_done h _⟩
  simp only [exec, execDstep, decodeSymbol_done h, settle]

end Sys2Proof.Machine
end

section
/-! PROOFS. GETBITS (43_unpacker.md R202): the bits it shifts into RESULT, and where it stops. -/

namespace Sys2Proof.Machine

/-! ## Bits shifted into a word -/

/-- v ← (v << 1) | b (R202). -/
def shiftIn (v : Word) (b : Bool) : Word := (v <<< 1) ||| (BitVec.ofBool b).setWidth 32

theorem shiftIn_getLsbD_zero (v : Word) (b : Bool) : (shiftIn v b).getLsbD 0 = b := by
  simp [shiftIn]

theorem shiftIn_getLsbD_succ (v : Word) (b : Bool) {j : Nat} (h : j + 1 < 32) :
    (shiftIn v b).getLsbD (j + 1) = v.getLsbD j := by
  simp [shiftIn, h, BitVec.getLsbD_eq_getElem (show j < 32 by omega)]

/-- The last bits of the word are the bits shifted in, above them stand those it had. -/
theorem foldl_shiftIn_getLsbD (bs : List Bool) (v : Word) {j : Nat} (h : j < 32) :
    (bs.foldl shiftIn v).getLsbD j =
      if j < bs.length then bs.getD (bs.length - 1 - j) false else v.getLsbD (j - bs.length) := by
  induction bs generalizing v with
  | nil => rfl
  | cons b bs ih =>
    rw [List.foldl_cons, ih, List.length_cons]
    rcases lt_trichotomy j bs.length with hlt | rfl | hgt
    · obtain ⟨k, hk⟩ : ∃ k, bs.length + 1 - 1 - j = k + 1 := ⟨bs.length - 1 - j, by omega⟩
      rw [if_pos hlt, if_pos (by omega), hk, List.getD_cons_succ]
      congr 1
      omega
    · rw [if_neg (lt_irrefl _), if_pos (Nat.lt_succ_self _), Nat.sub_self, shiftIn_getLsbD_zero]
      simp
    · obtain ⟨k, hk⟩ : ∃ k, j - bs.length = k + 1 := ⟨j - bs.length - 1, by omega⟩
      rw [if_neg (by omega), if_neg (by omega), hk, shiftIn_getLsbD_succ v b (by omega)]
      congr 1
      omega

/-! ## Where a fetch stops after the bits a stream begins with -/

/-- The next fetch after the bits bs stops with e. -/
def StopsAfter (s : State) (bs : List Bool) (e : Stop) : Prop :=
  ∀ t, fetchMany bs.length s = .ok (bs, t) → fetchBit t = .error e

/-- Taking the bits a stream begins with has one outcome. -/
theorem fetchMany_taken {s t : State} {bs : List Bool} (hs : StreamBegins s bs)
    (ht : fetchMany bs.length s = .ok (bs, t)) :
    Consumed s t bs.length ∧ OnlyUnpacker s t ∧ (bs ≠ [] → t.ubufN.val < 8) := by
  obtain ⟨u, hu, htaken⟩ := fetchMany_of_stream hs
  rw [ht] at hu
  cases hu
  exact htaken

/-- R200: with no bit left after them, the next fetch raises TRUNCATED. -/
theorem stopsAfter_truncated {s : State} {bs : List Bool} (hs : StreamBegins s bs)
    (hl : bitsLeft s = bs.length) : StopsAfter s bs (.raise .truncated) := by
  intro t ht
  obtain ⟨⟨hleft, -⟩, -⟩ := fetchMany_taken hs ht
  exact fetchBit_truncated (by omega)

/-- After bits that end at a byte boundary the unpacker stands at the byte to fetch next. -/
theorem fetchMany_boundary {s t : State} {bs : List Bool} (hs : StreamBegins s bs)
    (ht : fetchMany bs.length s = .ok (bs, t)) (hN : s.ubufN.val ≤ bs.length)
    (hb : (bs.length - s.ubufN.val) % 8 = 0) :
    t.ubufN = 0 ∧ t.inPtr = s.inPtr + BitVec.ofNat 32 ((bs.length - s.ubufN.val) / 8) := by
  obtain ⟨hc, ho, hn⟩ := fetchMany_taken hs ht
  refine OnlyUnpacker.boundary hc ho hn hN hb fun hnil => ?_
  subst hnil
  cases ht
  rfl

/-- R200, R73: the byte to fetch next is unpopulated. -/
theorem stopsAfter_bus {s : State} {bs : List Bool} (hs : StreamBegins s bs)
    (hl : bs.length < bitsLeft s) (hN : s.ubufN.val ≤ bs.length)
    (hb : (bs.length - s.ubufN.val) % 8 = 0)
    (hp : populated s (s.inPtr + BitVec.ofNat 32 ((bs.length - s.ubufN.val) / 8)) = false) :
    StopsAfter s bs (.raise .busError) := by
  intro t ht
  obtain ⟨⟨hleft, -⟩, ho, -⟩ := fetchMany_taken hs ht
  obtain ⟨h0, hptr⟩ := fetchMany_boundary hs ht hN hb
  exact fetchBit_bus h0 (by omega) (by rwa [hptr, populated, ho.cfg])

/-- R200, R71: the byte to fetch next was never written. -/
theorem stopsAfter_unwritten {s : State} {bs : List Bool} (hs : StreamBegins s bs)
    (hl : bs.length < bitsLeft s) (hN : s.ubufN.val ≤ bs.length)
    (hb : (bs.length - s.ubufN.val) % 8 = 0)
    (hp : populated s (s.inPtr + BitVec.ofNat 32 ((bs.length - s.ubufN.val) / 8)) = true)
    (hm : s.mem.read (s.inPtr + BitVec.ofNat 32 ((bs.length - s.ubufN.val) / 8)).toNat = none) :
    StopsAfter s bs (.fault .unwrittenDmemByte) := by
  intro t ht
  obtain ⟨⟨hleft, -⟩, ho, -⟩ := fetchMany_taken hs ht
  obtain ⟨h0, hptr⟩ := fetchMany_boundary hs ht hN hb
  exact fetchBit_unwritten h0 (by omega) (by rwa [hptr, populated, ho.cfg]) (by rwa [hptr, ho.mem])

/-! ## GETBITS -/

theorem exec_getbits {n : BitVec 5} (hn : legalCount n = true) (s : State) :
    exec (.getbits n) s = settle s (readBits n.toNat s) := by
  simp only [exec, execGetbits, whenLegal, hn, if_true]

theorem readBits_of_stream {s : State} {bs : List Bool} (hs : StreamBegins s bs) :
    ∃ t, readBits bs.length s = .ok { t with result := bs.foldl shiftIn 0 } ∧ Consumed s t bs.length ∧
      OnlyUnpacker s t ∧ (bs ≠ [] → t.ubufN.val < 8) := by
  obtain ⟨t, ht, htaken⟩ := fetchMany_of_stream hs
  refine ⟨t, ?_, htaken⟩
  simp only [readBits, fetchBits_eq, ht]
  rfl

theorem readBits_stops {s : State} {bs : List Bool} {n : Nat} {e : Stop} (hs : StreamBegins s bs)
    (hn : bs.length < n) (he : StopsAfter s bs e) : readBits n s = .error e := by
  have hmany : fetchMany n s = .error e := fetchMany_error hs hn fun t _ _ ht => he t ht
  simp only [readBits, fetchBits_eq, hmany]

/-- Settles O26: the bits shifted into 0, in a state from which they were taken. -/
theorem getbitsReadsBits : Obligations.GetbitsReadsBits := by
  intro s n bs hn hlen hs
  obtain ⟨t, ht, hc, ho, hN⟩ := readBits_of_stream hs
  rw [hlen] at ht hc
  have hne : bs ≠ [] := by
    rintro rfl
    simp [legalCount, ← hlen] at hn
  refine ⟨{ t with result := bs.foldl shiftIn 0 }, ?_, fun j hj => ?_, hc, hN hne, ?_⟩
  · rw [exec_getbits hn, ht, settle]
  · rw [foldl_shiftIn_getLsbD bs 0 hj, hlen]
    by_cases hjn : j < n.toNat <;> simp [hjn]
  · rw [show t = _ from ho]

/-- Settles O27: the stop of the fetch after the readable bits is the stop of the command. -/
theorem getbitsStops : Obligations.GetbitsStops := by
  intro s n bs hn hlen hs
  have hstop : ∀ e, StopsAfter s bs e → exec (.getbits n) s = settle s (.error e) := by
    intro e he
    rw [exec_getbits hn, readBits_stops hs hlen he]
  refine ⟨fun hl => hstop _ (stopsAfter_truncated hs hl), fun hl hN hb => ⟨fun hp => ?_, fun hp hm => ?_⟩⟩
  · exact hstop _ (stopsAfter_bus hs hl hN hb hp)
  · exact hstop _ (stopsAfter_unwritten hs hl hN hb hp hm)

end Sys2Proof.Machine
end

section
/-! PROOFS. DSTEP (43_unpacker.md R203): one symbol by the path its bits take through the Tree Table, and the
errors in execution order. -/

namespace Sys2Proof.Machine

/-! ## The traversal along a path -/

/-- A path of at least one bit to a leaf. -/
theorem traverseTree_leaf {s : State} {bs : List Bool} {i : Slot} {nd : Word} (hbs : bs ≠ [])
    (hp : slotAfter s s.root bs = some i) (hi : loadNode s i = .ok nd) (hl : nodeLeaf nd = true)
    (hs : StreamBegins s bs) :
    ∃ t, traverseTree s = .ok (nodeSym nd, t) ∧ Consumed s t bs.length ∧ OnlyUnpacker s t := by
  obtain ⟨b, cs, rfl⟩ := List.exists_cons_of_ne_nil hbs
  obtain ⟨rt, hroot, hinner, hpath⟩ := slotAfter_cons hp
  obtain ⟨t, ht, htaken⟩ := walk_leaf (n := bitsLeft s) hpath hi hl hs hs.length_le
  refine ⟨t, ?_, htaken⟩
  simp only [traverseTree, hroot, hinner, Bool.false_eq_true, if_false, ht]

/-- A path to a slot that holds no node, the root before any bit (R241). -/
theorem traverseTree_noNode {s : State} {bs : List Bool} {i : Slot} {e : Stop}
    (hp : slotAfter s s.root bs = some i) (hi : loadNode s i = .error e) (hs : StreamBegins s bs) :
    traverseTree s = .error e := by
  cases bs with
  | nil =>
    cases hp
    simp only [traverseTree, hi]
  | cons b cs =>
    obtain ⟨rt, hroot, hinner, hpath⟩ := slotAfter_cons hp
    simp only [traverseTree, hroot, hinner, Bool.false_eq_true, if_false]
    exact walk_badTree hpath hi hs hs.length_le

/-- A path to a node that needs a further bit, where the fetch of that bit stops. -/
theorem traverseTree_stops {s : State} {bs : List Bool} {i : Slot} {nd : Word} {e : Stop}
    (hp : slotAfter s s.root bs = some i) (hi : loadNode s i = .ok nd)
    (hleaf : bs = [] ∨ nodeLeaf nd = false) (hs : StreamBegins s bs)
    (hend : bs.length = bitsLeft s → e = .raise .truncated) (he : StopsAfter s bs e) :
    traverseTree s = .error e := by
  have hwalk : ∀ rt, loadNode s s.root = .ok rt → nodeLeaf rt = false →
      walk (bitsLeft s) rt s = .error e := by
    intro rt hroot hinner
    refine walk_fetchStop ?_ hs hs.length_le hend fun t _ _ ht => he t ht
    rintro b cs rfl
    rw [slotAfter_step hroot hinner] at hp
    exact ⟨i, nd, hp, hi, hleaf.resolve_left (List.cons_ne_nil b cs)⟩
  cases bs with
  | nil =>
    cases hp
    have hfetch : fetchBit s = .error e := he s rfl
    cases hl : nodeLeaf nd
    · simp only [traverseTree, hi, hl, Bool.false_eq_true, if_false, hwalk nd hi hl]
    · simp only [traverseTree, hi, hl, if_true, loneLeaf, hfetch]
  | cons b cs =>
    obtain ⟨rt, hroot, hinner, -⟩ := slotAfter_cons hp
    simp only [traverseTree, hroot, hinner, Bool.false_eq_true, if_false, hwalk rt hroot hinner]

/-- R173: under a lone leaf the bit 0 gives its symbol, the bit 1 BAD_CODE. -/
theorem traverseTree_lone {s : State} {b : Bool} {nd : Word} (hroot : loadNode s s.root = .ok nd)
    (hl : nodeLeaf nd = true) (hs : StreamBegins s [b]) :
    ∃ t, traverseTree s = (if b then .error (.raise .badCode) else .ok (nodeSym nd, t)) ∧
      Consumed s t 1 ∧ OnlyUnpacker s t := by
  obtain ⟨t, ht, hc, ho, -⟩ := fetchBit_of_stream hs.head
  refine ⟨t, ?_, hc, ho⟩
  simp only [traverseTree, hroot, hl, if_true, loneLeaf, ht]

/-! ## From the traversal to the symbol -/

theorem decodeSymbol_stops {s : State} {e : Stop} (hleft : s.symRemain ≠ 0)
    (ht : traverseTree s = .error e) : decodeSymbol s = .error e := by
  simp only [decodeSymbol, if_neg hleft, ht]

theorem decodeSymbol_symbolBus {s t : State} {sym : Sym} (hleft : s.symRemain ≠ 0)
    (ht : traverseTree s = .ok (sym, t)) (hp : populated s s.symPtr = false) :
    decodeSymbol s = .error (.raise .busError) := by
  obtain ⟨e, ht', -⟩ | ⟨_, _, -, -, ⟨-, hd⟩ | ⟨hp', -⟩⟩ := decodeSymbol_cases s hleft
  · rw [ht] at ht'
    cases ht'
  · exact hd
  · rw [hp] at hp'
    cases hp'

/-- The state after a symbol the traversal to t gave was written and counted (R203). -/
def decoded (s t : State) (sym : Sym) : State :=
  { t with mem := s.mem.write s.symPtr.toNat sym, symPtr := s.symPtr + 1,
           symRemain := s.symRemain - 1, result := sym.setWidth 32 }

theorem decodeSymbol_ok_of_traverse {s t : State} {sym : Sym} (hleft : s.symRemain ≠ 0)
    (ht : traverseTree s = .ok (sym, t)) (hp : populated s s.symPtr = true) :
    decodeSymbol s = .ok (decoded s t sym) := by
  obtain ⟨e, ht', -⟩ | ⟨_, _, ht', -, ⟨hp', -⟩ | ⟨-, hd⟩⟩ := decodeSymbol_cases s hleft
  · rw [ht] at ht'
    cases ht'
  · rw [hp] at hp'
    cases hp'
  · rw [ht] at ht'
    cases ht'
    exact hd

theorem toNat_sub_one {x : Word} (h : x ≠ 0) : (x - 1).toNat + 1 = x.toNat := by bv_omega

/-- What a DSTEP that decodes a symbol does, n bits being those of its code (R203). -/
theorem dstep_decodes {s t : State} {sym : Sym} {n : Nat} (hleft : s.symRemain ≠ 0)
    (ht : traverseTree s = .ok (sym, t)) (hc : Consumed s t n) (ho : OnlyUnpacker s t)
    (hp : populated s s.symPtr = true) :
    ∃ u, exec .dstep s = .next u ∧
      u.mem.read s.symPtr.toNat = some sym ∧ SameMemOutside s u s.symPtr 1 ∧
      u.symPtr = s.symPtr + 1 ∧ u.symRemain.toNat = s.symRemain.toNat - 1 ∧
      u.result = sym.setWidth 32 ∧ Consumed s u n ∧
      u = { s with mem := u.mem, symPtr := u.symPtr, symRemain := u.symRemain, result := u.result,
                   ubuf := u.ubuf, ubufN := u.ubufN, inPtr := u.inPtr } := by
  refine ⟨decoded s t sym, ?_, Memory.read_write_same .., SameMemOutside.cons rfl (.refl _ _ 0), rfl, ?_, rfl,
    hc, ?_⟩
  · simp only [exec, execDstep, decodeSymbol_ok_of_traverse hleft ht hp, settle]
  · have := toNat_sub_one hleft
    show (s.symRemain - 1).toNat = s.symRemain.toNat - 1
    omega
  · rw [decoded, show t = _ from ho]

theorem exec_dstep_stops {s : State} {e : Stop} (hleft : s.symRemain ≠ 0)
    (ht : traverseTree s = .error e) : exec .dstep s = settle s (.error e) := by
  simp only [exec, execDstep, decodeSymbol_stops hleft ht]

theorem exec_dstep_symbolBus {s t : State} {sym : Sym} (hleft : s.symRemain ≠ 0)
    (ht : traverseTree s = .ok (sym, t)) (hp : populated s s.symPtr = false) :
    exec .dstep s = .next (enterError .busError s) := by
  simp only [exec, execDstep, decodeSymbol_symbolBus hleft ht hp, settle]

/-! ## The statements -/

/-- Settles O29: the traversal gives the leaf's symbol, and the symbol is written and counted. -/
theorem dstepDecodesLeaf : Obligations.DstepDecodesLeaf := by
  intro s bs i nd hleft hbs hpath hi hl hs hp
  obtain ⟨t, ht, hc, ho⟩ := traverseTree_leaf hbs hpath hi hl hs
  exact dstep_decodes hleft ht hc ho hp

/-- Settles O30, by the one bit a lone leaf takes. -/
theorem dstepLoneLeaf : Obligations.DstepLoneLeaf := by
  intro s b nd hleft hroot hl hs
  obtain ⟨t, ht, hc, ho⟩ := traverseTree_lone hroot hl hs
  refine ⟨?_, ?_, ?_⟩ <;> rintro rfl
  · exact exec_dstep_stops hleft ht
  · exact exec_dstep_symbolBus hleft ht
  · exact dstep_decodes hleft ht hc ho

/-- Settles O31: a slot without a node, a fetch that stops, a symbol with no byte for it. -/
theorem dstepErrors : Obligations.DstepErrors := by
  intro s bs i hleft hpath hs
  refine ⟨fun hi => ?_, fun nd hi hleaf => ?_, fun nd hi hl hbs hp => ?_⟩
  · exact exec_dstep_stops hleft (traverseTree_noNode hpath hi hs)
  · have hstop : ∀ e, (bs.length = bitsLeft s → e = .raise .truncated) → StopsAfter s bs e →
        exec .dstep s = settle s (.error e) := fun e hend he =>
      exec_dstep_stops hleft (traverseTree_stops hpath hi hleaf hs hend he)
    refine ⟨fun hend => hstop _ (fun _ => rfl) (stopsAfter_truncated hs hend), fun hlt hN hb =>
      ⟨fun hp => ?_, fun hp hm => ?_⟩⟩
    · exact hstop _ (fun heq => absurd heq hlt.ne) (stopsAfter_bus hs hlt hN hb hp)
    · exact hstop _ (fun heq => absurd heq hlt.ne) (stopsAfter_unwritten hs hlt hN hb hp hm)
  · obtain ⟨t, ht, -⟩ := traverseTree_leaf hbs hpath hi hl hs
    exact exec_dstep_symbolBus hleft ht hp

/-- Settles O32: a decoded symbol is one byte at SYM_PTR, an error is none. -/
theorem dstepFrame : Obligations.DstepFrame := by
  intro s t h
  refine ⟨(exec_answers h).frame, ?_⟩
  obtain hok | ⟨e, -, -, rfl⟩ := dstep_next h
  · by_cases hz : s.symRemain = 0
    · rw [decodeSymbol_done hz] at hok
      cases hok
      exact .refl s _ _
    · obtain ⟨-, -, y, hmem⟩ := (decodeSymbol_ok hok).2 hz
      exact .cons hmem (.refl t _ 0)
  · exact .of_mem rfl _ _

/-- Settles O38: the code in CT is the tree's, so the traversal takes its LEN bits. -/
theorem codeTreeAgreement : Obligations.CodeTreeAgreement := by
  intro s T sym hcodes hplaced hlen hs hleft hp
  obtain ⟨t, ht, hc, ho⟩ := traverseTree_code hplaced (hcodes sym hlen) hs
  obtain ⟨u, hu, hbyte, -, -, -, hresult, hcu, -⟩ := dstep_decodes hleft ht hc ho hp
  exact ⟨u, hu, hbyte, hresult, codeBits_length _ ▸ hcu⟩

end Sys2Proof.Machine
end

section
/-! PROOFS. DRUN (43_unpacker.md R204): one symbol after the other, what it counts and writes, and the text it
decodes with a placed tree. -/

namespace Sys2Proof.Machine

/-! ## One symbol of a run -/

theorem decodeSymbol_symRemain {s t : State} (h : decodeSymbol s = .ok t) (hleft : s.symRemain ≠ 0) :
    t.symRemain.toNat + 1 = s.symRemain.toNat := by
  obtain ⟨-, hcount, -⟩ := (decodeSymbol_ok h).2 hleft
  rw [hcount, toNat_sub_one hleft]

/-- The turn of a run that decodes a symbol, or has none left to decode. -/
theorem decodeRun_ok {s t : State} (h : decodeSymbol s = .ok t) (n : Nat) :
    decodeRun (n + 1) s = decodeRun n t := by
  by_cases hz : s.symRemain = 0
  · rw [decodeSymbol_done hz] at h
    cases h
    rw [decodeRun_done hz, decodeRun_done hz]
  · rw [decodeRun, if_neg hz, h]

theorem symRemain_ne_zero_of_stops {s : State} {e : Stop} (h : decodeSymbol s = .error e) :
    s.symRemain ≠ 0 := by
  intro hz
  rw [decodeSymbol_done hz] at h
  cases h

/-- The turn of a run whose symbol stops. -/
theorem decodeRun_stops {s : State} {e : Stop} (h : decodeSymbol s = .error e) (n : Nat) :
    decodeRun (n + 1) s = settle s (.error e) := by
  rw [decodeRun, if_neg (symRemain_ne_zero_of_stops h), h]

/-- DRUN with symbols left has a first turn, and as many after it as symbols are left then. -/
theorem drun_ok {s t : State} (hleft : s.symRemain ≠ 0) (h : decodeSymbol s = .ok t) :
    exec .drun s = exec .drun t := by
  show decodeRun s.symRemain.toNat s = decodeRun t.symRemain.toNat t
  rw [← decodeSymbol_symRemain h hleft, decodeRun_ok h]

theorem drun_stops {s : State} {e : Stop} (h : decodeSymbol s = .error e) :
    exec .drun s = settle s (.error e) := by
  obtain ⟨n, hn⟩ : ∃ n, s.symRemain.toNat = n + 1 :=
    Nat.exists_eq_add_one_of_ne_zero fun hz => symRemain_ne_zero_of_stops h (BitVec.eq_of_toNat_eq hz)
  show decodeRun s.symRemain.toNat s = _
  rw [hn, decodeRun_stops h]

theorem exec_dstep_eq (s : State) : exec .dstep s = settle s (decodeSymbol s) := rfl

/-- Settles O34, by what the first symbol of the run does. -/
theorem drunRepeatsDstep : Obligations.DrunRepeatsDstep := by
  intro s herr hleft
  simp only [exec_dstep_eq]
  cases hd : decodeSymbol s with
  | ok u =>
    have hu : u.err = .none := (decodeSymbol_err hd).trans herr
    refine ⟨fun t ht _ => ?_, fun t ht hne => ?_, fun f hf => ?_⟩
    · cases ht
      exact drun_ok hleft hd
    · cases ht
      exact absurd hu hne
    · cases hf
  | error e =>
    refine ⟨fun t ht hnone => ?_, fun t ht _ => ?_, fun f hf => ?_⟩
    · obtain hok | ⟨e', hw, rfl⟩ := settle_next ht
      · cases hok
      · cases hw
        exact absurd hnone (decodeSymbol_traversalError hd).ne_none
    · rw [drun_stops hd, ht]
    · rw [drun_stops hd, hf]

/-! ## What a run counts and writes -/

/-- The symbols counted by SYM_REMAIN are the bytes SYM_PTR moved over, and only they are written (R47). -/
structure Counts (s t : State) : Prop where
  le : t.symRemain.toNat ≤ s.symRemain.toNat
  ptr : t.symPtr = s.symPtr + (s.symRemain - t.symRemain)
  outside : SameMemOutside s t s.symPtr (s.symRemain.toNat - t.symRemain.toNat)

theorem Counts.of_none {s t : State} (hr : t.symRemain = s.symRemain) (hp : t.symPtr = s.symPtr)
    (hm : t.mem = s.mem) : Counts s t where
  le := by rw [hr]
  ptr := by rw [hp, hr, BitVec.sub_self, BitVec.add_zero]
  outside := .of_mem hm _ _

theorem Counts.cons {s u t : State} (hleft : s.symRemain ≠ 0) (hd : decodeSymbol s = .ok u)
    (h : Counts u t) : Counts s t := by
  obtain ⟨hptr, hremain, y, hmem⟩ := (decodeSymbol_ok hd).2 hleft
  have hone := decodeSymbol_symRemain hd hleft
  have hle := h.le
  refine ⟨by omega, ?_, ?_⟩
  · rw [h.ptr, hptr, hremain]
    ring
  · have hlen : s.symRemain.toNat - t.symRemain.toNat = u.symRemain.toNat - t.symRemain.toNat + 1 := by omega
    rw [hlen]
    exact .cons hmem (hptr ▸ h.outside)

theorem decodeRun_counts {n : Nat} {s t : State} (h : decodeRun n s = .next t) : Counts s t :=
  decodeRun_ind (P := Counts) (fun _ => .of_none rfl rfl rfl) (fun _ _ _ _ => .of_none rfl rfl rfl)
    (fun _ _ _ hleft hd => .cons hleft hd) h

/-- With a turn for each symbol left, a run ends with none left or an error. -/
theorem decodeRun_ends {n : Nat} {s t : State} (hn : s.symRemain.toNat ≤ n) (h : decodeRun n s = .next t)
    (ht : t.err = .none) : t.symRemain = 0 := by
  induction n generalizing s with
  | zero =>
    cases h
    exact BitVec.eq_of_toNat_eq (Nat.le_zero.1 hn)
  | succ n ih =>
    by_cases hleft : s.symRemain = 0
    · rw [decodeRun_done hleft] at h
      cases h
      exact hleft
    cases hd : decodeSymbol s with
    | ok u =>
      rw [decodeRun_ok hd] at h
      have := decodeSymbol_symRemain hd hleft
      exact ih (by omega) h
    | error e =>
      rw [decodeRun_stops hd] at h
      obtain hok | ⟨e', hw, rfl⟩ := settle_next h
      · cases hok
      · cases hw
        exact absurd ht (decodeSymbol_traversalError hd).ne_none

/-- Settles O35: every turn counts its symbol, and there is a turn for each. -/
theorem drunEndsAndCounts : Obligations.DrunEndsAndCounts := by
  intro s t _ h
  have hcounts : Counts s t := decodeRun_counts h
  exact ⟨decodeRun_ends (le_refl _) h, hcounts.le, hcounts.ptr, hcounts.outside, (exec_answers h).frame⟩

/-! ## The input window while symbols are written outside it -/

/-- Fewer bytes left to fetch are among those that were left. -/
theorem within_window_of_le {s t : State} (hend : t.inEnd = s.inEnd)
    (hle : (t.inEnd - t.inPtr).toNat ≤ (s.inEnd - s.inPtr).toNat) {a : Addr}
    (h : within t.inPtr (t.inEnd - t.inPtr).toNat a = true) :
    within s.inPtr (s.inEnd - s.inPtr).toNat a = true := by
  rw [within_iff] at h ⊢
  rw [hend] at h hle
  have hsplit : a - s.inPtr = (a - t.inPtr) + ((s.inEnd - s.inPtr) - (s.inEnd - t.inPtr)) := by ring
  rw [hsplit]
  bv_omega

theorem window_le_of_consumed {s t : State} {n : Nat} (hc : Consumed s t n) (hn : 0 < n) :
    (t.inEnd - t.inPtr).toNat ≤ (s.inEnd - s.inPtr).toNat := by
  have hleft := hc.1
  have hN := s.ubufN.isLt
  simp only [bitsLeft] at hleft
  omega

/-- A byte written outside the window is none the unpacker has still to fetch. -/
theorem streamBit_write_outside (s : State) {a : Addr} (v : Byte)
    (h : within s.inPtr (s.inEnd - s.inPtr).toNat a = false) (j : Nat) :
    streamBit { s with mem := s.mem.write a.toNat v } j = streamBit s j := by
  unfold streamBit
  by_cases h1 : j < s.ubufN.val
  · rw [if_pos h1, if_pos h1]
  · by_cases h2 : j < bitsLeft s
    · have hk : (j - s.ubufN.val) / 8 < (s.inEnd - s.inPtr).toNat := by
        simp only [bitsLeft] at h2
        omega
      have hne : s.inPtr + BitVec.ofNat 32 ((j - s.ubufN.val) / 8) ≠ a := by
        rintro rfl
        rw [← Bool.not_eq_true, within_iff] at h
        have := (s.inEnd - s.inPtr).isLt
        apply h
        rw [add_sub_cancel_left, BitVec.toNat_ofNat, Nat.mod_eq_of_lt (by omega)]
        exact hk
      have hread : engineByte { s with mem := s.mem.write a.toNat v }
          (s.inPtr + BitVec.ofNat 32 ((j - s.ubufN.val) / 8)) =
          engineByte s (s.inPtr + BitVec.ofNat 32 ((j - s.ubufN.val) / 8)) := by
        have hpop : populated { s with mem := s.mem.write a.toNat v } = populated s := rfl
        have hother := Memory.read_write_other s.mem v fun he => hne (BitVec.eq_of_toNat_eq he)
        simp only [engineByte, hpop, hother]
      rw [if_neg h1, if_neg h1, if_pos h2]
      exact (if_pos h2).trans (congrArg _ hread)
    · rw [if_neg h1, if_neg h1, if_neg h2]
      exact if_neg h2

/-! ## A text -/

/-- t is s after a run of DRUN decoded a text whose codes have n bits: the text is written and counted, the
stream goes on with rest, and only the fields of DRUN's frame moved. -/
structure TextDecoded (s t : State) (text : List Sym) (n : Nat) (rest : List Bool) : Prop where
  bytes : BytesAt t s.symPtr text
  outside : SameMemOutside s t s.symPtr text.length
  remain : t.symRemain.toNat + text.length = s.symRemain.toNat
  ptr : t.symPtr = s.symPtr + BitVec.ofNat 32 text.length
  left : bitsLeft t + n = bitsLeft s
  begins : StreamBegins t rest
  frame : t = { s with mem := t.mem, symPtr := t.symPtr, symRemain := t.symRemain, result := t.result,
                       ubuf := t.ubuf, ubufN := t.ubufN, inPtr := t.inPtr }

theorem HuffTree.code_length_pos {T : HuffTree} {sym : Sym} {code : List Bool} (h : T.hasCode sym code) :
    0 < code.length := by
  cases T with
  | leaf y =>
    obtain ⟨-, rfl⟩ := h
    exact Nat.one_pos
  | node l r =>
    cases code with
    | nil => cases h
    | cons b bs => exact Nat.succ_pos _

/-- One symbol of a text: it is decoded, and the stream goes on behind its code. -/
theorem decodeSymbol_code {s : State} {T : HuffTree} {sym : Sym} {code rest : List Bool}
    (hplaced : Placed s T s.root) (hcode : T.hasCode sym code) (hleft : s.symRemain ≠ 0)
    (hs : StreamBegins s (code ++ rest)) (hp : populated s s.symPtr = true)
    (hout : within s.inPtr (s.inEnd - s.inPtr).toNat s.symPtr = false) :
    ∃ t, OnlyUnpacker s t ∧ Consumed s t code.length ∧ decodeSymbol s = .ok (decoded s t sym) ∧
      StreamBegins (decoded s t sym) rest := by
  obtain ⟨t, ht, hc, ho⟩ := traverseTree_code hplaced hcode hs.left
  refine ⟨t, ho, hc, decodeSymbol_ok_of_traverse hleft ht hp, fun j hj => ?_⟩
  have hout' : within t.inPtr (t.inEnd - t.inPtr).toNat s.symPtr = false := by
    rw [← Bool.not_eq_true] at hout ⊢
    exact fun hin => hout (within_window_of_le ho.inEnd
      (window_le_of_consumed hc (HuffTree.code_length_pos hcode)) hin)
  have hwrite := streamBit_write_outside t sym hout' j
  rw [ho.mem] at hwrite
  exact hwrite.trans (hc.drop ho.mem hs j hj)

theorem add_one_add_ofNat (p : Addr) (k : Nat) :
    p + 1 + BitVec.ofNat 32 k = p + BitVec.ofNat 32 (k + 1) := by
  rw [Nat.add_comm k 1, ← addr_add_ofNat]
  rfl

/-- A text decoded after one symbol. -/
theorem TextDecoded.cons {s u t : State} {sym : Sym} {text : List Sym} {m n : Nat} {rest : List Bool}
    (ho : OnlyUnpacker s u) (hc : Consumed s u m) (hleft : s.symRemain ≠ 0)
    (h : TextDecoded (decoded s u sym) t text n rest) : TextDecoded s t (sym :: text) (m + n) rest := by
  have hremain : (s.symRemain - 1).toNat + 1 = s.symRemain.toNat := toNat_sub_one hleft
  have hcount : t.symRemain.toNat + text.length = (s.symRemain - 1).toNat := h.remain
  have hlt := s.symRemain.isLt
  refine ⟨fun k hk => ?_, .cons rfl h.outside, ?_, ?_, ?_, h.begins, ?_⟩
  · cases k with
    | zero =>
      have hfirst := h.outside s.symPtr (within_next_self s.symPtr text.length (by omega))
      rw [BitVec.add_zero, hfirst]
      exact Memory.read_write_same ..
    | succ k =>
      rw [← add_one_add_ofNat]
      exact h.bytes k (by simpa using hk)
  · rw [List.length_cons]
    omega
  · rw [h.ptr, List.length_cons, ← add_one_add_ofNat]
    rfl
  · have h1 := hc.1
    have h2 : bitsLeft t + n = bitsLeft u := h.left
    omega
  · rw [h.frame, decoded, show u = _ from ho]

theorem Placed.at_root {s t : State} {T : HuffTree} (h : Placed s T s.root) (htn : t.tn = s.tn)
    (hroot : t.root = s.root) : Placed t T t.root := by
  rw [hroot]
  exact h.congr htn

theorem decoded_placed {s t : State} {sym : Sym} {T : HuffTree} (ho : OnlyUnpacker s t)
    (h : Placed s T s.root) : Placed (decoded s t sym) T (decoded s t sym).root :=
  h.at_root ho.tn (show t.root = s.root by rw [ho])

theorem decoded_populatedFrom {s t : State} {sym : Sym} {n : Nat} (ho : OnlyUnpacker s t)
    (h : PopulatedFrom s s.symPtr (n + 1)) : PopulatedFrom (decoded s t sym) (decoded s t sym).symPtr n := by
  intro k hk
  have hcfg : (decoded s t sym).cfg = s.cfg := ho.cfg
  rw [populated, hcfg, show (decoded s t sym).symPtr = s.symPtr + 1 from rfl, add_one_add_ofNat]
  exact h (k + 1) (by omega)

theorem decoded_outsideWindow {s t : State} {sym : Sym} {n m : Nat} (ho : OnlyUnpacker s t)
    (hc : Consumed s t m) (hm : 0 < m) (h : OutsideWindow s s.symPtr (n + 1)) :
    OutsideWindow (decoded s t sym) (decoded s t sym).symPtr n := by
  intro k hk
  have hk' := h (k + 1) (by omega)
  rw [show (decoded s t sym).symPtr = s.symPtr + 1 from rfl, add_one_add_ofNat, ← Bool.not_eq_true]
  rw [← Bool.not_eq_true] at hk'
  exact fun hin => hk' (within_window_of_le (t := t) ho.inEnd (window_le_of_consumed hc hm) hin)

/-- Over the codes of a text a run decodes the text and goes on from there, by induction on the text. -/
theorem drun_text {s : State} {T : HuffTree} {text : List Sym} {codes : List (List Bool)} {rest : List Bool}
    (hplaced : Placed s T s.root) (hcodes : TextCodes T text codes)
    (hn : text.length ≤ s.symRemain.toNat) (hs : StreamBegins s (codes.flatten ++ rest))
    (hp : PopulatedFrom s s.symPtr text.length) (hout : OutsideWindow s s.symPtr text.length) :
    ∃ t, exec .drun s = exec .drun t ∧ TextDecoded s t text codes.flatten.length rest := by
  induction text generalizing s codes with
  | nil =>
    cases codes with
    | cons _ _ => exact hcodes.elim
    | nil =>
      exact ⟨s, rfl, nofun, .refl _ _ _, rfl, (BitVec.add_zero _).symm, rfl, hs, rfl⟩
  | cons sym text ih =>
    cases codes with
    | nil => exact hcodes.elim
    | cons code codes =>
      obtain ⟨hcode, hcodes⟩ := hcodes
      have hleft : s.symRemain ≠ 0 := by
        intro hz
        simp [hz] at hn
      rw [List.flatten_cons, List.append_assoc] at hs
      have hp0 : populated s s.symPtr = true := by simpa using hp 0 (by simp)
      have hout0 := hout 0 (by simp)
      rw [BitVec.add_zero] at hout0
      obtain ⟨u, ho, hc, hd, hbegins⟩ := decodeSymbol_code hplaced hcode hleft hs hp0 hout0
      have hlen : text.length ≤ (decoded s u sym).symRemain.toNat := by
        have hremain : (s.symRemain - 1).toNat + 1 = s.symRemain.toNat := toNat_sub_one hleft
        rw [List.length_cons, ← hremain] at hn
        exact Nat.le_of_succ_le_succ hn
      obtain ⟨t, hrun, htext⟩ := ih (decoded_placed ho hplaced) hcodes hlen hbegins
        (decoded_populatedFrom ho hp) (decoded_outsideWindow ho hc (HuffTree.code_length_pos hcode) hout)
      refine ⟨t, (drun_ok hleft hd).trans hrun, ?_⟩
      rw [List.flatten_cons, List.length_append]
      exact .cons ho hc hleft htext

/-- Settles O36: after the text no symbol is left to decode. -/
theorem drunDecodesText : Obligations.DrunDecodesText := by
  intro s T text codes hplaced hcodes hn hs hp hout
  obtain ⟨t, hrun, h⟩ := drun_text (rest := []) hplaced hcodes hn.ge (by rwa [List.append_nil]) hp hout
  have hzero : t.symRemain = 0 := by
    have := h.remain
    exact BitVec.eq_of_toNat_eq (show t.symRemain.toNat = 0 by omega)
  exact ⟨t, hrun.trans (nothingLeftToDecode t hzero).2, h.bytes, h.outside, hzero, h.ptr, h.left, h.frame⟩

/-- Settles O37: after the text the next traversal runs out of bits, and its bits stay. -/
theorem shortStreamTruncates : Obligations.ShortStreamTruncates := by
  intro s T text codes rest hplaced hcodes hrest hn hs hl hp hout
  obtain ⟨t, hrun, h⟩ := drun_text hplaced hcodes hn.le hs hp hout
  have hremain := h.remain
  have hleft : t.symRemain ≠ 0 := by
    intro hz
    rw [hz] at hremain
    simp at hremain
    omega
  have hbits : bitsLeft t = rest.length := by
    have := h.left
    rw [hl, List.length_append] at this
    omega
  have hplaced' : Placed t T t.root := hplaced.at_root (by rw [h.frame]) (by rw [h.frame])
  have hstop := decodeSymbol_stops hleft (traverseTree_undecided hplaced' hrest h.begins hbits)
  refine ⟨enterError .truncated t, hrun.trans (drun_stops hstop), rfl, h.bytes, ?_, h.ptr, hbits, h.begins⟩
  show t.symRemain.toNat = _
  omega

end Sys2Proof.Machine
end

section
/-! PROOFS. PUTBITS and PUTSYM (42_packer.md R181, R182), and the bytes a run of them leaves once FLUSH has
written the last one (R184). -/

namespace Sys2Proof.Machine

/-! ## One command -/

theorem immediateBits_congr {n : BitVec 5} {v w : BitVec 16}
    (h : ∀ j, j < n.toNat → v.getLsbD j = w.getLsbD j) : immediateBits n v = immediateBits n w := by
  refine List.map_congr_left fun i hi => h _ ?_
  have := List.mem_range.1 hi
  omega

theorem immediateBits_getElem? {n : BitVec 5} {v : BitVec 16} {j : Nat} (h : j < n.toNat) :
    (immediateBits n v)[j]? = some (v.getLsbD (n.toNat - 1 - j)) := by
  simp [immediateBits, h]

theorem codeBits_getElem? {e : CodeEntry} {j : Nat} (h : j < e.len.toNat) :
    (codeBits e)[j]? = some ((codeWord e (BitVec.ofNat 3 (j / 32))).getLsbD (31 - j % 32)) := by
  have hj : (Fin.ofNat 256 j).val = j := Nat.mod_eq_of_lt (by omega)
  have hk : j / 32 = (BitVec.ofNat 3 (j / 32)).toNat := by
    rw [BitVec.toNat_ofNat, Nat.mod_eq_of_lt (by omega)]
  have hbit := codeBit_eq_codeWord (e := e) (j := Fin.ofNat 256 j) (by rw [hj]; exact hk)
  rw [hj] at hbit
  rw [codeBits, List.getElem?_map, List.getElem?_range h, Option.map_some, hbit]

theorem exec_putbits {n : BitVec 5} (hn : legalCount n = true) (v : BitVec 16) (s : State) :
    exec (.putbits n v) s = settle s (appendBits s (immediateBits n v)) := by
  simp only [exec, execPutbits, whenLegal, hn, if_true]

theorem exec_putsym {s : State} {sym : Sym} (h : (codeEntry s sym).len ≠ 0) :
    exec (.putsym sym) s = settle s (appendBits s (codeBits (codeEntry s sym))) := by
  simp only [exec, execPutsym, if_neg h]

/-- Bits that fit into the address space are appended where the bytes they fill are populated. -/
theorem appendBits_completes {s : State} {bs : List Bool} (hc : AccClean s)
    (hn : (s.accN.val + bs.length) / 8 ≤ 2 ^ 32)
    (hp : PopulatedFrom s s.outPtr ((s.accN.val + bs.length) / 8)) :
    ∃ t, settle s (appendBits s bs) = .next t ∧ Appended s t bs := by
  obtain ⟨t, ht⟩ := appendBits_ok hp
  refine ⟨t, by rw [ht, settle], appendBits_appended hc ?_ ht⟩
  rwa [List.length_append, packedTail_length]

/-- Settles O21: the bits of the immediate are appended, and no other bit of V is among them. -/
theorem putbitsAppendsImmediate : Obligations.PutbitsAppendsImmediate := by
  intro s n v hn hc hp
  have hlen := immediateBits_length n v
  have hN := s.accN.isLt
  obtain ⟨-, h16⟩ := legalCount_iff.1 hn
  obtain ⟨t, ht, happ⟩ := appendBits_completes (bs := immediateBits n v) hc (by omega) (by rwa [hlen])
  refine ⟨fun v' hv => ?_, t, by rw [exec_putbits hn, ht], hlen, fun j => immediateBits_getElem?, happ, ?_, ?_⟩
  · rw [exec_putbits hn, exec_putbits hn, immediateBits_congr hv]
  · obtain ⟨-, -, -, -, hptr, -⟩ := happ
    rwa [List.length_append, packedTail_length, hlen] at hptr
  · rw [happ.accN, hlen]

/-- Settles O22: without a code nothing is appended, with one its bits are. -/
theorem putsymAppendsCode : Obligations.PutsymAppendsCode := by
  refine ⟨fun s sym => exec_putsym_absent, fun s sym hsym hc hp => ?_⟩
  have hlen := codeBits_length (codeEntry s sym)
  have hN := s.accN.isLt
  obtain ⟨t, ht, happ⟩ := appendBits_completes (bs := codeBits (codeEntry s sym)) hc (by omega)
    (by rwa [hlen])
  refine ⟨t, by rw [exec_putsym hsym, ht], hlen, fun j => codeBits_getElem?, happ, ?_⟩
  rw [happ.accN, hlen]

/-- Settles O23: the failing byte fails the whole sequence, and the command drops what it did before. -/
theorem packerBusErrorIsAtomic : Obligations.PackerBusErrorIsAtomic := by
  refine ⟨fun s n v hn hp => ?_, fun s sym hsym hp => ?_⟩
  · rw [exec_putbits hn, appendBits_bus (by rwa [immediateBits_length])]
    rfl
  · rw [exec_putsym hsym, appendBits_bus (by rwa [codeBits_length])]
    rfl

/-! ## Commands in a row -/

/-- A packer command that ends without an error appended its bits; a symbol put has a code. -/
theorem Appends.next {s s' t : State} {i : Instr} {bs : List Bool} (h : Appends s i bs)
    (hct : s'.ct = s.ct) (ht : exec i s' = .next t) (he : t.err = .none) :
    appendBits s' bs = .ok t ∧ ∀ sym, i = .putsym sym → (codeEntry s sym).len ≠ 0 := by
  obtain ⟨n, v, rfl, rfl⟩ | ⟨sym, rfl, rfl⟩ := h
  · obtain ⟨-, rfl⟩ | ⟨-, rfl | hok⟩ := putbits_next ht
    · cases he
    · cases he
    · exact ⟨hok, nofun⟩
  · rw [← codeEntry_congr hct]
    obtain ⟨-, rfl⟩ | ⟨hlen, rfl | hok⟩ := putsym_next ht
    · cases he
    · cases he
    · refine ⟨hok, fun y hy => ?_⟩
      cases hy
      rwa [← codeEntry_congr hct]

/-- A run of packer commands that goes on and ends without an error appended all their bits. -/
theorem execAll_appends {s s' t : State} {cmds : List (Instr × List Bool)} {is : List Instr}
    (hcmds : ∀ c ∈ cmds, Appends s c.1 c.2) (hct : s'.ct = s.ct) (his : .clr ∉ is)
    (ht : execAll (cmds.map Prod.fst ++ is) s' = .next t) (he : t.err = .none) :
    (∀ c ∈ cmds, ∀ sym, c.1 = .putsym sym → (codeEntry s sym).len ≠ 0) ∧
    ∃ u, appendBits s' (cmds.flatMap Prod.snd) = .ok u ∧ execAll is u = .next t := by
  induction cmds generalizing s' with
  | nil => exact ⟨nofun, s', rfl, ht⟩
  | cons c cmds ih =>
    have hclr : .clr ∉ cmds.map Prod.fst ++ is := by
      rw [List.mem_append, not_or]
      refine ⟨fun hmem => ?_, his⟩
      obtain ⟨d, hd, hdclr⟩ := List.mem_map.1 hmem
      obtain ⟨_, _, hi, -⟩ | ⟨_, hi, -⟩ := hcmds d (List.mem_cons_of_mem c hd) <;> rw [hdclr] at hi <;> cases hi
    obtain ⟨u, hu, hue, hrest⟩ := execAll_cons_next hclr ht he
    obtain ⟨hok, hcode⟩ := (hcmds c List.mem_cons_self).next hct hu hue
    obtain ⟨hcodes, v, hv, hv'⟩ := ih (fun d hd => hcmds d (List.mem_cons_of_mem c hd))
      ((appendBits_ct hok).trans hct) hrest
    refine ⟨List.forall_mem_cons.2 ⟨hcode, hcodes⟩, v, ?_, hv'⟩
    rw [List.flatMap_cons, appendBits_append, hok]
    exact hv

/-! ## The bytes of a flushed run -/

/-- t is s after a run from an empty partial byte and a FLUSH: the bits are in whole bytes from OUT_PTR on,
the last one filled up with 0 (R184), and those bytes are populated. -/
structure Packed (s t : State) (bs : List Bool) : Prop where
  holds : HoldsBits t s.outPtr (packedLength bs) bs
  outside : SameMemOutside s t s.outPtr (packedLength bs)
  filled : PopulatedFrom s s.outPtr (packedLength bs)
  ptr : t.outPtr = s.outPtr + BitVec.ofNat 32 (packedLength bs)
  bitcnt : t.bitcnt = s.bitcnt + BitVec.ofNat 64 bs.length
  frame : t = { s with acc := t.acc, accN := t.accN, outPtr := t.outPtr, bitcnt := t.bitcnt, mem := t.mem }

/-- The bits of a clean ACC are its valid ones and then 0. -/
theorem byteBit_acc {s : State} (hc : AccClean s) {j : Nat} (hj : j < 8) :
    byteBit s.acc j = (packedTail s).getD j false := by
  rw [packedTail_getD]
  by_cases hN : j < s.accN.val
  · simp [hN]
  · simp [hN, byteBit, hc (7 - j) (by omega)]

theorem addr_add_ne {p : Addr} {j k : Nat} (hj : j < 2 ^ 32) (hk : k < 2 ^ 32) (h : j ≠ k) :
    (p + BitVec.ofNat 32 j).toNat ≠ (p + BitVec.ofNat 32 k).toNat := by
  intro he
  have heq : BitVec.ofNat 32 j = BitVec.ofNat 32 k := by
    have := BitVec.eq_of_toNat_eq he
    simpa using this
  have := congrArg BitVec.toNat heq
  rw [BitVec.toNat_ofNat, BitVec.toNat_ofNat, Nat.mod_eq_of_lt hj, Nat.mod_eq_of_lt hk] at this
  exact h this

theorem within_add_ofNat {p : Addr} {k n : Nat} (hk : k < n) (hlt : k < 2 ^ 32) :
    within p n (p + BitVec.ofNat 32 k) = true := by
  rw [within_iff, add_sub_cancel_left, BitVec.toNat_ofNat, Nat.mod_eq_of_lt hlt]
  exact hk

/-- n written bytes and then the byte after them are n + 1 bytes. -/
theorem SameMemOutside.snoc {s t u : State} {p : Addr} {n : Nat} {v : Byte} (hn : n < 2 ^ 32)
    (h1 : SameMemOutside s t p n) (h2 : u.mem = t.mem.write (p + BitVec.ofNat 32 n).toNat v) :
    SameMemOutside s u p (n + 1) := by
  intro a ha
  have hne : a ≠ p + BitVec.ofNat 32 n := by
    rintro rfl
    rw [within_add_ofNat (Nat.lt_succ_self n) hn] at ha
    cases ha
  have hout : within p n a = false := by
    rw [← Bool.not_eq_true, within_iff] at ha ⊢
    omega
  rw [h2, Memory.read_write_other _ _ fun he => hne (BitVec.eq_of_toNat_eq he), h1 a hout]

/-- Appending fills the bytes it completes, so they were populated. -/
theorem appendBits_populated {s t : State} {bs : List Bool} (h : appendBits s bs = .ok t) :
    PopulatedFrom s s.outPtr ((s.accN.val + bs.length) / 8) := by
  by_contra hp
  rw [appendBits_bus hp] at h
  cases h

/-- A run whose bits are whole bytes needs no FLUSH. -/
theorem Packed.of_whole {s t : State} {bs : List Bool} (h0 : s.accN = 0) (happ : Appended s t bs)
    (hp : PopulatedFrom s s.outPtr (bs.length / 8)) (hwhole : bs.length % 8 = 0) : Packed s t bs := by
  have hlen : packedLength bs = bs.length / 8 := by
    unfold packedLength
    omega
  obtain ⟨hholds, hout, -, -, hptr, hcnt, hframe⟩ := happ
  rw [packedTail_of_empty h0, List.nil_append, ← hlen] at hholds hout hptr
  exact ⟨hholds, hout, hlen ▸ hp, hptr, hcnt, hframe⟩

/-- A run that leaves a partial byte, and the FLUSH of that byte. -/
theorem Packed.of_partial {s t : State} {bs : List Bool} (h0 : s.accN = 0) (happ : Appended s t bs)
    (hp : PopulatedFrom s s.outPtr (bs.length / 8)) (hpart : bs.length % 8 ≠ 0)
    (hpt : populated t t.outPtr = true) (hn : packedLength bs ≤ 2 ^ 32) :
    Packed s { t with
      mem := t.mem.write t.outPtr.toNat t.acc, outPtr := t.outPtr + 1, acc := 0, accN := 0 } bs := by
  have hlen : packedLength bs = bs.length / 8 + 1 := by
    unfold packedLength
    omega
  have hlt : bs.length / 8 < 2 ^ 32 := by omega
  obtain ⟨hholds, hout, htail, hclean, hptr, hcnt, hframe⟩ := happ
  rw [packedTail_of_empty h0, List.nil_append] at hholds hout htail hptr
  refine ⟨fun k hk => ?_, ?_, fun k hk => ?_, ?_, hcnt, ?_⟩
  · simp only [hptr]
    rcases (show k < bs.length / 8 ∨ k = bs.length / 8 by omega) with hkl | rfl
    · obtain ⟨v, hv, hbits⟩ := hholds k hkl
      refine ⟨v, ?_, hbits⟩
      rwa [Memory.read_write_other _ _ (addr_add_ne (by omega) hlt (by omega))]
    · refine ⟨t.acc, Memory.read_write_same .., fun j hj => ?_⟩
      rw [byteBit_acc hclean hj, htail]
      simp [List.getD]
  · rw [hlen]
    exact hout.snoc hlt (by rw [hptr])
  · rcases (show k < bs.length / 8 ∨ k = bs.length / 8 by omega) with hkl | rfl
    · exact hp k hkl
    · have hcfg : t.cfg = s.cfg := by rw [hframe]
      rwa [hptr, populated, hcfg] at hpt
  · rw [hlen, ← addr_add_ofNat, ← hptr]
    rfl
  · rw [hframe]

/-- A run of packer commands and a FLUSH, with no error. -/
theorem packed_of_execAll {s t : State} {cmds : List (Instr × List Bool)} (hc : AccClean s)
    (h0 : s.accN = 0) (hcmds : ∀ c ∈ cmds, Appends s c.1 c.2)
    (hn : packedLength (cmds.flatMap Prod.snd) ≤ 2 ^ 32)
    (ht : execAll (cmds.map Prod.fst ++ [.flush]) s = .next t) (he : t.err = .none) :
    Packed s t (cmds.flatMap Prod.snd) := by
  obtain ⟨-, u, hu, hflush⟩ := execAll_appends hcmds rfl (by simp) ht he
  obtain ⟨t', hflush', -, hnil⟩ := execAll_cons_next (is := []) (by simp) hflush he
  cases hnil
  generalize cmds.flatMap Prod.snd = bs at *
  have h0v : s.accN.val = 0 := congrArg Fin.val h0
  have happ : Appended s u bs := by
    refine appendBits_appended hc ?_ hu
    rw [packedTail_of_empty h0, List.nil_append]
    unfold packedLength at hn
    omega
  have hp : PopulatedFrom s s.outPtr (bs.length / 8) := by
    simpa [h0v] using appendBits_populated hu
  have hN : u.accN.val = bs.length % 8 := by rw [happ.accN, h0v, Nat.zero_add]
  by_cases hz : u.accN = 0
  · rw [exec_flush_of_empty hz] at hflush'
    cases hflush'
    exact .of_whole h0 happ hp (by rw [← hN, hz]; rfl)
  · have hpart : bs.length % 8 ≠ 0 := fun hmod => hz (Fin.ext (hN.trans hmod))
    cases hpu : populated u u.outPtr with
    | false =>
      rw [exec_flush_of_unpopulated hz hpu] at hflush'
      cases hflush'
      cases he
    | true =>
      rw [exec_flush_of_populated hz hpu] at hflush'
      cases hflush'
      exact .of_partial h0 happ hp hpart hpu hn

/-- Settles O25: the bytes of a flushed run. -/
theorem packingLaw : Obligations.PackingLaw := by
  intro s t cmds hc h0 _ hcmds hn ht he
  have h := packed_of_execAll hc h0 hcmds hn ht he
  exact ⟨h.holds, h.outside, h.ptr, h.bitcnt⟩

/-! ## Reading the bytes back -/

/-- The bits of a flushed run and the zeros that fill up its last byte. -/
def paddedBits (bs : List Bool) : List Bool :=
  bs ++ List.replicate (8 * packedLength bs - bs.length) false

theorem length_le_packed (bs : List Bool) : bs.length ≤ 8 * packedLength bs := by
  unfold packedLength
  omega

@[simp] theorem paddedBits_length (bs : List Bool) : (paddedBits bs).length = 8 * packedLength bs := by
  have := length_le_packed bs
  simp [paddedBits]
  omega

theorem paddedBits_getElem (bs : List Bool) {j : Nat} (h : j < (paddedBits bs).length) :
    (paddedBits bs)[j] = bs.getD j false := by
  unfold paddedBits at h ⊢
  by_cases hj : j < bs.length
  · rw [List.getElem_append_left hj, List.getD_eq_getElem _ _ hj]
  · rw [List.getElem_append_right (Nat.le_of_not_lt hj), List.getElem_replicate,
      List.getD_eq_default _ _ (Nat.le_of_not_lt hj)]

/-- The window from the first OUT_PTR to the last, with UBUF empty, is read as the bits of the run and the
padding (R205). (A window of 2^32 bytes would be an empty one.) -/
theorem Packed.streamBegins {s t u : State} {bs : List Bool} (h : Packed s t bs)
    (hn : packedLength bs < 2 ^ 32) (hcfg : u.cfg = s.cfg) (hmem : u.mem = t.mem) (hN : u.ubufN = 0)
    (hin : u.inPtr = s.outPtr) (hend : u.inEnd = t.outPtr) :
    bitsLeft u = 8 * packedLength bs ∧ StreamBegins u (paddedBits bs) := by
  have hN' : u.ubufN.val = 0 := congrArg Fin.val hN
  have hleft : bitsLeft u = 8 * packedLength bs := by
    rw [bitsLeft, hN', hin, hend, h.ptr, add_sub_cancel_left, BitVec.toNat_ofNat, Nat.mod_eq_of_lt hn,
      Nat.zero_add]
  refine ⟨hleft, fun j hj => ?_⟩
  have hj' : j < 8 * packedLength bs := by rwa [paddedBits_length] at hj
  obtain ⟨v, hv, hbits⟩ := h.holds (j / 8) (by omega)
  have hbyte : engineByte u (s.outPtr + BitVec.ofNat 32 (j / 8)) = some v := by
    have hp := h.filled (j / 8) (by omega)
    rw [engineByte, populated, hcfg, hmem, ← populated, hp, if_pos rfl, hv]
  rw [streamBit, hN', if_neg (Nat.not_lt_zero j), hleft, if_pos hj', hin, Nat.sub_zero, hbyte, Option.map_some,
    hbits (j % 8) (by omega), Nat.div_add_mod, paddedBits_getElem]

/-- Settles O39: the unpacker takes the padded bits, which are all that is left. -/
theorem bitStreamRoundTrip : Obligations.BitStreamRoundTrip := by
  intro s t cmds hc h0 _ hcmds hn ht he
  have h := packed_of_execAll hc h0 hcmds hn.le ht he
  generalize cmds.flatMap Prod.snd = bs at *
  have hcfg : t.cfg = s.cfg := by rw [h.frame]
  obtain ⟨hleft, hs⟩ := h.streamBegins (u := { t with ubufN := 0, inPtr := s.outPtr, inEnd := t.outPtr })
    hn hcfg rfl rfl rfl rfl
  obtain ⟨u, hu, ⟨hcons, -⟩, -⟩ := fetchMany_of_stream hs
  rw [paddedBits_length] at hu hcons
  exact ⟨u, hu, fetchBit_truncated (by omega)⟩

/-! ## A text encoded and decoded -/

/-- The codes of a text's symbols, all of them in CT. -/
theorem textCodes_of_codesOf {s : State} {T : HuffTree} {text : List Sym} (h : CodesOf s T)
    (hlen : ∀ sym ∈ text, (codeEntry s sym).len ≠ 0) :
    TextCodes T text (text.map fun sym => codeBits (codeEntry s sym)) := by
  induction text with
  | nil => trivial
  | cons sym text ih =>
    obtain ⟨hsym, htext⟩ := List.forall_mem_cons.1 hlen
    exact ⟨h sym hsym, ih htext⟩

/-- The commands that encode a text, with the bits they append. -/
def encodeText (s : State) (text : List Sym) : List (Instr × List Bool) :=
  text.map fun sym => (.putsym sym, codeBits (codeEntry s sym))

theorem encodeText_fst (s : State) (text : List Sym) :
    (encodeText s text).map Prod.fst = text.map Instr.putsym := by
  simp [encodeText]

theorem encodeText_snd (s : State) (text : List Sym) :
    (encodeText s text).flatMap Prod.snd = text.flatMap fun sym => codeBits (codeEntry s sym) := by
  simp [encodeText, List.flatMap_map]

theorem encodeText_appends (s : State) (text : List Sym) :
    ∀ c ∈ encodeText s text, Appends s c.1 c.2 := by
  intro c hc
  obtain ⟨sym, -, rfl⟩ := List.mem_map.1 hc
  exact .inr ⟨sym, rfl, rfl⟩

/-- The decoder set up on the bytes from s's OUT_PTR to t's, for n symbols to be written from out on (R206). -/
def rereading (s t : State) (out : Addr) (n : Nat) : State :=
  { t with ubufN := 0, inPtr := s.outPtr, inEnd := t.outPtr, symPtr := out, symRemain := BitVec.ofNat 32 n }

/-- Settles O40: the packed bytes are read back as the codes of the text and the padding, and DRUN over the codes
of a text decodes it. -/
theorem symbolRoundTrip : Obligations.SymbolRoundTrip := by
  intro s t T text out hc h0 _ hcodes hplaced hlen hn ht he hp hout
  rw [← encodeText_fst s] at ht
  have hn' : packedLength ((encodeText s text).flatMap Prod.snd) < 2 ^ 32 := by rwa [encodeText_snd]
  have hpacked := packed_of_execAll hc h0 (encodeText_appends s text) hn'.le ht he
  obtain ⟨hpresent, -⟩ := execAll_appends (encodeText_appends s text) rfl (by simp) ht he
  have hcodes' : TextCodes T text (text.map fun sym => codeBits (codeEntry s sym)) :=
    textCodes_of_codesOf hcodes fun sym hsym =>
      hpresent _ (List.mem_map.2 ⟨sym, hsym, rfl⟩) sym rfl
  rw [encodeText_snd] at hpacked
  rw [List.flatMap_def] at *
  generalize text.map (fun sym => codeBits (codeEntry s sym)) = codes at *
  have hframe := hpacked.frame
  have hcfg : t.cfg = s.cfg := by rw [hframe]
  have hroot : t.root = s.root := by rw [hframe]
  have htn : t.tn = s.tn := by rw [hframe]
  have hcount : (rereading s t out text.length).symRemain.toNat = text.length := by
    rw [rereading, BitVec.toNat_ofNat, Nat.mod_eq_of_lt hlen]
  obtain ⟨hleft, hs⟩ := hpacked.streamBegins (u := rereading s t out text.length) hn hcfg rfl rfl rfl rfl
  obtain ⟨u, hrun, htext⟩ :=
    drun_text (s := rereading s t out text.length) (hplaced.at_root htn hroot) hcodes' hcount.ge hs hp hout
  have hzero : u.symRemain = 0 := by
    have hremain := htext.remain
    exact BitVec.eq_of_toNat_eq (show u.symRemain.toNat = 0 by omega)
  have herr : u.err = t.err := by rw [htext.frame, rereading]
  exact ⟨u, hrun.trans (nothingLeftToDecode u hzero).2, herr.trans he, hzero, htext.bytes,
    htext.left.trans hleft⟩

end Sys2Proof.Machine
end

section
/-! PROOFS. The hardware reset (70_reset_and_hazards.md R261 to R263): which commits it lets stay, and what DMEM
holds after it. -/

namespace Sys2Proof.Machine

/-! ## The commits that stay -/

/-- No commit is made: nothing pending, none asked for, the error gate, an illegal word. -/
theorem someCommits_none {k : Nat} {s : State} (h : s.pending = none ∨ k = 0 ∨ s.err ≠ .none ∨
    ∃ w e, s.pending = some w ∧ decode w = .error e) : someCommits k s = .next s := by
  cases hp : s.pending with
  | none => simp only [someCommits, hp]
  | some w =>
    by_cases hgate : s.err = .none ∧ k ≠ 0
    · obtain ⟨herr, hk⟩ := hgate
      obtain hnone | hzero | hne | ⟨w', e, hw', he⟩ := h
      · rw [hp] at hnone
        cases hnone
      · exact absurd hzero hk
      · exact absurd herr hne
      · rw [hp] at hw'
        cases hw'
        simp only [someCommits, hp, herr, hk, ne_eq, not_false_eq_true, and_self, if_true, he]
    · simp only [someCommits, hp, if_neg hgate]

/-- The one commit of a command other than DRUN. -/
theorem someCommits_single {k : Nat} {s : State} {w : Word} {i : Instr} (hp : s.pending = some w)
    (herr : s.err = .none) (hd : decode w = .ok i) (hi : i ≠ .drun) (hk : k ≠ 0) :
    someCommits k s = exec i s := by
  simp only [someCommits, hp, herr, hk, ne_eq, not_false_eq_true, and_self, if_true, hd, hi, if_false]

/-- The first commits of DRUN are its first symbols, none of them being none of these. -/
theorem someCommits_drun {s : State} {w : Word} (hp : s.pending = some w) (herr : s.err = .none)
    (hd : decode w = .ok .drun) (k : Nat) : someCommits k s = decodeRun k s := by
  by_cases hk : k = 0
  · subst hk
    exact someCommits_none (.inr (.inl rfl))
  · simp only [someCommits, hp, herr, hk, ne_eq, not_false_eq_true, and_self, if_true, hd]

/-! ## DRUN cut short -/

/-- A DSTEP that ends with ERR = 0 decoded its symbol. -/
theorem decodeSymbol_of_dstep {s t : State} (h : exec .dstep s = .next t) (he : t.err = .none) :
    decodeSymbol s = .ok t := by
  obtain hok | ⟨e, -, htrav, rfl⟩ := dstep_next h
  · exact hok
  · exact absurd he (TraversalError.ne_none htrav)

/-- A DSTEP that ends with an error, from none, raised it for its symbol. -/
theorem decodeSymbol_of_dstep_error {s t : State} (hs : s.err = .none) (h : exec .dstep s = .next t)
    (he : t.err ≠ .none) : ∃ e, decodeSymbol s = .error (.raise e) ∧ t = enterError e s := by
  obtain hok | ⟨e, hraise, -, rfl⟩ := dstep_next h
  · exact absurd ((decodeSymbol_err hok).trans hs) he
  · exact ⟨e, hraise, rfl⟩

/-- DSTEPs that end with ERR = 0 are the first turns of a run. -/
theorem decodeRun_after_dsteps {n k : Nat} {s u : State} (hn : n ≤ k)
    (h : execAll (List.replicate n .dstep) s = .next u) (hu : u.err = .none) :
    decodeRun k s = decodeRun (k - n) u := by
  induction n generalizing s k with
  | zero =>
    cases h
    rfl
  | succ n ih =>
    obtain ⟨m, rfl⟩ : ∃ m, k = m + 1 := ⟨k - 1, by omega⟩
    obtain ⟨v, hv, hverr, hrest⟩ := execAll_cons_next (by simp) h hu
    rw [decodeRun_ok (decodeSymbol_of_dstep hv hverr), ih (by omega) hrest, Nat.succ_sub_succ]

/-! ## DMEM after the reset -/

theorem hardwareReset_next {k : Nat} {s u : State} (h : someCommits k s = .next u) :
    ∃ t, hardwareReset k s = .next t ∧ t.mem = dmemAfterReset s u :=
  ⟨_, by rw [hardwareReset, h]; rfl, rfl⟩

theorem hardwareReset_fault {k : Nat} {s : State} {f : Fault} (h : someCommits k s = .fault f) :
    hardwareReset k s = .fault f := by
  rw [hardwareReset, h]
  rfl

/-- R263: with no commit on the way DMEM is kept or unwritten. -/
theorem dmemAfterReset_self (s : State) :
    dmemAfterReset s s = if s.cfg.dmemKeptAtReset then s.mem else [] := by
  have hnone : ∀ a, writtenBetween s s a = false := fun a => by simp [writtenBetween, within_zero]
  simp [dmemAfterReset, hnone]

/-- R262, R263: after commits, all of it, or the bytes they wrote. -/
theorem survivingBytes_of_mem {s u t : State} (h : t.mem = dmemAfterReset s u) : SurvivingBytes s u t := by
  refine ⟨fun hkept => ?_, fun hkept a => ?_⟩
  · rw [h, dmemAfterReset, if_pos hkept]
  · have hfilter := Memory.read_filter u.mem (fun b => writtenBetween s u (BitVec.ofNat 32 b)) a.toNat
    rw [BitVec.ofNat_toNat, BitVec.setWidth_eq] at hfilter
    rw [h, dmemAfterReset, hkept]
    exact hfilter

/-- Settles O51, by the commits made before the reset. (The model's own function has the statement's name.) -/
theorem hardwareResetLaw : Obligations.HardwareReset := by
  refine ⟨fun s t k hm ht => ?_, fun s k hm hnone => ?_, fun s k w i hm hp herr hd hi hk => ?_,
    fun s u k n w hm hp herr hd hn hrun hu => ?_⟩
  · rw [step_reset hm] at ht
    obtain ⟨u, -, rfl⟩ := onNext_next ht
    rfl
  · rw [step_reset hm]
    obtain ⟨t, ht, hmem⟩ := hardwareReset_next (someCommits_none (k := k) (s := popped s) hnone)
    exact ⟨t, ht, hmem.trans (dmemAfterReset_self (popped s))⟩
  · rw [step_reset hm]
    have hcommit : someCommits k (popped s) = exec i (popped s) := someCommits_single hp herr hd hi hk
    refine ⟨fun u hu => ?_, fun f hf => hardwareReset_fault (hcommit.trans hf)⟩
    obtain ⟨t, ht, hmem⟩ := hardwareReset_next (hcommit.trans hu)
    exact ⟨t, ht, survivingBytes_of_mem hmem⟩
  · rw [step_reset hm]
    have hcommit : someCommits k (popped s) = decodeRun (k - n) u :=
      (someCommits_drun (s := popped s) hp herr hd k).trans (decodeRun_after_dsteps hn hrun hu)
    refine ⟨fun hend => ?_, fun f hlt hf => ?_⟩
    · obtain ⟨v, hv, hsame⟩ : ∃ v, decodeRun (k - n) u = .next v ∧ dmemAfterReset (popped s) v =
          dmemAfterReset (popped s) u := by
        cases hrest : k - n with
        | zero => exact ⟨u, rfl, rfl⟩
        | succ m =>
          obtain heq | ⟨v, hv, hverr⟩ := hend
          · omega
          · obtain ⟨e, he, rfl⟩ := decodeSymbol_of_dstep_error hu hv hverr
            exact ⟨_, decodeRun_stops he m, rfl⟩
      obtain ⟨t, ht, hmem⟩ := hardwareReset_next (hcommit.trans hv)
      exact ⟨t, ht, survivingBytes_of_mem (hmem.trans hsame)⟩
    · obtain ⟨m, hm'⟩ : ∃ m, k - n = m + 1 := ⟨k - n - 1, by omega⟩
      have hstop : decodeRun (k - n) u = .fault f := by
        rw [hm', decodeRun_stops (settle_fault hf), settle]
      exact hardwareReset_fault (hcommit.trans hstop)

end Sys2Proof.Machine
end
